-- ==== Sys2Proof/Word.lean ====
section
/-! DEFINITION. The two bit vectors the spec's notation is written over (00_scope.md section 4.1). -/

namespace Sys2Proof

/-- A byte: 8 bits (00_scope.md section 4.1, rule R40). -/
abbrev Byte := BitVec 8

/-- A word: 32 bits, the width of a cipher state word and of every host register (00_scope.md rule R6). -/
abbrev Word := BitVec 32

end Sys2Proof
end

