-- ==== Sys2Proof/Syntax.lean ====
section
/-! DEFINITION. The command set (00_scope.md rule R2, 30_encoding.md rules R64, R67, R71): one constructor per legal command
word, so one per row of spec/opcode_table.json. A command word holds no operand (rule R60: "every operand comes from the
registers"), so no constructor has a field. -/

namespace Sys2Proof

/-- The 35 legal command words of rule R71. -/
inductive Instr where
  /-- `NOP`, word `0x00000000` (rule R80). -/
  | nop
  /-- `BUF_WIPE`, word `0x00000001` (rule R81: zero the region `(DST, DCAP)`). -/
  | bufWipe
  /-- `WIPE_ALL`, word `0x00000002` (rule R82: wipe both units, `KEY` and `NONCE`). -/
  | wipeAll
  /-- `KS_INIT.CHACHA20`, word `0x00000010` (rule R98 with the loading rule R104). -/
  | ksInitChacha20
  /-- `KS_INIT.CHACHA20_IETF`, word `0x00000110` (rule R98 with the loading rule R105). -/
  | ksInitChacha20Ietf
  /-- `KS_INIT.XCHACHA20`, word `0x00000210` (rule R98 with the loading rule R106). -/
  | ksInitXchacha20
  /-- `KS_INIT.SALSA20`, word `0x00000310` (rule R98 with the loading rule R107). -/
  | ksInitSalsa20
  /-- `KS_INIT.XSALSA20`, word `0x00000410` (rule R98 with the loading rule R108). -/
  | ksInitXsalsa20
  /-- `KS_SEEK`, word `0x00000011` (rule R99). -/
  | ksSeek
  /-- `KS_STREAM`, word `0x00000012` (rule R101). -/
  | ksStream
  /-- `KS_XOR`, word `0x00000013` (rule R102). -/
  | ksXor
  /-- `KS_WIPE`, word `0x00000014` (rule R103). -/
  | ksWipe
  /-- `DERIVE.XCHACHA20`, word `0x00000220` (rule R123 with HChaCha20). -/
  | deriveXchacha20
  /-- `DERIVE.XSALSA20`, word `0x00000420` (rule R123 with HSalsa20). -/
  | deriveXsalsa20
  /-- `MAC_INIT`, word `0x00000030` (rule R137). -/
  | macInit
  /-- `MAC_WRITE`, word `0x00000031` (rule R138). -/
  | macWrite
  /-- `MAC_SUM`, word `0x00000032` (rule R139). -/
  | macSum
  /-- `MAC_VERIFY`, word `0x00000033` (rule R140). -/
  | macVerify
  /-- `MAC_WIPE`, word `0x00000034` (rule R142). -/
  | macWipe
  /-- `AEAD_SEAL.CHACHA20`, word `0x00000040` (rule R158). -/
  | aeadSealChacha20
  /-- `AEAD_SEAL.CHACHA20_IETF`, word `0x00000140` (rule R158). -/
  | aeadSealChacha20Ietf
  /-- `AEAD_SEAL.XCHACHA20`, word `0x00000240` (rule R158). -/
  | aeadSealXchacha20
  /-- `AEAD_SEAL.XSALSA20`, word `0x00000440` (rule R158). -/
  | aeadSealXsalsa20
  /-- `AEAD_SEAL_DET.CHACHA20`, word `0x00000041` (rule R159). -/
  | aeadSealDetChacha20
  /-- `AEAD_SEAL_DET.CHACHA20_IETF`, word `0x00000141` (rule R159). -/
  | aeadSealDetChacha20Ietf
  /-- `AEAD_SEAL_DET.XCHACHA20`, word `0x00000241` (rule R159). -/
  | aeadSealDetXchacha20
  /-- `AEAD_SEAL_DET.XSALSA20`, word `0x00000441` (rule R159). -/
  | aeadSealDetXsalsa20
  /-- `AEAD_OPEN.CHACHA20`, word `0x00000042` (rule R160). -/
  | aeadOpenChacha20
  /-- `AEAD_OPEN.CHACHA20_IETF`, word `0x00000142` (rule R160). -/
  | aeadOpenChacha20Ietf
  /-- `AEAD_OPEN.XCHACHA20`, word `0x00000242` (rule R160). -/
  | aeadOpenXchacha20
  /-- `AEAD_OPEN.XSALSA20`, word `0x00000442` (rule R160). -/
  | aeadOpenXsalsa20
  /-- `AEAD_OPEN_DET.CHACHA20`, word `0x00000043` (rule R161). -/
  | aeadOpenDetChacha20
  /-- `AEAD_OPEN_DET.CHACHA20_IETF`, word `0x00000143` (rule R161). -/
  | aeadOpenDetChacha20Ietf
  /-- `AEAD_OPEN_DET.XCHACHA20`, word `0x00000243` (rule R161). -/
  | aeadOpenDetXchacha20
  /-- `AEAD_OPEN_DET.XSALSA20`, word `0x00000443` (rule R161). -/
  | aeadOpenDetXsalsa20
  deriving DecidableEq, Repr

end Sys2Proof
end

