-- ==== Sys2Proof/WellFormed.lean ====
section
/-! DEFINITION. When a command word is well formed. An `Instr` has no operand, so every term of it is well formed; what can be
ill formed is the word the host writes to `CMD`, whose three fields (30_encoding.md rule R60) are checked here one by one, in
the order of rule R63. The sets are written out from rules R64 and R67, apart from the decoder's own table. -/

namespace Sys2Proof

/-- The one format `C` (rule R60): `OP` in bits 7:0, `ALG` in bits 11:8, `ZERO` in bits 31:12. -/
structure CmdFields where
  op : BitVec 8
  alg : BitVec 4
  zero : BitVec 20
  deriving DecidableEq, Repr

/-- Rule R60: `ZERO` "must be 0". -/
def CmdFields.zeroClear (f : CmdFields) : Bool := f.zero == 0

/-- Rule R64: the eighteen opcodes. -/
def CmdFields.opKnown (f : CmdFields) : Bool :=
  [0x00, 0x01, 0x02, 0x10, 0x11, 0x12, 0x13, 0x14, 0x20, 0x30, 0x31, 0x32, 0x33, 0x34, 0x40, 0x41, 0x42, 0x43].contains
    f.op.toNat

/-- Rule R67: the legal ALG set of an opcode; the commands that take no ALG have `{0}`. -/
def legalAlgs (op : Nat) : List Nat :=
  if op = 0x10 then [0, 1, 2, 3, 4]
  else if op = 0x20 then [2, 4]
  else if [0x40, 0x41, 0x42, 0x43].contains op then [0, 1, 2, 4]
  else [0]

/-- Rule R67: the `ALG` field is in the opcode's legal set. -/
def CmdFields.algLegal (f : CmdFields) : Bool := (legalAlgs f.op.toNat).contains f.alg.toNat

/-- A command word's fields are well formed when the three checks of rule R63 pass. -/
def CmdFields.wf (f : CmdFields) : Bool := f.zeroClear && f.opKnown && f.algLegal

end Sys2Proof
end

