-- ==== Sys2Proof/Decode.lean ====
section
/-! DEFINITION. Decoding a command word (30_encoding.md rules R60, R63, R64, R66, R67) and, after it, encoding one (rule R71).
The decoder is total: "every 32-bit word is either one of the 35 legal words or illegal". -/

namespace Sys2Proof

/-- Why the decoder rejects: the three grounds of rule R63 in their order, and, for a byte string, a length other than the
one command length of rule R60. -/
inductive DecodeError where
  /-- Rule R63 (1): `w[31:12] != 0`. -/
  | zeroFieldSet
  /-- Rule R63 (2): `w[7:0]` is not an opcode of rule R64. -/
  | unknownOpcode
  /-- Rule R63 (3): `w[11:8]` is not in the opcode's legal ALG set. -/
  | illegalAlg
  /-- Rule R60: "there is one command length, 32 bits". -/
  | wrongLength
  deriving DecidableEq, Repr

/-- The fields of a command word (rule R60). -/
def CmdFields.ofWord (w : Word) : CmdFields where
  op := w.extractLsb' 0 8
  alg := w.extractLsb' 8 4
  zero := w.extractLsb' 12 20

/-- One opcode of rule R64 with the commands its legal ALG codes select (rule R67). -/
structure OpRow where
  op : Nat
  forms : List (Nat × Instr)

/-- The opcode map of rule R64 with the ALG sets of rule R67. -/
def opcodeTable : List OpRow :=
  [ ⟨0x00, [(0, .nop)]⟩,
    ⟨0x01, [(0, .bufWipe)]⟩,
    ⟨0x02, [(0, .wipeAll)]⟩,
    ⟨0x10, [(0, .ksInitChacha20), (1, .ksInitChacha20Ietf), (2, .ksInitXchacha20), (3, .ksInitSalsa20),
      (4, .ksInitXsalsa20)]⟩,
    ⟨0x11, [(0, .ksSeek)]⟩,
    ⟨0x12, [(0, .ksStream)]⟩,
    ⟨0x13, [(0, .ksXor)]⟩,
    ⟨0x14, [(0, .ksWipe)]⟩,
    ⟨0x20, [(2, .deriveXchacha20), (4, .deriveXsalsa20)]⟩,
    ⟨0x30, [(0, .macInit)]⟩,
    ⟨0x31, [(0, .macWrite)]⟩,
    ⟨0x32, [(0, .macSum)]⟩,
    ⟨0x33, [(0, .macVerify)]⟩,
    ⟨0x34, [(0, .macWipe)]⟩,
    ⟨0x40, [(0, .aeadSealChacha20), (1, .aeadSealChacha20Ietf), (2, .aeadSealXchacha20), (4, .aeadSealXsalsa20)]⟩,
    ⟨0x41, [(0, .aeadSealDetChacha20), (1, .aeadSealDetChacha20Ietf), (2, .aeadSealDetXchacha20),
      (4, .aeadSealDetXsalsa20)]⟩,
    ⟨0x42, [(0, .aeadOpenChacha20), (1, .aeadOpenChacha20Ietf), (2, .aeadOpenXchacha20), (4, .aeadOpenXsalsa20)]⟩,
    ⟨0x43, [(0, .aeadOpenDetChacha20), (1, .aeadOpenDetChacha20Ietf), (2, .aeadOpenDetXchacha20),
      (4, .aeadOpenDetXsalsa20)]⟩ ]

/-- Rule R63, in its order: the `ZERO` field, then the opcode, then the ALG code, then the command. -/
def decodeFields (f : CmdFields) : Except DecodeError Instr :=
  if f.zero ≠ 0 then .error .zeroFieldSet
  else
    match opcodeTable.find? (fun row => row.op == f.op.toNat) with
    | none => .error .unknownOpcode
    | some row =>
      match row.forms.find? (fun form => form.1 == f.alg.toNat) with
      | none => .error .illegalAlg
      | some form => .ok form.2

/-- Decoding the word of a `CMD` write (rule R63). -/
def decode (w : Word) : Except DecodeError Instr := decodeFields (CmdFields.ofWord w)

/-- Decoding a byte string: a command is four bytes, least significant first (20_memory.md rule R43). -/
def decodeBytes : List Byte → Except DecodeError Instr
  | [b0, b1, b2, b3] => decode (b3 ++ b2 ++ b1 ++ b0)
  | _ => .error .wrongLength

/-- Rule R71: "A legal word is `OP + 256 * ALG`". -/
def cmdWord (op alg : Nat) : Word := BitVec.ofNat 32 (op + 256 * alg)

/-- The word of a command, by the opcodes of rule R64 and the ALG codes of rules R66 and R67. -/
def encode : Instr → Word
  | .nop => cmdWord 0x00 0
  | .bufWipe => cmdWord 0x01 0
  | .wipeAll => cmdWord 0x02 0
  | .ksInitChacha20 => cmdWord 0x10 0
  | .ksInitChacha20Ietf => cmdWord 0x10 1
  | .ksInitXchacha20 => cmdWord 0x10 2
  | .ksInitSalsa20 => cmdWord 0x10 3
  | .ksInitXsalsa20 => cmdWord 0x10 4
  | .ksSeek => cmdWord 0x11 0
  | .ksStream => cmdWord 0x12 0
  | .ksXor => cmdWord 0x13 0
  | .ksWipe => cmdWord 0x14 0
  | .deriveXchacha20 => cmdWord 0x20 2
  | .deriveXsalsa20 => cmdWord 0x20 4
  | .macInit => cmdWord 0x30 0
  | .macWrite => cmdWord 0x31 0
  | .macSum => cmdWord 0x32 0
  | .macVerify => cmdWord 0x33 0
  | .macWipe => cmdWord 0x34 0
  | .aeadSealChacha20 => cmdWord 0x40 0
  | .aeadSealChacha20Ietf => cmdWord 0x40 1
  | .aeadSealXchacha20 => cmdWord 0x40 2
  | .aeadSealXsalsa20 => cmdWord 0x40 4
  | .aeadSealDetChacha20 => cmdWord 0x41 0
  | .aeadSealDetChacha20Ietf => cmdWord 0x41 1
  | .aeadSealDetXchacha20 => cmdWord 0x41 2
  | .aeadSealDetXsalsa20 => cmdWord 0x41 4
  | .aeadOpenChacha20 => cmdWord 0x42 0
  | .aeadOpenChacha20Ietf => cmdWord 0x42 1
  | .aeadOpenXchacha20 => cmdWord 0x42 2
  | .aeadOpenXsalsa20 => cmdWord 0x42 4
  | .aeadOpenDetChacha20 => cmdWord 0x43 0
  | .aeadOpenDetChacha20Ietf => cmdWord 0x43 1
  | .aeadOpenDetXchacha20 => cmdWord 0x43 2
  | .aeadOpenDetXsalsa20 => cmdWord 0x43 4

/-- The four bytes of a command's word, least significant first. -/
def encodeBytes (i : Instr) : List Byte :=
  let w := encode i
  [w.extractLsb' 0 8, w.extractLsb' 8 8, w.extractLsb' 16 8, w.extractLsb' 24 8]

/-- The command word whose `nbits` bits are `w`, every bit above `nbits` being 0; none where that leaves a number that is
not a 32-bit word. -/
def tableWord (nbits w : Nat) : Option Word :=
  let v := w % 2 ^ nbits
  if v < 2 ^ 32 then some (BitVec.ofNat 32 v) else none

/-- The command the decoder reads from the word `w` of `nbits` bits. -/
def decodeTableWord (nbits w : Nat) : Option Instr :=
  match tableWord nbits w with
  | none => none
  | some v =>
    match decode v with
    | .ok i => some i
    | .error _ => none

end Sys2Proof
end

