-- ==== Sys2Proof/Config.lean ====
section
/-! DEFINITION. The parameters of 00_scope.md rule R6: the two OPEN ones, which the machine carries as plain data beside its
state and no step changes, and the values the spec fixes. -/

namespace Sys2Proof

/-- `ORIG_LEN_PLACEMENT` (rules R6 and R156): where the two lengths stand in the MAC input of the "original"
ChaCha20-Poly1305. -/
inductive OrigLenPlacement where
  | trailing
  | interleaved
  deriving DecidableEq, Repr

/-- The OPEN parameters of rule R6, which "a model takes as arguments": every meaning reads them from here and none
writes them. -/
structure Config where
  /-- `DMEM_BYTES`: the size of the data memory in bytes. -/
  dmemBytes : Nat
  /-- `ORIG_LEN_PLACEMENT`. -/
  origLenPlacement : OrigLenPlacement
  deriving DecidableEq, Repr

/-- The defaults of rule R6 (92_eei_decisions.md D4, D22). -/
def Config.default : Config where
  dmemBytes := 4096
  origLenPlacement := .trailing

/-- Rule R6: `DMEM_BYTES` is "a multiple of 64 with 256 <= DMEM_BYTES <= 2^24". -/
def Config.legal (c : Config) : Bool :=
  decide (c.dmemBytes % 64 = 0) && decide (256 ≤ c.dmemBytes) && decide (c.dmemBytes ≤ 2 ^ 24)

/-- `DMEM_BASE` (rule R6): the host-window offset of DMEM offset 0. -/
def dmemBase : Nat := 0x1000

/-- `KEY_BYTES` (rules R4, R6): the only key length LGC accepts. -/
def keyBytes : Nat := 32

/-- `BLOCK_BYTES` (rules R4, R6): the keystream block of both cipher families. -/
def blockBytes : Nat := 64

/-- `TAG_BYTES` (rules R4, R6). -/
def tagBytes : Nat := 16

/-- `ROUNDS` is 20, that is 10 double rounds (rule R6). -/
def doubleRounds : Nat := 10

/-- The value of the `ID` register (rules R3, R15): ASCII "LGC1". -/
def idWord : Word := 0x4C474331

/-- The value whose write to `RESET` resets the block (rules R23, R230). -/
def resetMagic : Word := 0x52535421

/-- `SIGMAW[0..3]`, the words of ASCII "expand 32-byte k" (00_scope.md section 4.2). -/
def sigmaWords : Vector Word 4 := #v[0x61707865, 0x3320646e, 0x79622d32, 0x6b206574]

end Sys2Proof
end

