-- ==== Sys2Proof/Machine/State.lean ====
section
/-! DEFINITION. The machine's state (10_state.md), plain data: the host register page, the two units, the result fields and
DMEM, with three fields of the model's own (the parameters, the pending host transactions, the answers to host reads). Every
element, its rule and its reset value is listed in INVENTORY.md. -/

namespace Sys2Proof.Machine

/-- The five stream-cipher variants of 30_encoding.md rule R66; also the contents of `KS.ALG` (10_state.md rule R19). -/
inductive Alg where
  | chacha20
  | chacha20Ietf
  | xchacha20
  | salsa20
  | xsalsa20
  deriving DecidableEq, Repr

/-- The contents of `STATUS.ERR` (60_exceptions.md rule R203). -/
inductive ErrCode where
  | ok
  | forgedOrCorrupted
  | cipherTooShort
  | bufferTooShort
  /-- Reserved by rule R203 and "never raised". -/
  | invalidPoint
  | rejectedNonce
  | rejectedConst
  | illegalCmd
  | dmemRange
  | overlap
  | counterRange
  /-- `0xFF`, "written together with `FATAL = 1`". -/
  | fatalMarker
  deriving DecidableEq, Repr

/-- The contents of `STATUS.FCODE` (60_exceptions.md rule R204). -/
inductive FatalCode where
  | none
  | keyLength
  | nonceLength
  | ksNotKeyed
  | ctrExhausted
  | macKeyReuse
  | macSumBeforeWrite
  deriving DecidableEq, Repr

/-- What the host can do to the block (20_memory.md rule R41): a 32-bit read, a 32-bit write, the reset input. The fourth
constructor stands for the accesses of another width, which "do not exist on this interface: a model gives them no meaning
and refuses them". An offset of the host window is a plain number; the spec gives it no width. -/
inductive HostOp where
  | read32 (off : Nat)
  | write32 (off : Nat) (v : Word)
  | reset
  | otherWidth (off bytes : Nat)
  deriving DecidableEq, Repr

/-- The KS unit (10_state.md rule R19). -/
structure KsState where
  /-- `KS.KEYED` -/
  keyed : Bool
  /-- `KS.ALG` -/
  alg : Alg
  /-- `KS.KEY[0..7]` -/
  key : Vector Word 8
  /-- `KS.NONCE[0..11]` -/
  nonce : Vector Byte 12
  /-- `KS.CTR` -/
  ctr : BitVec 64
  /-- `KS.WRAP` -/
  wrap : Bool
  /-- `KS.BUF[0..63]` -/
  buf : Vector Byte 64
  /-- `KS.OFF`, 0 to 64; 64 means nothing is buffered. -/
  off : Nat
  deriving DecidableEq, Repr

/-- The KS unit after reset and after a unit wipe (rules R27, R83). -/
def KsState.wiped : KsState where
  keyed := false
  alg := .chacha20
  key := Vector.replicate 8 0
  nonce := Vector.replicate 12 0
  ctr := 0
  wrap := false
  buf := Vector.replicate 64 0
  off := 64

/-- The MAC unit (10_state.md rule R22). -/
structure MacState where
  /-- `MAC.KEYED` -/
  keyed : Bool
  /-- `MAC.WRITTEN` -/
  written : Bool
  /-- `MAC.CONSUMED` -/
  consumed : Bool
  /-- `MAC.R`, clamped -/
  r : BitVec 128
  /-- `MAC.S` -/
  s : BitVec 128
  /-- `MAC.H`, "a natural number with `0 <= MAC.H < p`" -/
  h : Nat
  /-- `MAC.BUF[0..15]` -/
  buf : Vector Byte 16
  /-- `MAC.BLEN`, 0 to 15 between commands -/
  blen : Nat
  deriving DecidableEq, Repr

/-- The MAC unit after reset and after a unit wipe (rules R27, R83). -/
def MacState.wiped : MacState where
  keyed := false
  written := false
  consumed := false
  r := 0
  s := 0
  h := 0
  buf := Vector.replicate 16 0
  blen := 0

/-- DMEM as the list of its non-zero bytes by strictly rising DMEM offset; an unlisted byte reads 0, which is what reset
leaves everywhere (10_state.md rules R26, R27). `Memory.wf` in Machine/Ops.lean says the form. -/
abbrev Memory := List Host.Cell

/-- The state of LGC (10_state.md rule R10). -/
structure State where
  /-- The OPEN parameters of rule R6, which "a model takes as arguments"; no step writes them. -/
  cfg : Config
  /-- Operand registers (rule R12). -/
  src : Word
  len : Word
  dst : Word
  dcap : Word
  ad : Word
  adlen : Word
  tag : Word
  klen : Word
  nlen : Word
  ctrLo : Word
  ctrHi : Word
  /-- Staging files (rule R13). -/
  key : Vector Word 8
  nonce : Vector Word 6
  const : Vector Word 4
  /-- Units (rules R19, R22). -/
  ks : KsState
  mac : MacState
  /-- The result fields seen through `STATUS` (rules R17, R18). -/
  err : ErrCode
  vok : Bool
  fatal : Bool
  fcode : FatalCode
  /-- The data memory (rule R26). -/
  dmem : Memory
  /-- The host's transactions not yet served, in the order the host issues them (20_memory.md rule R47); the model's own. -/
  host : List HostOp
  /-- The words the host's reads returned, latest first; the model's own. -/
  answers : List Word
  deriving DecidableEq, Repr

/-- Reset with given parameters (10_state.md rule R27). -/
def State.resetWith (cfg : Config) : State where
  cfg := cfg
  src := 0
  len := 0
  dst := 0
  dcap := 0
  ad := 0
  adlen := 0
  tag := 0
  klen := 0
  nlen := 0
  ctrLo := 0
  ctrHi := 0
  key := Vector.replicate 8 0
  nonce := Vector.replicate 6 0
  const := sigmaWords
  ks := KsState.wiped
  mac := MacState.wiped
  err := .ok
  vok := false
  fatal := false
  fcode := .none
  dmem := []
  host := []
  answers := []

/-- The machine right after reset (rule R27), with the default parameters of rule R6, no transaction pending and none
answered. -/
def State.reset : State := State.resetWith Config.default

/-- LGC never stops with a fault: every abnormal event is a next state (60_exceptions.md rules R206 to R209), host accesses
"never raise events" (rule R213), and "nothing in LGC hangs; nothing is undefined" (00_scope.md section 6). So there is no
constructor, and no step can answer a fault. -/
inductive Fault where
  deriving DecidableEq, Repr

/-- What the model refuses. -/
inductive Refusal where
  /-- An instruction without a meaning; no arm of `exec` raises it. Safe: the run stops. -/
  | notModelled (mnemonic : String)
  /-- Raised by a host access whose offset is not a multiple of 4. 20_memory.md rule R41: such accesses "do not exist on
  this interface: a model gives them no meaning and refuses them (this errs toward unprovable)". Safe: the run stops. -/
  | misalignedAccess (off : Nat)
  /-- Raised by a host access that is not 32 bits wide, by the same sentence of rule R41. Safe: the run stops. -/
  | otherWidthAccess (off bytes : Nat)
  deriving DecidableEq, Repr

end Sys2Proof.Machine
end

