-- ==== Sys2Proof/Machine/Bytes.lean ====
section
/-! DEFINITION. Byte strings, byte order and word arithmetic: the functions of 00_scope.md section 4.1. Everything is
little-endian (20_memory.md rule R43). -/

namespace Sys2Proof.Machine

/-- `lenum(b)`: the number whose little-endian bytes are `b`. -/
def lenum : List Byte → Nat
  | [] => 0
  | b :: bs => b.toNat + 256 * lenum bs

/-- The `n` low bytes of `v`, least significant first: `to_le32` at 4, `to_le64` at 8, `to_le128` at 16. -/
def toLe : Nat → Nat → List Byte
  | 0, _ => []
  | n + 1, v => BitVec.ofNat 8 v :: toLe n (v / 256)

/-- `le32(b)`. -/
def le32 (bs : List Byte) : Word := BitVec.ofNat 32 (lenum bs)

/-- `to_le32(w)`. -/
def toLe32 (w : Word) : List Byte := toLe 4 w.toNat

/-- `a ‖ b ‖ ...` of the words' little-endian bytes. -/
def bytesOfWords (ws : List Word) : List Byte := ws.flatMap toLe32

/-- `le32(b[4i..4i+4))`. -/
def wordAt (bs : List Byte) (i : Nat) : Word := le32 ((bs.drop (4 * i)).take 4)

/-- A file of `n` cells from a list: cell `i` is element `i`, or `d` where the list is shorter. -/
def vecOfList {α : Type} (n : Nat) (d : α) (xs : List α) : Vector α n :=
  ⟨⟨(List.range n).map (fun i => xs.getD i d)⟩, by simp⟩

/-- `add32(a, b) = (a + b) mod 2^32`. -/
def add32 (a b : Word) : Word := a + b

/-- `rotl32(x, n)`. -/
def rotl32 (x : Word) (n : Nat) : Word := x.rotateLeft n

/-- Bytewise exclusive or of two byte strings. -/
def xorBytes (a b : List Byte) : List Byte := List.zipWith (· ^^^ ·) a b

/-- `0^n`. -/
def zeros (n : Nat) : List Byte := List.replicate n 0

/-- `pad16(n)`: the zero bytes that fill `n` up to a multiple of 16. -/
def pad16 (n : Nat) : List Byte := zeros ((16 - n % 16) % 16)

/-- `SIGMA`, the 16 bytes of ASCII "expand 32-byte k". -/
def sigma : List Byte := bytesOfWords sigmaWords.toList

end Sys2Proof.Machine
end

