-- ==== Sys2Proof/Machine/Ops.lean ====
section
/-! DEFINITION. The operations every command shares: DMEM (20_memory.md rules R26, R42, R44 to R46), unit wipes (rule R83), the
end of a command (60_exceptions.md rules R205, R206), fatal entry (rule R208), reset (70_reset_and_hazards.md rule R231), and
the shape of a command: its checks in order, then its effect (rule R211). -/

namespace Sys2Proof.Machine

/-! ### DMEM -/

/-- The byte at DMEM offset `a`. -/
def Memory.read : Memory → Nat → Byte
  | [], _ => 0
  | (b, v) :: m, a => if a = b then v else Memory.read m a

/-- DMEM with the byte `v` at offset `a`. Writing 0 takes the entry out, which keeps the canonical form. -/
def Memory.set (a : Nat) (v : Byte) : Memory → Memory
  | [] => if v = 0 then [] else [(a, v)]
  | (b, w) :: m =>
    if a = b then (if v = 0 then m else (a, v) :: m)
    else if a < b then (if v = 0 then (b, w) :: m else (a, v) :: (b, w) :: m)
    else (b, w) :: Memory.set a v m

/-- The canonical form of a memory of `n` bytes: offsets strictly rising and below `n`, no byte 0 listed. -/
def Memory.wf (n : Nat) : Memory → Bool
  | [] => true
  | [(a, v)] => decide (a < n) && decide (v ≠ 0)
  | (a, v) :: (b, w) :: m => decide (a < b) && decide (v ≠ 0) && Memory.wf n ((b, w) :: m)

/-- `MemRead(a, n)` (00_scope.md section 4.2). -/
def Memory.readBytes (m : Memory) (a n : Nat) : List Byte := (List.range n).map (fun i => m.read (a + i))

/-- `MemWrite(a, len(v), v)` (00_scope.md section 4.2). -/
def Memory.writeBytes (m : Memory) (a : Nat) : List Byte → Memory
  | [] => m
  | v :: vs => Memory.writeBytes (m.set a v) (a + 1) vs

/-- A region of DMEM (20_memory.md rule R44): offset and length, both natural numbers, so that no sum of them wraps. -/
structure Region where
  off : Nat
  len : Nat
  deriving DecidableEq, Repr

/-- Rule R44: a region is in range "when `n = 0`, or `off + n <= DMEM_BYTES`". -/
def Region.inRange (cfg : Config) (r : Region) : Bool :=
  decide (r.len = 0) || decide (r.off + r.len ≤ cfg.dmemBytes)

/-- Rule R45: two regions overlap "when both have `n > 0` and share at least one DMEM offset". -/
def Region.overlaps (p q : Region) : Bool :=
  decide (0 < p.len) && decide (0 < q.len) && decide (p.off < q.off + q.len) && decide (q.off < p.off + p.len)

/-- The exact extents a command touches (20_memory.md rule R55): the `SRC` region it reads, what else it reads, the `DST`
region it writes, what else it writes. -/
structure Extents where
  src : Region
  otherReads : List Region
  dst : Region
  otherWrites : List Region

/-- Rule R45: `SRC` may overlap `DST` only from equal start offsets; no other read extent may overlap a written one; written
extents may not overlap one another; read extents may. -/
def Extents.allowed (e : Extents) : Bool :=
  (!e.src.overlaps e.dst || decide (e.src.off = e.dst.off))
    && e.otherWrites.all (fun w => !e.src.overlaps w && !e.dst.overlaps w)
    && e.otherReads.all (fun r => !r.overlaps e.dst && e.otherWrites.all (fun w => !r.overlaps w))

/-! ### Unit wipes and the ends of a command -/

/-- Wipe the KS unit (rules R83, R103). -/
def wipeKs (s : State) : State := { s with ks := KsState.wiped }

/-- Wipe the MAC unit (rules R83, R142). -/
def wipeMac (s : State) : State := { s with mac := MacState.wiped }

/-- `OK` completion (rule R205): `ERR <- 0`, and `VOK` as given. -/
def finish (vok : Bool) (s : State) : State := { s with err := .ok, vok := vok }

/-- `raise Error(code)` (rules R206, R207): `ERR <- code`, `VOK <- 0`, nothing else. -/
def raiseError (c : ErrCode) (s : State) : State := { s with err := c, vok := false }

/-- `raise Fatal(fcode)`, fatal entry (rule R208): the result fields, both units wiped, `KEY`, `NONCE` and the operand
registers zeroed; `CONST` and DMEM unchanged. -/
def raiseFatal (f : FatalCode) (s : State) : State :=
  { s with
    fatal := true
    fcode := f
    err := .fatalMarker
    vok := false
    ks := KsState.wiped
    mac := MacState.wiped
    key := Vector.replicate 8 0
    nonce := Vector.replicate 6 0
    src := 0
    len := 0
    dst := 0
    dcap := 0
    ad := 0
    adlen := 0
    tag := 0
    klen := 0
    nlen := 0
    ctrLo := 0
    ctrHi := 0 }

/-- Reset, by the reset input or the `RESET` register (rules R230, R231), the only way out of the fatal state (rule R209):
every element of LGC at its value of rule R27. The parameters stay, and so do the host's own pending transactions and the
answers it has had. -/
def resetBlock (s : State) : State :=
  { State.resetWith s.cfg with host := s.host, answers := s.answers }

/-! ### The shape of a command -/

/-- The two kinds of event a check can raise (rules R201, R202). -/
inductive Event where
  | error (c : ErrCode)
  | fatal (f : FatalCode)
  deriving DecidableEq, Repr

/-- Taking an event: LGC's form of an exception (60_exceptions.md, preamble). -/
def takeEvent : Event → State → State
  | .error c, s => raiseError c s
  | .fatal f, s => raiseFatal f s

/-- One check: what must hold, and the event if it does not. -/
structure Check where
  holds : Bool
  event : Event

/-- Rule R211: the checks are evaluated in order and "the first that fails" is the one event reported. -/
def firstFailure : List Check → Option Event
  | [] => none
  | c :: cs => if c.holds then firstFailure cs else some c.event

/-- Executing a command: ignored in the fatal state (rules R16, R209); otherwise its checks, then its effect. -/
def runCommand (checks : List Check) (effect : State → State) (s : State) : Host.Outcome State Fault Refusal :=
  if s.fatal then .next s
  else
    match firstFailure checks with
    | some e => .next (takeEvent e s)
    | none => .next (effect s)

end Sys2Proof.Machine
end

