-- ==== Sys2Proof/Machine/Operands.lean ====
section
/-! DEFINITION. A command's operands: the byte views of the staging files (10_state.md rule R13), the counter operand and the
regions (30_encoding.md rule R65, 20_memory.md rule R55), the ALG codes (rule R66), and the checks several commands share. -/

namespace Sys2Proof.Machine

/-- The code of rule R66. -/
def Alg.code : Alg → Nat
  | .chacha20 => 0
  | .chacha20Ietf => 1
  | .xchacha20 => 2
  | .salsa20 => 3
  | .xsalsa20 => 4

/-- `nlen(ALG)`: the nonce length `NLEN` must equal (rules R66, R98). -/
def Alg.nonceBytes : Alg → Nat
  | .chacha20 => 8
  | .chacha20Ietf => 12
  | .xchacha20 => 24
  | .salsa20 => 16
  | .xsalsa20 => 24

/-- `CMAX` (rule R97): how many counter values the variant has. -/
def Alg.ctrMax : Alg → Nat
  | .chacha20Ietf => 2 ^ 32
  | .chacha20 | .xchacha20 | .salsa20 | .xsalsa20 => 2 ^ 64

/-- `KEYB`, 32 bytes (rule R13). -/
def keyB (s : State) : List Byte := bytesOfWords s.key.toList

/-- `NONCEB`, 24 bytes (rule R13). -/
def nonceB (s : State) : List Byte := bytesOfWords s.nonce.toList

/-- `CONSTB`, 16 bytes (rule R13). -/
def constB (s : State) : List Byte := bytesOfWords s.const.toList

/-- The counter operand of KS_SEEK, `CTR_HI * 2^32 + CTR_LO` (rule R65). -/
def counterOperand (s : State) : BitVec 64 := s.ctrHi ++ s.ctrLo

/-- `(SRC, LEN)` -/
def srcRegion (s : State) : Region := ⟨s.src.toNat, s.len.toNat⟩

/-- `(DST, DCAP)` -/
def dstRegion (s : State) : Region := ⟨s.dst.toNat, s.dcap.toNat⟩

/-- `(DST, n)`: what a command writes of its destination. -/
def dstExtent (n : Nat) (s : State) : Region := ⟨s.dst.toNat, n⟩

/-- `(AD, ADLEN)` -/
def adRegion (s : State) : Region := ⟨s.ad.toNat, s.adlen.toNat⟩

/-- `(TAG, 16)` -/
def tagRegion (s : State) : Region := ⟨s.tag.toNat, tagBytes⟩

/-- `MemRead` of a region. -/
def readRegion (r : Region) (s : State) : List Byte := s.dmem.readBytes r.off r.len

/-- `MemWrite(a, len(v), v)` on the state. -/
def writeAt (a : Nat) (v : List Byte) (s : State) : State := { s with dmem := s.dmem.writeBytes a v }

/-- `KLEN = 32`, else `raise Fatal(F_KEY_LENGTH)`. -/
def checkKeyLength (s : State) : Check := ⟨decide (s.klen.toNat = keyBytes), .fatal .keyLength⟩

/-- `NLEN = nlen(ALG)`, else `raise Fatal(F_NONCE_LENGTH)`. -/
def checkNonceLength (alg : Alg) (s : State) : Check :=
  ⟨decide (s.nlen.toNat = alg.nonceBytes), .fatal .nonceLength⟩

/-- `DCAP >= n`, else `raise Error(ERR_BUFFER_TOO_SHORT)`. -/
def checkCapacity (n : Nat) (s : State) : Check := ⟨decide (n ≤ s.dcap.toNat), .error .bufferTooShort⟩

/-- Every declared region in range, "all at once" (rule R211), else `raise Error(ERR_DMEM_RANGE)`. -/
def checkRange (rs : List Region) (s : State) : Check := ⟨rs.all (Region.inRange s.cfg), .error .dmemRange⟩

/-- The overlap rule, else `raise Error(ERR_OVERLAP)`. -/
def checkOverlap (e : Extents) : Check := ⟨e.allowed, .error .overlap⟩

end Sys2Proof.Machine
end

