-- ==== Sys2Proof/Machine/Permute.lean ====
section
/-! DEFINITION. The ChaCha20 and Salsa20 permutations and block functions (41_keystream.md rules R91, R93 to R95) and the two
subkey functions (42_subkey.md rules R120 to R122), on 16-word matrices. -/

namespace Sys2Proof.Machine

/-- A 16-word cipher matrix, `Z[0..15]`. -/
abbrev Matrix := Vector Word 16

/-- A quarter round: four words to four words. -/
abbrev QuarterRound := Word → Word → Word → Word → Word × Word × Word × Word

/-- The ChaCha quarter round `CQR(a, b, c, d)`, its eight steps in order (rule R91). -/
def chachaQuarter : QuarterRound := fun a b c d =>
  let a := add32 a b
  let d := rotl32 (d ^^^ a) 16
  let c := add32 c d
  let b := rotl32 (b ^^^ c) 12
  let a := add32 a b
  let d := rotl32 (d ^^^ a) 8
  let c := add32 c d
  let b := rotl32 (b ^^^ c) 7
  (a, b, c, d)

/-- The Salsa quarter round `SQR(y0, y1, y2, y3)`, its four steps in order (rule R94). -/
def salsaQuarter : QuarterRound := fun y0 y1 y2 y3 =>
  let y1 := y1 ^^^ rotl32 (add32 y0 y3) 7
  let y2 := y2 ^^^ rotl32 (add32 y1 y0) 9
  let y3 := y3 ^^^ rotl32 (add32 y2 y1) 13
  let y0 := y0 ^^^ rotl32 (add32 y3 y2) 18
  (y0, y1, y2, y3)

/-- A quarter round at the indices `(i, j, k, l)` of a matrix (rules R91, R95). -/
def quarterAt (q : QuarterRound) (i j k l : Fin 16) (z : Matrix) : Matrix :=
  match q z[i] z[j] z[k] z[l] with
  | (a, b, c, d) => (((z.set i a).set j b).set k c).set l d

/-- The ChaCha double round: column round, then diagonal round (rule R93). -/
def chachaDouble (z : Matrix) : Matrix :=
  let z := quarterAt chachaQuarter 0 4 8 12 z
  let z := quarterAt chachaQuarter 1 5 9 13 z
  let z := quarterAt chachaQuarter 2 6 10 14 z
  let z := quarterAt chachaQuarter 3 7 11 15 z
  let z := quarterAt chachaQuarter 0 5 10 15 z
  let z := quarterAt chachaQuarter 1 6 11 12 z
  let z := quarterAt chachaQuarter 2 7 8 13 z
  quarterAt chachaQuarter 3 4 9 14 z

/-- The Salsa double round: column round, then row round (rule R95). -/
def salsaDouble (z : Matrix) : Matrix :=
  let z := quarterAt salsaQuarter 0 4 8 12 z
  let z := quarterAt salsaQuarter 5 9 13 1 z
  let z := quarterAt salsaQuarter 10 14 2 6 z
  let z := quarterAt salsaQuarter 15 3 7 11 z
  let z := quarterAt salsaQuarter 0 1 2 3 z
  let z := quarterAt salsaQuarter 5 6 7 4 z
  let z := quarterAt salsaQuarter 10 11 8 9 z
  quarterAt salsaQuarter 15 12 13 14 z

/-- `n` double rounds. -/
def iterateRounds (round : Matrix → Matrix) : Nat → Matrix → Matrix
  | 0, z => z
  | n + 1, z => iterateRounds round n (round z)

/-- The 20 rounds of ChaCha20 (rule R93). -/
def chachaRounds (x : Matrix) : Matrix := iterateRounds chachaDouble doubleRounds x

/-- The 20 rounds of Salsa20 (rule R95). -/
def salsaRounds (x : Matrix) : Matrix := iterateRounds salsaDouble doubleRounds x

/-- `O[i] <- add32(Z[i], X[i])`, serialised: the last step of both block functions (rules R93, R95). -/
def addAndSerialise (z x : Matrix) : List Byte := bytesOfWords (List.zipWith add32 z.toList x.toList)

/-- `ChaChaBlock(X)`, 64 bytes (rule R93). -/
def chachaBlock (x : Matrix) : List Byte := addAndSerialise (chachaRounds x) x

/-- `SalsaBlock(X)`, 64 bytes (rule R95). -/
def salsaBlock (x : Matrix) : List Byte := addAndSerialise (salsaRounds x) x

/-- The input matrix of `HChaCha20(k, n, c)` (rule R121). -/
def hchachaMatrix (k n c : List Byte) : Matrix :=
  #v[wordAt c 0, wordAt c 1, wordAt c 2, wordAt c 3,
     wordAt k 0, wordAt k 1, wordAt k 2, wordAt k 3,
     wordAt k 4, wordAt k 5, wordAt k 6, wordAt k 7,
     wordAt n 0, wordAt n 1, wordAt n 2, wordAt n 3]

/-- `HChaCha20(k, n, c)`, 32 bytes, without the final addition (rule R121). -/
def hchacha20 (k n c : List Byte) : List Byte :=
  let z := chachaRounds (hchachaMatrix k n c)
  bytesOfWords [z[0], z[1], z[2], z[3], z[12], z[13], z[14], z[15]]

/-- The input matrix of `HSalsa20(k, n, c)` (rule R122). -/
def hsalsaMatrix (k n c : List Byte) : Matrix :=
  #v[wordAt c 0, wordAt k 0, wordAt k 1, wordAt k 2,
     wordAt k 3, wordAt c 1, wordAt n 0, wordAt n 1,
     wordAt n 2, wordAt n 3, wordAt c 2, wordAt k 4,
     wordAt k 5, wordAt k 6, wordAt k 7, wordAt c 3]

/-- `HSalsa20(k, n, c)`, 32 bytes, without the final addition (rule R122). -/
def hsalsa20 (k n c : List Byte) : List Byte :=
  let z := salsaRounds (hsalsaMatrix k n c)
  bytesOfWords [z[0], z[5], z[10], z[15], z[6], z[7], z[8], z[9]]

end Sys2Proof.Machine
end

