-- ==== Sys2Proof/Machine/Keystream.lean ====
section
/-! DEFINITION. KS, the keystream generator (41_keystream.md): counter and nonce injection (rules R92, R94), block generation and
the counter (rules R96, R97, R109), consumption (rule R100), loading (rules R104 to R108), and the commands KS_INIT, KS_SEEK,
KS_STREAM, KS_XOR and KS_WIPE (rules R98, R99, R101 to R103). -/

namespace Sys2Proof.Machine

/-! ### The unit -/

/-- `le32(KS.NONCE[4i..4i+4))`. -/
def ksNonceWord (ks : KsState) (i : Nat) : Word := wordAt ks.nonce.toList i

/-- `KS.CTR[31:0]` -/
def ksCtrLow (ks : KsState) : Word := ks.ctr.extractLsb' 0 32

/-- `KS.CTR[63:32]` -/
def ksCtrHigh (ks : KsState) : Word := ks.ctr.extractLsb' 32 32

/-- The ChaCha input matrix with a 64-bit counter in words 12 and 13 (rule R92, ALG 0 and 2). -/
def chachaMatrix64 (ks : KsState) : Matrix :=
  #v[sigmaWords[0], sigmaWords[1], sigmaWords[2], sigmaWords[3],
     ks.key[0], ks.key[1], ks.key[2], ks.key[3],
     ks.key[4], ks.key[5], ks.key[6], ks.key[7],
     ksCtrLow ks, ksCtrHigh ks, ksNonceWord ks 0, ksNonceWord ks 1]

/-- The ChaCha input matrix with a 32-bit counter in word 12 (rule R92, ALG 1). -/
def chachaMatrix32 (ks : KsState) : Matrix :=
  #v[sigmaWords[0], sigmaWords[1], sigmaWords[2], sigmaWords[3],
     ks.key[0], ks.key[1], ks.key[2], ks.key[3],
     ks.key[4], ks.key[5], ks.key[6], ks.key[7],
     ksCtrLow ks, ksNonceWord ks 0, ksNonceWord ks 1, ksNonceWord ks 2]

/-- The Salsa input matrix (rule R94, ALG 3 and 4). -/
def salsaMatrix (ks : KsState) : Matrix :=
  #v[sigmaWords[0], ks.key[0], ks.key[1], ks.key[2],
     ks.key[3], sigmaWords[1], ksNonceWord ks 0, ksNonceWord ks 1,
     ksCtrLow ks, ksCtrHigh ks, sigmaWords[2], ks.key[4],
     ks.key[5], ks.key[6], ks.key[7], sigmaWords[3]]

/-- The 64-byte block at the unit's counter: "it depends on nothing but `KS.ALG`, `KS.KEY`, `KS.NONCE` and `c`" (rule R96). -/
def ksBlock (ks : KsState) : List Byte :=
  match ks.alg with
  | .chacha20 => chachaBlock (chachaMatrix64 ks)
  | .chacha20Ietf => chachaBlock (chachaMatrix32 ks)
  | .xchacha20 => chachaBlock (chachaMatrix64 ks)
  | .salsa20 => salsaBlock (salsaMatrix ks)
  | .xsalsa20 => salsaBlock (salsaMatrix ks)

/-- Counter advance (rule R97): past the last counter value, `KS.CTR <- 0` and `KS.WRAP <- 1`. -/
def ksAdvance (ks : KsState) : KsState :=
  if ks.ctr.toNat + 1 = ks.alg.ctrMax then { ks with ctr := 0, wrap := true }
  else { ks with ctr := ks.ctr + 1 }

/-- `NextBlock()` (rule R96): the block, and the unit with its counter advanced. -/
def nextBlock (ks : KsState) : List Byte × KsState := (ksBlock ks, ksAdvance ks)

/-- `KS.BUF <- NextBlock()` and `KS.OFF <- 0`, when nothing is buffered (rule R100). -/
def ksRefill (ks : KsState) : KsState :=
  if ks.off = blockBytes then
    match nextBlock ks with
    | (b, ks') => { ks' with buf := vecOfList 64 0 b, off := 0 }
  else ks

/-- `Consume(n)` (rule R100): the bytes, and the unit after them. -/
def consume : Nat → KsState → List Byte × KsState
  | 0, ks => ([], ks)
  | n + 1, ks =>
    let ks := ksRefill ks
    match consume n { ks with off := ks.off + 1 } with
    | (out, ks') => (ks.buf.toList.getD ks.off 0 :: out, ks')

/-- `need(n)` (rule R109): how many new blocks `n` bytes take. -/
def blocksNeeded (ks : KsState) (n : Nat) : Nat :=
  let avail := blockBytes - ks.off
  if n ≤ avail then 0 else (n - avail + 63) / 64

/-- `left` (rule R109): how many blocks the unit may still generate. -/
def blocksLeft (ks : KsState) : Nat := if ks.wrap then 0 else ks.alg.ctrMax - ks.ctr.toNat

/-! ### Loading -/

/-- A unit just initialised (rule R98): nothing buffered, no wrap, keyed. -/
def ksFresh (alg : Alg) (key : Vector Word 8) (nonce : List Byte) (ctr : BitVec 64) : KsState where
  keyed := true
  alg := alg
  key := key
  nonce := vecOfList 12 0 nonce
  ctr := ctr
  wrap := false
  buf := Vector.replicate 64 0
  off := 64

/-- The eight words of a 32-byte subkey. -/
def keyWords (sub : List Byte) : Vector Word 8 :=
  #v[wordAt sub 0, wordAt sub 1, wordAt sub 2, wordAt sub 3, wordAt sub 4, wordAt sub 5, wordAt sub 6, wordAt sub 7]

/-- The loading rules R104 to R108, from key words and the staged nonce bytes. Derivations use `SIGMA`, "never the `CONST`
register". -/
def ksLoad (alg : Alg) (key : Vector Word 8) (nonceBs : List Byte) : KsState :=
  match alg with
  | .chacha20 => ksFresh .chacha20 key (nonceBs.take 8) 0
  | .chacha20Ietf => ksFresh .chacha20Ietf key (nonceBs.take 12) 0
  | .xchacha20 =>
    ksFresh .xchacha20 (keyWords (hchacha20 (bytesOfWords key.toList) (nonceBs.take 16) sigma))
      ((nonceBs.drop 16).take 8) 0
  | .salsa20 =>
    ksFresh .salsa20 key (nonceBs.take 8) (BitVec.ofNat 64 (lenum ((nonceBs.drop 8).take 8)))
  | .xsalsa20 =>
    ksFresh .xsalsa20 (keyWords (hsalsa20 (bytesOfWords key.toList) (nonceBs.take 16) sigma))
      ((nonceBs.drop 16).take 8) 0

/-! ### The checks of rules R98, R99, R101, R102 -/

/-- `KS.KEYED = 1`, else `raise Fatal(F_KS_NOT_KEYED)`. -/
def checkKsKeyed (s : State) : Check := ⟨s.ks.keyed, .fatal .ksNotKeyed⟩

/-- `need(n) <= left`, else `raise Fatal(F_CTR_EXHAUSTED)` (rule R109). -/
def checkBlocks (n : Nat) (s : State) : Check :=
  ⟨decide (blocksNeeded s.ks n ≤ blocksLeft s.ks), .fatal .ctrExhausted⟩

/-- Rule R99 (2): "if `KS.ALG = 1` and `CTR_HI != 0`, `raise Error(ERR_COUNTER_RANGE)`". -/
def checkCounterRange (s : State) : Check :=
  ⟨!(decide (s.ks.alg = .chacha20Ietf) && decide (s.ctrHi ≠ 0)), .error .counterRange⟩

/-! ### The commands -/

/-- KS_INIT (rule R98), for every variant. -/
def ksInit (alg : Alg) (s : State) : Host.Outcome State Fault Refusal :=
  runCommand [checkKeyLength s, checkNonceLength alg s]
    (fun s => finish false { s with ks := ksLoad alg s.key (nonceB s) }) s

/-- KS_INIT.CHACHA20 (rules R98, R104). -/
def execKsInitChacha20 (s : State) : Host.Outcome State Fault Refusal := ksInit .chacha20 s

/-- KS_INIT.CHACHA20_IETF (rules R98, R105). -/
def execKsInitChacha20Ietf (s : State) : Host.Outcome State Fault Refusal := ksInit .chacha20Ietf s

/-- KS_INIT.XCHACHA20 (rules R98, R106). -/
def execKsInitXchacha20 (s : State) : Host.Outcome State Fault Refusal := ksInit .xchacha20 s

/-- KS_INIT.SALSA20 (rules R98, R107). -/
def execKsInitSalsa20 (s : State) : Host.Outcome State Fault Refusal := ksInit .salsa20 s

/-- KS_INIT.XSALSA20 (rules R98, R108). -/
def execKsInitXsalsa20 (s : State) : Host.Outcome State Fault Refusal := ksInit .xsalsa20 s

/-- The effect of KS_SEEK on the unit (rule R99): reposition, discard the buffer, clear `KS.WRAP`. -/
def ksSeekTo (c : BitVec 64) (ks : KsState) : KsState :=
  { ks with ctr := c, buf := Vector.replicate 64 0, off := 64, wrap := false }

/-- KS_SEEK (rule R99). -/
def execKsSeek (s : State) : Host.Outcome State Fault Refusal :=
  runCommand [checkKsKeyed s, checkCounterRange s]
    (fun s => finish false { s with ks := ksSeekTo (counterOperand s) s.ks }) s

/-- KS_STREAM (rule R101): `MemWrite(DST, DCAP, Consume(DCAP))`. -/
def execKsStream (s : State) : Host.Outcome State Fault Refusal :=
  runCommand [checkKsKeyed s, checkRange [dstRegion s] s, checkBlocks s.dcap.toNat s]
    (fun s =>
      match consume s.dcap.toNat s.ks with
      | (out, ks) => finish false (writeAt s.dst.toNat out { s with ks := ks })) s

/-- KS_XOR (rule R102): `MemWrite(DST, LEN, MemRead(SRC, LEN) xor Consume(LEN))`. -/
def execKsXor (s : State) : Host.Outcome State Fault Refusal :=
  runCommand
    [checkKsKeyed s, checkCapacity s.len.toNat s, checkRange [srcRegion s, dstRegion s] s,
      checkOverlap ⟨srcRegion s, [], dstExtent s.len.toNat s, []⟩, checkBlocks s.len.toNat s]
    (fun s =>
      match consume s.len.toNat s.ks with
      | (k, ks) => finish false (writeAt s.dst.toNat (xorBytes (readRegion (srcRegion s) s) k) { s with ks := ks })) s

/-- KS_WIPE (rule R103). -/
def execKsWipe (s : State) : Host.Outcome State Fault Refusal :=
  runCommand [] (fun s => finish false (wipeKs s)) s

end Sys2Proof.Machine
end

