-- ==== Sys2Proof/Machine/Poly1305.lean ====
section
/-! DEFINITION. MAC, the Poly1305 one-time authenticator (43_poly1305.md): the arithmetic (rules R130 to R136) and the commands
MAC_INIT, MAC_WRITE, MAC_SUM, MAC_VERIFY and MAC_WIPE (rules R137 to R142). Quantities are natural numbers reduced mod `p`. -/

namespace Sys2Proof.Machine

/-- `p = 2^130 - 5`. -/
def polyP : Nat := 2 ^ 130 - 5

/-- The clamp of rule R131. -/
def clampMask : BitVec 128 := 0x0ffffffc0ffffffc0ffffffc0fffffff

/-- The unit keyed from a 32-byte key (rules R131, R137). -/
def macKeyed (k : List Byte) : MacState where
  keyed := true
  written := false
  consumed := false
  r := BitVec.ofNat 128 (lenum (k.take 16)) &&& clampMask
  s := BitVec.ofNat 128 (lenum ((k.drop 16).take 16))
  h := 0
  buf := Vector.replicate 16 0
  blen := 0

/-- One multiply-accumulate: `((h + n) * r) mod p` (rules R132, R133). -/
def absorb (r : BitVec 128) (h n : Nat) : Nat := (h + n) * r.toNat % polyP

/-- `n` of a full 16-byte block: `le128(m) + 2^128` (rule R132). -/
def fullBlock (m : List Byte) : Nat := lenum m + 2 ^ 128

/-- `n` of a last, partial block: `lenum(m ‖ 01)` (rule R133). -/
def partialBlock (m : List Byte) : Nat := lenum (m ++ [1])

/-- One byte of `MacWrite` (rule R135): buffered, and the block absorbed as soon as it is complete. -/
def macByte (m : MacState) (x : Byte) : MacState :=
  let buf := m.buf.setIfInBounds m.blen x
  if m.blen + 1 = 16 then
    { m with h := absorb m.r m.h (fullBlock buf.toList), buf := Vector.replicate 16 0, blen := 0 }
  else { m with buf := buf, blen := m.blen + 1 }

/-- `MacWrite(d)` (rule R135). -/
def macWrite : MacState → List Byte → MacState
  | m, [] => m
  | m, x :: d => macWrite (macByte m x) d

/-- `MacFinal()`, the 16-byte tag (rule R136); it does not change the unit. -/
def macFinal (m : MacState) : List Byte :=
  let h := if m.blen > 0 then absorb m.r m.h (partialBlock (m.buf.toList.take m.blen)) else m.h
  toLe 16 ((h + m.s.toNat) % 2 ^ 128)

/-- The key is spent (rules R139, R140): `R`, `S`, `H`, `BUF`, `BLEN` zeroed, `CONSUMED` set; `KEYED` and `WRITTEN` stay. -/
def macSpend (m : MacState) : MacState :=
  { m with r := 0, s := 0, h := 0, buf := Vector.replicate 16 0, blen := 0, consumed := true }

/-- Rule R141: plain equality of two tags; time is not modelled. -/
def tagsEqual (a b : List Byte) : Bool := decide (a = b)

/-- `MAC.KEYED = 1` and `MAC.CONSUMED = 0`, else `raise Fatal(F_MAC_KEY_REUSE)`. -/
def checkMacUsable (s : State) : Check := ⟨s.mac.keyed && !s.mac.consumed, .fatal .macKeyReuse⟩

/-- `MAC.WRITTEN = 1`, else `raise Fatal(F_MAC_SUM_BEFORE_WRITE)`. -/
def checkMacWritten (s : State) : Check := ⟨s.mac.written, .fatal .macSumBeforeWrite⟩

/-- MAC_INIT (rule R137). -/
def execMacInit (s : State) : Host.Outcome State Fault Refusal :=
  runCommand [checkKeyLength s] (fun s => finish false { s with mac := macKeyed (keyB s) }) s

/-- MAC_WRITE (rule R138). -/
def execMacWrite (s : State) : Host.Outcome State Fault Refusal :=
  runCommand [checkMacUsable s, checkRange [srcRegion s] s]
    (fun s => finish false { s with mac := { macWrite s.mac (readRegion (srcRegion s) s) with written := true } }) s

/-- MAC_SUM (rule R139): the tag at `DST`, then the key is spent. -/
def execMacSum (s : State) : Host.Outcome State Fault Refusal :=
  runCommand
    [checkMacUsable s, checkMacWritten s, checkCapacity tagBytes s, checkRange [dstRegion s] s]
    (fun s => finish false { writeAt s.dst.toNat (macFinal s.mac) s with mac := macSpend s.mac }) s

/-- MAC_VERIFY (rule R140): `VOK` is the comparison, `ERR` is 0 either way, and the key is spent either way. -/
def execMacVerify (s : State) : Host.Outcome State Fault Refusal :=
  runCommand [checkMacUsable s, checkMacWritten s, checkRange [tagRegion s] s]
    (fun s =>
      finish (tagsEqual (macFinal s.mac) (readRegion (tagRegion s) s)) { s with mac := macSpend s.mac }) s

/-- MAC_WIPE (rule R142). -/
def execMacWipe (s : State) : Host.Outcome State Fault Refusal :=
  runCommand [] (fun s => finish false (wipeMac s)) s

end Sys2Proof.Machine
end

