-- ==== Sys2Proof/Machine/Aead.lean ====
section
/-! DEFINITION. AFC, the AEAD framing controller (44_aead.md): setup, cipher, framing and tag (rules R153 to R157) and the
commands AEAD_SEAL, AEAD_SEAL_DET, AEAD_OPEN and AEAD_OPEN_DET (rules R158 to R161). A command's use of the KS and MAC units
begins and ends inside the command and leaves both wiped (rules R25, R152). -/

namespace Sys2Proof.Machine

/-! ### The construction -/

/-- `AeadSetup(ALG)` (rule R153): the one-time key from block 0, and KS at block 1 with nothing buffered. -/
def aeadSetup (alg : Alg) (key : Vector Word 8) (nonceBs : List Byte) : List Byte × KsState :=
  match nextBlock (ksLoad alg key nonceBs) with
  | (b0, ks) => (b0.take 32, ks)

/-- `AeadCrypt(x) = x xor Consume(len(x))` (rule R154). -/
def aeadCrypt (ks : KsState) (x : List Byte) : List Byte := xorBytes x (consume x.length ks).1

/-- `to_le64(len(b))`. -/
def lengthBytes (b : List Byte) : List Byte := toLe 8 b.length

/-- `MacInput(ad, ct)`, padded framing (rule R155, ALG 1, 2, 4). -/
def macInputPadded (ad ct : List Byte) : List Byte :=
  ad ++ pad16 ad.length ++ ct ++ pad16 ct.length ++ lengthBytes ad ++ lengthBytes ct

/-- `MacInput0(ad, ct)`, unpadded framing (rule R156, ALG 0), by `ORIG_LEN_PLACEMENT`. -/
def macInputUnpadded (p : OrigLenPlacement) (ad ct : List Byte) : List Byte :=
  match p with
  | .trailing => ad ++ ct ++ lengthBytes ad ++ lengthBytes ct
  | .interleaved => ad ++ lengthBytes ad ++ ct ++ lengthBytes ct

/-- The MAC input of a variant (rules R155, R156). -/
def aeadMacInput (cfg : Config) (alg : Alg) (ad ct : List Byte) : List Byte :=
  match alg with
  | .chacha20 => macInputUnpadded cfg.origLenPlacement ad ct
  | .chacha20Ietf => macInputPadded ad ct
  | .xchacha20 => macInputPadded ad ct
  | .salsa20 => macInputPadded ad ct
  | .xsalsa20 => macInputPadded ad ct

/-- `AeadTag(ALG, otk, ad, ct)` (rule R157). -/
def aeadTag (cfg : Config) (alg : Alg) (otk ad ct : List Byte) : List Byte :=
  macFinal (macWrite (macKeyed otk) (aeadMacInput cfg alg ad ct))

/-- Seal (rule R162: setup, encrypt, MAC the ciphertext): ciphertext and tag. -/
def aeadSealBytes (cfg : Config) (alg : Alg) (key : Vector Word 8) (nonceBs ad pt : List Byte) : List Byte × List Byte :=
  match aeadSetup alg key nonceBs with
  | (otk, ks) =>
    let ct := aeadCrypt ks pt
    (ct, aeadTag cfg alg otk ad ct)

/-- Open (rule R162: the expected tag from the received ciphertext, and the plaintext only if it equals the given one). -/
def aeadOpenBytes (cfg : Config) (alg : Alg) (key : Vector Word 8) (nonceBs ad ct given : List Byte) : Option (List Byte) :=
  match aeadSetup alg key nonceBs with
  | (otk, ks) => if tagsEqual (aeadTag cfg alg otk ad ct) given then some (aeadCrypt ks ct) else none

/-- Seal with the staged key and nonce (rule R150). -/
def sealStaged (alg : Alg) (s : State) (ad pt : List Byte) : List Byte × List Byte :=
  aeadSealBytes s.cfg alg s.key (nonceB s) ad pt

/-- Open with the staged key and nonce (rule R150). -/
def openStaged (alg : Alg) (s : State) (ad ct given : List Byte) : Option (List Byte) :=
  aeadOpenBytes s.cfg alg s.key (nonceB s) ad ct given

/-- How an admitted AEAD command leaves the units (rule R152). -/
def wipeUnits (s : State) : State := wipeMac (wipeKs s)

/-- The end of an open command (rules R160, R161): the plaintext written and `VOK` set, or nothing written and
`ERR_FORGED_OR_CORRUPTED` (rule R207); the units wiped both ways. -/
def finishOpen (pt : Option (List Byte)) (s : State) : State :=
  match pt with
  | some pt => finish true (wipeUnits (writeAt s.dst.toNat pt s))
  | none => raiseError .forgedOrCorrupted (wipeUnits s)

/-! ### The commands, for any variant -/

/-- AEAD_SEAL (rule R158). -/
def aeadSeal (alg : Alg) (s : State) : Host.Outcome State Fault Refusal :=
  runCommand
    [checkKeyLength s, checkNonceLength alg s, checkCapacity (s.len.toNat + tagBytes) s,
      checkRange [srcRegion s, adRegion s, dstRegion s] s,
      checkOverlap ⟨srcRegion s, [adRegion s], dstExtent (s.len.toNat + tagBytes) s, []⟩]
    (fun s =>
      match sealStaged alg s (readRegion (adRegion s) s) (readRegion (srcRegion s) s) with
      | (ct, tag) =>
        finish false (wipeUnits (writeAt (s.dst.toNat + s.len.toNat) tag (writeAt s.dst.toNat ct s)))) s

/-- AEAD_SEAL_DET (rule R159): `DST` before `TAG` (rule R46). -/
def aeadSealDet (alg : Alg) (s : State) : Host.Outcome State Fault Refusal :=
  runCommand
    [checkKeyLength s, checkNonceLength alg s, checkCapacity s.len.toNat s,
      checkRange [srcRegion s, adRegion s, dstRegion s, tagRegion s] s,
      checkOverlap ⟨srcRegion s, [adRegion s], dstExtent s.len.toNat s, [tagRegion s]⟩]
    (fun s =>
      match sealStaged alg s (readRegion (adRegion s) s) (readRegion (srcRegion s) s) with
      | (ct, tag) => finish false (wipeUnits (writeAt s.tag.toNat tag (writeAt s.dst.toNat ct s)))) s

/-- `LEN >= 16`, else `raise Error(ERR_CIPHER_TOO_SHORT)` (rule R160 (3)). -/
def checkCipherLength (s : State) : Check := ⟨decide (tagBytes ≤ s.len.toNat), .error .cipherTooShort⟩

/-- AEAD_OPEN (rule R160): the last 16 bytes of `(SRC, LEN)` are the tag. -/
def aeadOpen (alg : Alg) (s : State) : Host.Outcome State Fault Refusal :=
  runCommand
    [checkKeyLength s, checkNonceLength alg s, checkCipherLength s, checkCapacity (s.len.toNat - tagBytes) s,
      checkRange [srcRegion s, adRegion s, dstRegion s] s,
      checkOverlap ⟨srcRegion s, [adRegion s], dstExtent (s.len.toNat - tagBytes) s, []⟩]
    (fun s =>
      let input := readRegion (srcRegion s) s
      let n := s.len.toNat - tagBytes
      finishOpen (openStaged alg s (readRegion (adRegion s) s) (input.take n) (input.drop n)) s) s

/-- AEAD_OPEN_DET (rule R161): the tag is at `(TAG, 16)`. -/
def aeadOpenDet (alg : Alg) (s : State) : Host.Outcome State Fault Refusal :=
  runCommand
    [checkKeyLength s, checkNonceLength alg s, checkCapacity s.len.toNat s,
      checkRange [srcRegion s, adRegion s, tagRegion s, dstRegion s] s,
      checkOverlap ⟨srcRegion s, [adRegion s, tagRegion s], dstExtent s.len.toNat s, []⟩]
    (fun s =>
      finishOpen
        (openStaged alg s (readRegion (adRegion s) s) (readRegion (srcRegion s) s) (readRegion (tagRegion s) s)) s) s

/-! ### One meaning per command word -/

/-- AEAD_SEAL.CHACHA20 (rule R158; ChaCha20-Poly1305 (original)). -/
def execAeadSealChacha20 (s : State) : Host.Outcome State Fault Refusal := aeadSeal .chacha20 s

/-- AEAD_SEAL.CHACHA20_IETF (rule R158; ChaCha20-Poly1305-IETF). -/
def execAeadSealChacha20Ietf (s : State) : Host.Outcome State Fault Refusal := aeadSeal .chacha20Ietf s

/-- AEAD_SEAL.XCHACHA20 (rule R158; XChaCha20-Poly1305-IETF). -/
def execAeadSealXchacha20 (s : State) : Host.Outcome State Fault Refusal := aeadSeal .xchacha20 s

/-- AEAD_SEAL.XSALSA20 (rule R158; XSalsa20-Poly1305, rule R164). -/
def execAeadSealXsalsa20 (s : State) : Host.Outcome State Fault Refusal := aeadSeal .xsalsa20 s

/-- AEAD_SEAL_DET.CHACHA20 (rule R159; ChaCha20-Poly1305 (original)). -/
def execAeadSealDetChacha20 (s : State) : Host.Outcome State Fault Refusal := aeadSealDet .chacha20 s

/-- AEAD_SEAL_DET.CHACHA20_IETF (rule R159; ChaCha20-Poly1305-IETF). -/
def execAeadSealDetChacha20Ietf (s : State) : Host.Outcome State Fault Refusal := aeadSealDet .chacha20Ietf s

/-- AEAD_SEAL_DET.XCHACHA20 (rule R159; XChaCha20-Poly1305-IETF). -/
def execAeadSealDetXchacha20 (s : State) : Host.Outcome State Fault Refusal := aeadSealDet .xchacha20 s

/-- AEAD_SEAL_DET.XSALSA20 (rule R159; XSalsa20-Poly1305, rule R164). -/
def execAeadSealDetXsalsa20 (s : State) : Host.Outcome State Fault Refusal := aeadSealDet .xsalsa20 s

/-- AEAD_OPEN.CHACHA20 (rule R160; ChaCha20-Poly1305 (original)). -/
def execAeadOpenChacha20 (s : State) : Host.Outcome State Fault Refusal := aeadOpen .chacha20 s

/-- AEAD_OPEN.CHACHA20_IETF (rule R160; ChaCha20-Poly1305-IETF). -/
def execAeadOpenChacha20Ietf (s : State) : Host.Outcome State Fault Refusal := aeadOpen .chacha20Ietf s

/-- AEAD_OPEN.XCHACHA20 (rule R160; XChaCha20-Poly1305-IETF). -/
def execAeadOpenXchacha20 (s : State) : Host.Outcome State Fault Refusal := aeadOpen .xchacha20 s

/-- AEAD_OPEN.XSALSA20 (rule R160; XSalsa20-Poly1305, rule R164). -/
def execAeadOpenXsalsa20 (s : State) : Host.Outcome State Fault Refusal := aeadOpen .xsalsa20 s

/-- AEAD_OPEN_DET.CHACHA20 (rule R161; ChaCha20-Poly1305 (original)). -/
def execAeadOpenDetChacha20 (s : State) : Host.Outcome State Fault Refusal := aeadOpenDet .chacha20 s

/-- AEAD_OPEN_DET.CHACHA20_IETF (rule R161; ChaCha20-Poly1305-IETF). -/
def execAeadOpenDetChacha20Ietf (s : State) : Host.Outcome State Fault Refusal := aeadOpenDet .chacha20Ietf s

/-- AEAD_OPEN_DET.XCHACHA20 (rule R161; XChaCha20-Poly1305-IETF). -/
def execAeadOpenDetXchacha20 (s : State) : Host.Outcome State Fault Refusal := aeadOpenDet .xchacha20 s

/-- AEAD_OPEN_DET.XSALSA20 (rule R161; XSalsa20-Poly1305, rule R164). -/
def execAeadOpenDetXsalsa20 (s : State) : Host.Outcome State Fault Refusal := aeadOpenDet .xsalsa20 s

end Sys2Proof.Machine
end

