-- ==== Sys2Proof/Machine/Housekeeping.lean ====
section
/-! DEFINITION. NOP, BUF_WIPE and WIPE_ALL (40_securebuffer_wipe.md rules R80 to R82). -/

namespace Sys2Proof.Machine

/-- NOP (rule R80): no check, no effect but `ERR` and `VOK`. -/
def execNop (s : State) : Host.Outcome State Fault Refusal := runCommand [] (finish false) s

/-- BUF_WIPE (rule R81): every byte of `(DST, DCAP)` becomes 0. -/
def execBufWipe (s : State) : Host.Outcome State Fault Refusal :=
  runCommand [checkRange [dstRegion s] s]
    (fun s => finish false (writeAt s.dst.toNat (zeros s.dcap.toNat) s)) s

/-- WIPE_ALL (rule R82): both units, `KEY` and `NONCE`; not `CONST`, the operand registers or DMEM. -/
def execWipeAll (s : State) : Host.Outcome State Fault Refusal :=
  runCommand []
    (fun s =>
      finish false
        { wipeMac (wipeKs s) with key := Vector.replicate 8 0, nonce := Vector.replicate 6 0 }) s

end Sys2Proof.Machine
end

