-- ==== Sys2Proof/Machine/Subkey.lean ====
section
/-! DEFINITION. SKD, the subkey derivation engine: the command DERIVE (42_subkey.md rule R123). The two functions are in
Machine/Permute.lean; SKD holds nothing between commands (10_state.md rule R24). -/

namespace Sys2Proof.Machine

/-- `NLEN >= 16`, else `raise Error(ERR_REJECTED_NONCE)` (rule R123 (2)). -/
def checkPrefixLength (s : State) : Check := ⟨decide (16 ≤ s.nlen.toNat), .error .rejectedNonce⟩

/-- `CONSTB = SIGMA`, else `raise Error(ERR_REJECTED_CONST)` (rule R123 (3)). -/
def checkConstant (s : State) : Check := ⟨decide (s.const = sigmaWords), .error .rejectedConst⟩

/-- DERIVE (rule R123) with the function its ALG code selects. -/
def derive (h : List Byte → List Byte → List Byte → List Byte) (s : State) : Host.Outcome State Fault Refusal :=
  runCommand
    [checkKeyLength s, checkPrefixLength s, checkConstant s, checkCapacity 32 s, checkRange [dstRegion s] s]
    (fun s => finish false (writeAt s.dst.toNat (h (keyB s) ((nonceB s).take 16) (constB s)) s)) s

/-- DERIVE.XCHACHA20: `HChaCha20` (rules R121, R123). -/
def execDeriveXchacha20 (s : State) : Host.Outcome State Fault Refusal := derive hchacha20 s

/-- DERIVE.XSALSA20: `HSalsa20` (rules R122, R123). -/
def execDeriveXsalsa20 (s : State) : Host.Outcome State Fault Refusal := derive hsalsa20 s

end Sys2Proof.Machine
end

