-- ==== Sys2Proof/Machine/Dispatch.lean ====
section
/-! DEFINITION. One arm per command of the opcode table (30_encoding.md rules R64, R71): the meaning of each. -/

namespace Sys2Proof.Machine

def exec (i : Instr) (s : State) : Host.Outcome State Fault Refusal :=
  match i with
  | .nop => Sys2Proof.Machine.execNop s
  | .bufWipe => Sys2Proof.Machine.execBufWipe s
  | .wipeAll => Sys2Proof.Machine.execWipeAll s
  | .ksInitChacha20 => Sys2Proof.Machine.execKsInitChacha20 s
  | .ksInitChacha20Ietf => Sys2Proof.Machine.execKsInitChacha20Ietf s
  | .ksInitXchacha20 => Sys2Proof.Machine.execKsInitXchacha20 s
  | .ksInitSalsa20 => Sys2Proof.Machine.execKsInitSalsa20 s
  | .ksInitXsalsa20 => Sys2Proof.Machine.execKsInitXsalsa20 s
  | .ksSeek => Sys2Proof.Machine.execKsSeek s
  | .ksStream => Sys2Proof.Machine.execKsStream s
  | .ksXor => Sys2Proof.Machine.execKsXor s
  | .ksWipe => Sys2Proof.Machine.execKsWipe s
  | .deriveXchacha20 => Sys2Proof.Machine.execDeriveXchacha20 s
  | .deriveXsalsa20 => Sys2Proof.Machine.execDeriveXsalsa20 s
  | .macInit => Sys2Proof.Machine.execMacInit s
  | .macWrite => Sys2Proof.Machine.execMacWrite s
  | .macSum => Sys2Proof.Machine.execMacSum s
  | .macVerify => Sys2Proof.Machine.execMacVerify s
  | .macWipe => Sys2Proof.Machine.execMacWipe s
  | .aeadSealChacha20 => Sys2Proof.Machine.execAeadSealChacha20 s
  | .aeadSealChacha20Ietf => Sys2Proof.Machine.execAeadSealChacha20Ietf s
  | .aeadSealXchacha20 => Sys2Proof.Machine.execAeadSealXchacha20 s
  | .aeadSealXsalsa20 => Sys2Proof.Machine.execAeadSealXsalsa20 s
  | .aeadSealDetChacha20 => Sys2Proof.Machine.execAeadSealDetChacha20 s
  | .aeadSealDetChacha20Ietf => Sys2Proof.Machine.execAeadSealDetChacha20Ietf s
  | .aeadSealDetXchacha20 => Sys2Proof.Machine.execAeadSealDetXchacha20 s
  | .aeadSealDetXsalsa20 => Sys2Proof.Machine.execAeadSealDetXsalsa20 s
  | .aeadOpenChacha20 => Sys2Proof.Machine.execAeadOpenChacha20 s
  | .aeadOpenChacha20Ietf => Sys2Proof.Machine.execAeadOpenChacha20Ietf s
  | .aeadOpenXchacha20 => Sys2Proof.Machine.execAeadOpenXchacha20 s
  | .aeadOpenXsalsa20 => Sys2Proof.Machine.execAeadOpenXsalsa20 s
  | .aeadOpenDetChacha20 => Sys2Proof.Machine.execAeadOpenDetChacha20 s
  | .aeadOpenDetChacha20Ietf => Sys2Proof.Machine.execAeadOpenDetChacha20Ietf s
  | .aeadOpenDetXchacha20 => Sys2Proof.Machine.execAeadOpenDetXchacha20 s
  | .aeadOpenDetXsalsa20 => Sys2Proof.Machine.execAeadOpenDetXsalsa20 s

end Sys2Proof.Machine
end

