-- ==== Sys2Proof/Machine/Flags.lean ====
section
/-! DEFINITION. `STATUS` (10_state.md rule R17): the codes of its two code fields (60_exceptions.md rules R203, R204) and the
word the host reads. The flags a command sets are set by `finish`, `raiseError` and `raiseFatal` (Machine/Ops.lean, rule R18)
and by the units' own operations. -/

namespace Sys2Proof.Machine

/-- The codes of rule R203. -/
def ErrCode.code : ErrCode → Byte
  | .ok => 0x00
  | .forgedOrCorrupted => 0x01
  | .cipherTooShort => 0x02
  | .bufferTooShort => 0x03
  | .invalidPoint => 0x04
  | .rejectedNonce => 0x05
  | .rejectedConst => 0x06
  | .illegalCmd => 0x07
  | .dmemRange => 0x08
  | .overlap => 0x09
  | .counterRange => 0x0A
  | .fatalMarker => 0xFF

/-- The codes of rule R204. -/
def FatalCode.code : FatalCode → Byte
  | .none => 0x00
  | .keyLength => 0x01
  | .nonceLength => 0x02
  | .ksNotKeyed => 0x03
  | .ctrExhausted => 0x04
  | .macKeyReuse => 0x05
  | .macSumBeforeWrite => 0x06

/-- Bits 7:0 of `STATUS`, bit 0 `FATAL` up to bit 6 `VOK`; bit 7 is reserved and 0. -/
def statusFlags (s : State) : Byte :=
  0#1 ++ BitVec.ofBool s.vok ++ BitVec.ofBool s.mac.consumed ++ BitVec.ofBool s.mac.written ++ BitVec.ofBool s.mac.keyed
    ++ BitVec.ofBool s.ks.wrap ++ BitVec.ofBool s.ks.keyed ++ BitVec.ofBool s.fatal

/-- `STATUS` (rule R17): flags in bits 7:0, `ERR` in 15:8, `FCODE` in 23:16, bits 31:24 reserved and 0. -/
def statusWord (s : State) : Word := 0#8 ++ s.fcode.code ++ s.err.code ++ statusFlags s

end Sys2Proof.Machine
end

