-- ==== Sys2Proof/Machine/HostPort.lean ====
section
/-! DEFINITION. The host interface (20_memory.md sections 1 and 2): the register map (30_encoding.md rule R61), the DMEM window
(rule R42), what a read returns and what a write does, in the fatal state too (60_exceptions.md rule R209). -/

namespace Sys2Proof.Machine

/-- What stands at an aligned offset of the host window (rule R61). Everything reserved, and every offset past the DMEM window
(rule R51), is `reserved`. -/
inductive Port where
  | id
  | cmd
  | status
  | reset
  | src
  | len
  | dst
  | dcap
  | ad
  | adlen
  | tag
  | klen
  | nlen
  | ctrLo
  | ctrHi
  | key (i : Fin 8)
  | nonce (i : Fin 6)
  | const (i : Fin 4)
  | dmem (a : Nat)
  | reserved
  deriving DecidableEq, Repr

/-- The offset of `CMD` (rule R61). -/
def cmdOffset : Nat := 0x004

/-- The offset of `RESET` (rule R61). -/
def resetOffset : Nat := 0x00C

/-- The named registers below `0x040` (rule R61). -/
def controlPorts : List (Nat × Port) :=
  [(0x000, .id), (cmdOffset, .cmd), (0x008, .status), (resetOffset, .reset), (0x010, .src), (0x014, .len), (0x018, .dst),
    (0x01C, .dcap), (0x020, .ad), (0x024, .adlen), (0x028, .tag), (0x02C, .klen), (0x030, .nlen), (0x034, .ctrLo),
    (0x038, .ctrHi)]

/-- The register map and the DMEM window (rules R61, R42), for an offset that is a multiple of 4. -/
def portAt (cfg : Config) (off : Nat) : Port :=
  if dmemBase ≤ off then
    (if off - dmemBase + 4 ≤ cfg.dmemBytes then .dmem (off - dmemBase) else .reserved)
  else
    match controlPorts.find? (fun p => p.1 == off) with
    | some p => p.2
    | none =>
      if h : 0x040 ≤ off ∧ (off - 0x040) / 4 < 8 then .key ⟨(off - 0x040) / 4, h.2⟩
      else if h : 0x060 ≤ off ∧ (off - 0x060) / 4 < 6 then .nonce ⟨(off - 0x060) / 4, h.2⟩
      else if h : 0x080 ≤ off ∧ (off - 0x080) / 4 < 4 then .const ⟨(off - 0x080) / 4, h.2⟩
      else .reserved

/-- What a 32-bit read of a port returns (rules R12, R13, R15 to R17, R23, R42, R51); reads have no side effect (rule R52)
and work in the fatal state as always (rule R209 (b)). -/
def readPort (p : Port) (s : State) : Word :=
  match p with
  | .id => idWord
  | .cmd => 0
  | .status => statusWord s
  | .reset => 0
  | .src => s.src
  | .len => s.len
  | .dst => s.dst
  | .dcap => s.dcap
  | .ad => s.ad
  | .adlen => s.adlen
  | .tag => s.tag
  | .klen => s.klen
  | .nlen => s.nlen
  | .ctrLo => s.ctrLo
  | .ctrHi => s.ctrHi
  | .key _ => 0
  | .nonce i => s.nonce[i]
  | .const i => s.const[i]
  | .dmem a => le32 (s.dmem.readBytes a 4)
  | .reserved => 0

/-- A write that stores its word and does nothing else (rules R12, R13, R42, R52); a write to a read-only or reserved port is
ignored (rule R51). `CMD` and `RESET` store nothing. -/
def storePort (p : Port) (v : Word) (s : State) : State :=
  match p with
  | .id => s
  | .cmd => s
  | .status => s
  | .reset => s
  | .src => { s with src := v }
  | .len => { s with len := v }
  | .dst => { s with dst := v }
  | .dcap => { s with dcap := v }
  | .ad => { s with ad := v }
  | .adlen => { s with adlen := v }
  | .tag => { s with tag := v }
  | .klen => { s with klen := v }
  | .nlen => { s with nlen := v }
  | .ctrLo => { s with ctrLo := v }
  | .ctrHi => { s with ctrHi := v }
  | .key i => { s with key := s.key.set i v }
  | .nonce i => { s with nonce := s.nonce.set i v }
  | .const i => { s with const := s.const.set i v }
  | .dmem a => writeAt a (toLe32 v) s
  | .reserved => s

/-- An illegal command word (rules R63, R68): `raise Error(ERR_ILLEGAL_CMD)`, "nothing else changes". -/
def illegalCommand (s : State) : Host.Outcome State Fault Refusal :=
  runCommand [⟨false, .error .illegalCmd⟩] id s

/-- A write of `w` to `CMD` (rules R16, R63): the command `w` decodes to, or an illegal word. In the fatal state either one is
ignored, by `runCommand`. -/
def writeCmd (w : Word) (s : State) : Host.Outcome State Fault Refusal :=
  match decode w with
  | .ok i => exec i s
  | .error _ => illegalCommand s

/-- A write of `v` to `RESET` (rules R23, R230): reset on the one value, in the fatal state too; any other value is ignored. -/
def writeReset (v : Word) (s : State) : State := if v = resetMagic then resetBlock s else s

/-- `HostWrite32` at a port. In the fatal state "every `HostWrite32` is ignored except a write of `0x52535421` to `RESET`"
(rule R209 (a)). -/
def writePort (p : Port) (v : Word) (s : State) : Host.Outcome State Fault Refusal :=
  match p with
  | .cmd => writeCmd v s
  | .reset => .next (writeReset v s)
  | p => if s.fatal then .next s else .next (storePort p v s)

/-- `HostRead32(off)`: the word, kept as the latest of the host's answers. -/
def hostRead (off : Nat) (s : State) : State :=
  { s with answers := readPort (portAt s.cfg off) s :: s.answers }

/-- One host transaction (rule R41). Misaligned accesses and accesses of another width do not exist on the interface and are
refused. -/
def transact (op : HostOp) (s : State) : Host.Outcome State Fault Refusal :=
  match op with
  | .read32 off => if off % 4 = 0 then .next (hostRead off s) else .refused (.misalignedAccess off)
  | .write32 off v =>
    if off % 4 = 0 then writePort (portAt s.cfg off) v s else .refused (.misalignedAccess off)
  | .reset => .next (resetBlock s)
  | .otherWidth off bytes => .refused (.otherWidthAccess off bytes)

/-- Taking the host's next transaction off the queue, and serving it. With none pending LGC does nothing: it "takes a step only
when the host writes `CMD` or `RESET` or asserts reset" (00_scope.md section 6). -/
def serveHost (s : State) : Host.Outcome State Fault Refusal :=
  match s.host with
  | [] => .next s
  | op :: rest => transact op { s with host := rest }

end Sys2Proof.Machine
end

