-- ==== Sys2Proof/Machine/Step.lean ====
section
/-! DEFINITION. One step: LGC serves the host's next transaction (20_memory.md rules R41, R47). LGC fetches no instructions
(10_state.md rule R11); a command reaches it as the data of a write to `CMD`. -/

namespace Sys2Proof.Machine

/-- One step (rule R47): the next pending host transaction, served whole. -/
def step (s : State) : Host.Outcome State Fault Refusal := serveHost s

/-- `s` with the command word `w` of `nbits` bits as the host's very next transaction: a write of it to `CMD`. A number that is
no 32-bit word is put there as an access of another width. -/
def State.withFetchWord (s : State) (nbits w : Nat) : State :=
  match tableWord nbits w with
  | some v => { s with host := .write32 cmdOffset v :: s.host }
  | none => { s with host := .otherWidth cmdOffset (nbits / 8) :: s.host }

end Sys2Proof.Machine
end

