-- ==== Sys2Proof/Machine/Script.lean ====
section
/-! DEFINITION. The host-script notation of 30_encoding.md rule R70: each line as the host transactions it stands for, and
serving a script. DESIGN CHOICE (log 19): an offset, a length or a counter half that does not fit its 32-bit register is written
mod 2^32; rule R70 does not say what such a line means. LGC itself has no program; a run is a list of host transactions
(10_state.md rule R11). -/

namespace Sys2Proof.Machine

/-- The host-window offset of a port (rule R61); for `reserved`, the first reserved offset. -/
def portOffset (p : Port) : Nat :=
  match p with
  | .id => 0x000
  | .cmd => cmdOffset
  | .status => 0x008
  | .reset => resetOffset
  | .src => 0x010
  | .len => 0x014
  | .dst => 0x018
  | .dcap => 0x01C
  | .ad => 0x020
  | .adlen => 0x024
  | .tag => 0x028
  | .klen => 0x02C
  | .nlen => 0x030
  | .ctrLo => 0x034
  | .ctrHi => 0x038
  | .key i => 0x040 + 4 * i.val
  | .nonce i => 0x060 + 4 * i.val
  | .const i => 0x080 + 4 * i.val
  | .dmem a => dmemBase + a
  | .reserved => 0x03C

/-- `WR <reg>, <value>` -/
def lineWr (p : Port) (v : Word) : List HostOp := [.write32 (portOffset p) v]

/-- `RD <reg>` -/
def lineRd (p : Port) : List HostOp := [.read32 (portOffset p)]

/-- `<MNEMONIC>` or `<MNEMONIC>.<ALGNAME>`: issue the command. -/
def lineCmd (i : Instr) : List HostOp := lineWr .cmd (encode i)

/-- `RESET` -/
def lineReset : List HostOp := lineWr .reset resetMagic

/-- `KEY <64 hex digits>`: the eight words, then `KLEN` 32. -/
def lineKey (k : List Byte) : List HostOp :=
  (List.finRange 8).flatMap (fun i => lineWr (.key i) (wordAt k i.val)) ++ lineWr .klen 32

/-- `NONCE <2n hex digits>`: the bytes padded with zeros to six words, then `NLEN` n, mod 2^32 (log 19); bytes past the
twenty-fourth are dropped. -/
def lineNonce (n : List Byte) : List HostOp :=
  (List.finRange 6).flatMap (fun i => lineWr (.nonce i) (wordAt n i.val)) ++ lineWr .nlen (BitVec.ofNat 32 n.length)

/-- `PUT <a>, <hex>`: word by word, the last word padded with zeros. -/
def linePut (a : Nat) (bs : List Byte) : List HostOp :=
  (List.range ((bs.length + 3) / 4)).flatMap (fun i => lineWr (.dmem (a + 4 * i)) (wordAt bs i))

/-- `GET <a>, <n>`: read every DMEM word that holds a byte of `a .. a+n-1`. -/
def lineGet (a n : Nat) : List HostOp :=
  if n = 0 then [] else (List.range ((a % 4 + n + 3) / 4)).flatMap (fun i => lineRd (.dmem (a - a % 4 + 4 * i)))

/-- The bytes a `GET <a>, <n>` names, from the words its reads returned. -/
def bytesOfGet (a n : Nat) (ws : List Word) : List Byte := ((bytesOfWords ws).drop (a % 4)).take n

/-- `SRC <a>, <n>`; both mod 2^32 (log 19). -/
def lineSrc (a n : Nat) : List HostOp := lineWr .src (BitVec.ofNat 32 a) ++ lineWr .len (BitVec.ofNat 32 n)

/-- `DST <a>, <n>`; both mod 2^32 (log 19). -/
def lineDst (a n : Nat) : List HostOp := lineWr .dst (BitVec.ofNat 32 a) ++ lineWr .dcap (BitVec.ofNat 32 n)

/-- `AD <a>, <n>`; both mod 2^32 (log 19). -/
def lineAd (a n : Nat) : List HostOp := lineWr .ad (BitVec.ofNat 32 a) ++ lineWr .adlen (BitVec.ofNat 32 n)

/-- `SEEK <c>`: `CTR_LO`, `CTR_HI`, then KS_SEEK. -/
def lineSeek (c : Nat) : List HostOp :=
  lineWr .ctrLo (BitVec.ofNat 32 (c % 2 ^ 32)) ++ lineWr .ctrHi (BitVec.ofNat 32 (c / 2 ^ 32)) ++ lineCmd .ksSeek

/-- The read of an `EXPECT` line. -/
def lineExpect : List HostOp := lineRd .status

/-- Serving transactions in the order issued, each complete before the next (20_memory.md rule R47). -/
def runScript : List HostOp → State → Host.Outcome State Fault Refusal
  | [], s => .next s
  | op :: ops, s =>
    match transact op s with
    | .next s' => runScript ops s'
    | .fault f => .fault f
    | .refused r => .refused r

/-- How many answers a script brings. -/
def readCount : List HostOp → Nat
  | [] => 0
  | .read32 _ :: ops => readCount ops + 1
  | .write32 _ _ :: ops => readCount ops
  | .reset :: ops => readCount ops
  | .otherWidth _ _ :: ops => readCount ops

/-- A script served to its end: the block after it, and the words its reads returned, in order. -/
def hostRun (ops : List HostOp) (s : State) : Option (State × List Word) :=
  match runScript ops s with
  | .next s' => some (s', (s'.answers.take (readCount ops)).reverse)
  | .fault _ => none
  | .refused _ => none

end Sys2Proof.Machine
end

