-- ==== Sys2Proof/Machine/SecretStream.lean ====
section
/-! DEFINITION. SecretStream (45_secretstream.md), the chunked protocol the host runs over LGC commands. It "adds no hardware
state, no opcode and no register": its record lives in the host (rule R175, 10_state.md rule R21), so it is no part of `State`.
First what the protocol computes (rules R175 to R186), then the command sequences that realise it on LGC. -/

namespace Sys2Proof.Machine

/-! ### State and computation -/

/-- `SS.PHASE` (rule R175). -/
inductive SsPhase where
  | uninitialized
  | ready
  | finalized
  deriving DecidableEq, Repr

/-- The SecretStream state (rule R175), one record per stream direction. -/
structure SsState where
  /-- `SS.K` -/
  k : Vector Byte 32
  /-- `SS.CTR` -/
  ctr : Word
  /-- `SS.INONCE` -/
  inonce : Vector Byte 8
  /-- `SS.EPOCH`, "it enters no computation" -/
  epoch : Nat
  /-- `SS.PHASE` -/
  phase : SsPhase
  deriving DecidableEq, Repr

/-- The record after `Wipe()` (rule R184). -/
def SsState.wiped : SsState where
  k := Vector.replicate 32 0
  ctr := 0
  inonce := Vector.replicate 8 0
  epoch := 0
  phase := .uninitialized

/-- Tag bytes (rule R176). -/
def ssTagMessage : Byte := 0x00

def ssTagPush : Byte := 0x01

def ssTagRekey : Byte := 0x02

def ssTagFinal : Byte := 0x03

/-- Why a SecretStream operation fails on the host's side. -/
inductive SsError where
  /-- Rule R183: Push or Pull outside phase Ready, "refused without touching LGC". -/
  | notReady
  /-- Rule R186: Push of a tag byte above 3. -/
  | badTag
  /-- Rule R177: the key is not 32 bytes, or the header not 24. -/
  | badLength
  /-- `ErrCipherTooShort` (rule R180). -/
  | cipherTooShort
  /-- `ErrForgedOrCorrupted` (rule R180). -/
  | forgedOrCorrupted
  /-- LGC reported another status (rule R185 (c), (d)). -/
  | lgcStatus (status : Word)
  /-- LGC refused a transaction: a `PUT` at an offset that is no multiple of 4 (rule R70). -/
  | refusedByLgc
  deriving DecidableEq, Repr

/-- The record after InitPush or InitPull, from the derived key and the header (rule R177). -/
def ssInitWith (sub header : List Byte) : SsState where
  k := vecOfList 32 0 sub
  ctr := 1
  inonce := vecOfList 8 0 ((header.drop 16).take 8)
  epoch := 0
  phase := .ready

/-- `SsNonce = to_le32(SS.CTR) ‖ SS.INONCE` (rule R178). -/
def ssNonce (ss : SsState) : List Byte := toLe32 ss.ctr ++ ss.inonce.toList

/-- The first two lines of `ChainUpdate(mac, t)` (rule R181): MAC bytes 0..7 into the inner nonce, and the counter. -/
def ssChain (mac : List Byte) (ss : SsState) : SsState :=
  { ss with inonce := vecOfList 8 0 (xorBytes ss.inonce.toList (mac.take 8)), ctr := ss.ctr + 1 }

/-- The last line of `ChainUpdate`: bit 1 of the tag byte, or the counter wrapped to 0 (rule R181). -/
def ssNeedsReKey (t : Byte) (ss : SsState) : Bool := decide (t &&& 0x02 ≠ 0) || decide (ss.ctr = 0)

/-- `ReKey()` from its 40 keystream bytes (rule R182). -/
def ssReKeyWith (stream : List Byte) (ss : SsState) : SsState :=
  { ss with
    k := vecOfList 32 0 (stream.take 32)
    inonce := vecOfList 8 0 (xorBytes ss.inonce.toList ((stream.drop 32).take 8))
    ctr := 1
    epoch := ss.epoch + 1 }

/-- The 40 keystream bytes of ReKey: ChaCha20-IETF under (`SS.K`, `SsNonce`), from block 0 (rule R182). -/
def ssReKeyStream (ss : SsState) : List Byte :=
  (consume 40 (ksLoad .chacha20Ietf (keyWords ss.k.toList) (ssNonce ss))).1

/-- `ChainUpdate(mac, t)` (rule R181). -/
def ssChainUpdate (mac : List Byte) (t : Byte) (ss : SsState) : SsState :=
  let ss := ssChain mac ss
  if ssNeedsReKey t ss then ssReKeyWith (ssReKeyStream ss) ss else ss

/-- A chunk with tag byte FINAL finalises the stream (rules R179, R180, R183). -/
def ssSettle (t : Byte) (ss : SsState) : SsState := if t = ssTagFinal then { ss with phase := .finalized } else ss

/-- What InitPush and InitPull compute (rule R177). -/
def ssInit (key header : List Byte) : Except SsError SsState :=
  if key.length = 32 ∧ header.length = 24 then .ok (ssInitWith (hchacha20 key (header.take 16) sigma) header)
  else .error .badLength

/-- What Push computes (rule R179): the chunk, and the record after it. `cfg` enters no IETF computation. -/
def ssPush (cfg : Config) (pt ad : List Byte) (t : Byte) (ss : SsState) : Except SsError (List Byte × SsState) :=
  if ss.phase ≠ .ready then .error .notReady
  else if 3 < t.toNat then .error .badTag
  else
    match aeadSealBytes cfg .chacha20Ietf (keyWords ss.k.toList) (ssNonce ss) ad (t :: pt) with
    | (c, mac) => .ok (c ++ mac, ssSettle t (ssChainUpdate mac t ss))

/-- What Pull computes (rule R180): the payload, its tag byte, and the record after it. -/
def ssPull (cfg : Config) (chunk ad : List Byte) (ss : SsState) : Except SsError ((List Byte × Byte) × SsState) :=
  if ss.phase ≠ .ready then .error .notReady
  else if chunk.length < 17 then .error .cipherTooShort
  else
    let n := chunk.length - 16
    match aeadOpenBytes cfg .chacha20Ietf (keyWords ss.k.toList) (ssNonce ss) ad (chunk.take n) (chunk.drop n) with
    | some (t :: pt) => .ok ((pt, t), ssSettle t (ssChainUpdate (chunk.drop n) t ss))
    | some [] => .error .forgedOrCorrupted
    | none => .error .forgedOrCorrupted

/-! ### On LGC -/

/-- Where the host places its buffers: the message `p`, the associated data `q`, the output `d`, the scratch region `a`. -/
structure SsLayout where
  msg : Nat
  ad : Nat
  out : Nat
  scratch : Nat
  deriving DecidableEq, Repr

/-- What an operation leaves: its result, the host's record and LGC. -/
structure SsRun (α : Type) where
  result : Except SsError α
  ss : SsState
  lgc : State

/-- The commands of InitPush and InitPull after the header is known (rule R177). -/
def ssInitScript (lay : SsLayout) (key header : List Byte) : List HostOp :=
  lineKey key ++ lineNonce header ++ lineDst lay.scratch 32 ++ lineCmd .deriveXchacha20 ++ lineExpect
    ++ lineGet lay.scratch 32 ++ lineCmd .bufWipe

/-- InitPush and InitPull on LGC (rule R177). DESIGN CHOICE (log 17): where LGC reports an error for DERIVE, the record stays as
it was, whatever its phase; rule R177 describes no failure. -/
def ssInitOn (lay : SsLayout) (key header : List Byte) (ss : SsState) (s : State) : SsRun Unit :=
  if key.length = 32 ∧ header.length = 24 then
    match hostRun (ssInitScript lay key header) s with
    | none => ⟨.error .refusedByLgc, ss, s⟩
    | some (s', status :: ws) =>
      if (status.extractLsb' 8 8).toNat = 0 then ⟨.ok (), ssInitWith (bytesOfGet lay.scratch 32 ws) header, s'⟩
      else ⟨.error (.lgcStatus status), ss, s'⟩
    | some (s', []) => ⟨.error .refusedByLgc, ss, s'⟩
  else ⟨.error .badLength, ss, s⟩

/-- Overwriting the staged key with zeros: `zero ks and the old key` of rule R182 on LGC, as rule R187 (d) asks that after ReKey
"no element of `SS` or of LGC equals or contains the old key". DEDUCED (log 20): the command sequence of rule R182 stops at
KS_WIPE, which keeps the staged key (40_securebuffer_wipe.md rule R85). -/
def lineZeroKey : List HostOp := (List.finRange 8).flatMap (fun i => lineWr (.key i) 0)

/-- The commands of ReKey (rule R182), then the zeroing of the staged key. -/
def ssReKeyScript (lay : SsLayout) (ss : SsState) : List HostOp :=
  lineKey ss.k.toList ++ lineNonce (ssNonce ss) ++ lineCmd .ksInitChacha20Ietf ++ lineDst lay.scratch 40
    ++ lineCmd .ksStream ++ lineExpect ++ lineGet lay.scratch 40 ++ lineCmd .bufWipe ++ lineCmd .ksWipe ++ lineZeroKey

/-- `ReKey()` on LGC (rule R182). DESIGN CHOICE (log 16): the record is unchanged where LGC reports an error; rule R182 describes
no failure. -/
def ssReKeyOn (lay : SsLayout) (ss : SsState) (s : State) : SsRun Unit :=
  match hostRun (ssReKeyScript lay ss) s with
  | none => ⟨.error .refusedByLgc, ss, s⟩
  | some (s', status :: ws) =>
    if (status.extractLsb' 8 8).toNat = 0 then ⟨.ok (), ssReKeyWith (bytesOfGet lay.scratch 40 ws) ss, s'⟩
    else ⟨.error (.lgcStatus status), ss, s'⟩
  | some (s', []) => ⟨.error .refusedByLgc, ss, s'⟩

/-- `ChainUpdate(mac, t)` on LGC (rule R181), then the phase. DESIGN CHOICE (log 16): where ReKey fails after the seal or open
succeeded, the operation answers ReKey's error and drops the finished chunk or plaintext, and the record stays chained (inner
nonce and counter moved on, the counter 0 where it wrapped) but not rekeyed, Finalized after FINAL; rules R181 to R185 say
nothing of it. -/
def ssChainUpdateOn (lay : SsLayout) (mac : List Byte) (t : Byte) (ss : SsState) (s : State) : SsRun Unit :=
  let ss := ssChain mac ss
  if ssNeedsReKey t ss then
    match ssReKeyOn lay ss s with
    | ⟨r, ss', s'⟩ => ⟨r, ssSettle t ss', s'⟩
  else ⟨.ok (), ssSettle t ss, s⟩

/-- The commands of Push (rule R179), with a read of `STATUS` before the chunk is fetched. -/
def ssPushScript (lay : SsLayout) (pt ad : List Byte) (t : Byte) (ss : SsState) : List HostOp :=
  lineKey ss.k.toList ++ lineNonce (ssNonce ss) ++ linePut lay.msg (t :: pt) ++ linePut lay.ad ad
    ++ lineSrc lay.msg (1 + pt.length) ++ lineAd lay.ad ad.length ++ lineDst lay.out (pt.length + 17)
    ++ lineCmd .aeadSealChacha20Ietf ++ lineExpect ++ lineGet lay.out (pt.length + 17)

/-- Push on LGC (rule R179). DESIGN CHOICE (log 21): where LGC refuses a `PUT` in the middle of the sequence, LGC is answered as it
was before the whole sequence, although its `KEY` and `NONCE` lines were already served; rule R179 says nothing of it. -/
def ssPushOn (lay : SsLayout) (pt ad : List Byte) (t : Byte) (ss : SsState) (s : State) : SsRun (List Byte) :=
  if ss.phase ≠ .ready then ⟨.error .notReady, ss, s⟩
  else if 3 < t.toNat then ⟨.error .badTag, ss, s⟩
  else
    match hostRun (ssPushScript lay pt ad t ss) s with
    | none => ⟨.error .refusedByLgc, ss, s⟩
    | some (s', status :: ws) =>
      if (status.extractLsb' 8 8).toNat = 0 then
        let chunk := bytesOfGet lay.out (pt.length + 17) ws
        match ssChainUpdateOn lay (chunk.drop (pt.length + 1)) t ss s' with
        | ⟨.ok (), ss'', s''⟩ => ⟨.ok chunk, ss'', s''⟩
        | ⟨.error e, ss'', s''⟩ => ⟨.error e, ss'', s''⟩
      else ⟨.error (.lgcStatus status), ss, s'⟩
    | some (s', []) => ⟨.error .refusedByLgc, ss, s'⟩

/-- The commands of Pull up to the `EXPECT VOK = 1` of rule R180. -/
def ssPullScript (lay : SsLayout) (chunk ad : List Byte) (ss : SsState) : List HostOp :=
  lineKey ss.k.toList ++ lineNonce (ssNonce ss) ++ linePut lay.msg chunk ++ linePut lay.ad ad
    ++ lineSrc lay.msg chunk.length ++ lineAd lay.ad ad.length ++ lineDst lay.out (chunk.length - 16)
    ++ lineCmd .aeadOpenChacha20Ietf ++ lineExpect

/-- Pull on LGC (rule R180): the plaintext is fetched only where `VOK` is 1, and the record is unchanged on failure. DESIGN CHOICE
(log 21): where LGC refuses a `PUT` in the middle of the sequence, LGC is answered as it was before the whole sequence, although
its `KEY` and `NONCE` lines were already served; rule R180 says nothing of it. -/
def ssPullOn (lay : SsLayout) (chunk ad : List Byte) (ss : SsState) (s : State) : SsRun (List Byte × Byte) :=
  if ss.phase ≠ .ready then ⟨.error .notReady, ss, s⟩
  else if chunk.length < 17 then ⟨.error .cipherTooShort, ss, s⟩
  else
    match hostRun (ssPullScript lay chunk ad ss) s with
    | none => ⟨.error .refusedByLgc, ss, s⟩
    | some (s', []) => ⟨.error .refusedByLgc, ss, s'⟩
    | some (s', status :: _) =>
      if status.getLsbD 6 then
        match hostRun (lineGet lay.out (chunk.length - 16)) s' with
        | none => ⟨.error .refusedByLgc, ss, s'⟩
        | some (s', ws) =>
          match bytesOfGet lay.out (chunk.length - 16) ws with
          | [] => ⟨.error .refusedByLgc, ss, s'⟩
          | t :: pt =>
            match ssChainUpdateOn lay (chunk.drop (chunk.length - 16)) t ss s' with
            | ⟨.ok (), ss'', s''⟩ => ⟨.ok (pt, t), ss'', s''⟩
            | ⟨.error e, ss'', s''⟩ => ⟨.error e, ss'', s''⟩
      else if (status.extractLsb' 8 8).toNat = 1 then ⟨.error .forgedOrCorrupted, ss, s'⟩
      else ⟨.error (.lgcStatus status), ss, s'⟩

/-- The commands of `Wipe()` (rule R184): WIPE_ALL, then BUF_WIPE of every region that held plaintext or keystream. DESIGN CHOICE
(log 18): which regions those are is the caller's argument, tied to no layout and to no earlier operation. -/
def ssWipeScript (regions : List Region) : List HostOp :=
  lineCmd .wipeAll ++ regions.flatMap (fun r => lineDst r.off r.len ++ lineCmd .bufWipe)

/-- `Wipe()` on LGC (rule R184). DESIGN CHOICE (log 18): `STATUS` is not read and the answer is ok, in the fatal state (where the
commands are ignored) and after a BUF_WIPE out of range too; rule R184 gives Wipe no failure report. -/
def ssWipeOn (regions : List Region) (s : State) : SsRun Unit :=
  match hostRun (ssWipeScript regions) s with
  | none => ⟨.error .refusedByLgc, SsState.wiped, s⟩
  | some (s', _) => ⟨.ok (), SsState.wiped, s'⟩

end Sys2Proof.Machine
end

