-- ==== Sys2Proof/Safety.lean ====
section
/-! DEFINITION. What the claims are stated in: the invariant of the machine's states (the invariants of 10_state.md rules R19, R22
and R26 and of 60_exceptions.md rules R203, R204, R208), the events each command can raise (rule R212), and what the units
compute, said apart from the machine's own byte-by-byte definitions (rules R20, R132, R133, R136). -/

namespace Sys2Proof.Machine

/-! ### The invariant -/

/-- The KS unit (rule R19): `0 <= KS.OFF <= 64`; unkeyed means wiped; an IETF counter is below 2^32; nonce bytes 8..11 are 0
except for IETF; and, by rule R97, `KS.WRAP` is set only with the counter back at 0. -/
abbrev KsState.Inv (ks : KsState) : Prop :=
  ks.off ≤ 64
    ∧ (ks.keyed = false → ks = KsState.wiped)
    ∧ (ks.alg = .chacha20Ietf → ks.ctr.toNat < 2 ^ 32)
    ∧ (ks.alg ≠ .chacha20Ietf → ks.nonce.toList.drop 8 = zeros 4)
    ∧ (ks.wrap = true → ks.ctr = 0)

/-- The MAC unit (rules R22, R130, R131, R139, R140): the accumulator canonical, at most 15 bytes buffered, `R` clamped,
unkeyed means wiped, and a spent key leaves nothing but the three flags. -/
abbrev MacState.Inv (m : MacState) : Prop :=
  m.h < polyP
    ∧ m.blen ≤ 15
    ∧ m.r &&& clampMask = m.r
    ∧ (m.keyed = false → m = MacState.wiped)
    ∧ (m.consumed = true →
        m = { MacState.wiped with keyed := true, written := true, consumed := true })

/-- The operand registers are all 0, as fatal entry leaves them (rule R208). -/
abbrev State.OperandsZero (s : State) : Prop :=
  s.src = 0 ∧ s.len = 0 ∧ s.dst = 0 ∧ s.dcap = 0 ∧ s.ad = 0 ∧ s.adlen = 0 ∧ s.tag = 0 ∧ s.klen = 0 ∧ s.nlen = 0
    ∧ s.ctrLo = 0 ∧ s.ctrHi = 0

/-- The result fields (rules R17, R18, R203, R204, R208): in the fatal state the marker, a code and nothing secret left; outside
it neither; `VOK` only with `ERR = 0`; the reserved code never. -/
abbrev State.ResultInv (s : State) : Prop :=
  (s.fatal = true →
      s.err = .fatalMarker ∧ s.vok = false ∧ s.fcode ≠ .none ∧ s.ks = KsState.wiped ∧ s.mac = MacState.wiped
        ∧ s.key = Vector.replicate 8 0 ∧ s.nonce = Vector.replicate 6 0 ∧ s.OperandsZero)
    ∧ (s.fatal = false → s.err ≠ .fatalMarker ∧ s.fcode = .none)
    ∧ (s.vok = true → s.err = .ok)
    ∧ s.err ≠ .invalidPoint

/-- The invariant of the machine: legal parameters (rule R6), DMEM in its canonical form and inside its bounds (rule R26), both
units and the result fields as above. -/
abbrev State.Inv (s : State) : Prop :=
  s.cfg.legal = true ∧ Memory.wf s.cfg.dmemBytes s.dmem = true ∧ s.ks.Inv ∧ s.mac.Inv ∧ s.ResultInv

/-! ### Frames -/

/-- The eleven operand registers and the staging file `CONST`, which no command writes (rules R12, R13). -/
abbrev State.SameOperands (s t : State) : Prop :=
  t.src = s.src ∧ t.len = s.len ∧ t.dst = s.dst ∧ t.dcap = s.dcap ∧ t.ad = s.ad ∧ t.adlen = s.adlen ∧ t.tag = s.tag
    ∧ t.klen = s.klen ∧ t.nlen = s.nlen ∧ t.ctrLo = s.ctrLo ∧ t.ctrHi = s.ctrHi ∧ t.const = s.const

/-- The byte at DMEM offset `a`. -/
def byteAt (s : State) (a : Nat) : Byte := s.dmem.read a

/-- `DMEM[a .. a+len(v))` is `v`, and every other byte of DMEM is as it was in `s`. -/
abbrev WritesExactly (s t : State) (a : Nat) (v : List Byte) : Prop :=
  (∀ i, i < v.length → byteAt t (a + i) = v.getD i 0)
    ∧ (∀ b, (b < a ∨ a + v.length ≤ b) → byteAt t b = byteAt s b)

/-- Region `(a, n)` is in range (20_memory.md rule R44). -/
abbrev Fits (s : State) (a n : Nat) : Prop := n = 0 ∨ a + n ≤ s.cfg.dmemBytes

/-- Regions `(a, n)` and `(b, m)` share no byte (rule R45). -/
abbrev Apart (a n b m : Nat) : Prop := n = 0 ∨ m = 0 ∨ a + n ≤ b ∨ b + m ≤ a

/-- DMEM in its canonical form, inside its bounds. -/
abbrev State.MemOk (s : State) : Prop := Memory.wf s.cfg.dmemBytes s.dmem = true

/-! ### Events (rule R212) -/

/-- The table of rule R212: the events a command can raise, in check order. -/
def eventsOf (i : Instr) : List Event :=
  match i with
  | .nop | .wipeAll | .ksWipe | .macWipe => []
  | .bufWipe => [.error .dmemRange]
  | .ksInitChacha20 | .ksInitChacha20Ietf | .ksInitXchacha20 | .ksInitSalsa20 | .ksInitXsalsa20 =>
    [.fatal .keyLength, .fatal .nonceLength]
  | .ksSeek => [.fatal .ksNotKeyed, .error .counterRange]
  | .ksStream => [.fatal .ksNotKeyed, .error .dmemRange, .fatal .ctrExhausted]
  | .ksXor =>
    [.fatal .ksNotKeyed, .error .bufferTooShort, .error .dmemRange, .error .overlap, .fatal .ctrExhausted]
  | .deriveXchacha20 | .deriveXsalsa20 =>
    [.fatal .keyLength, .error .rejectedNonce, .error .rejectedConst, .error .bufferTooShort, .error .dmemRange]
  | .macInit => [.fatal .keyLength]
  | .macWrite => [.fatal .macKeyReuse, .error .dmemRange]
  | .macSum => [.fatal .macKeyReuse, .fatal .macSumBeforeWrite, .error .bufferTooShort, .error .dmemRange]
  | .macVerify => [.fatal .macKeyReuse, .fatal .macSumBeforeWrite, .error .dmemRange]
  | .aeadSealChacha20 | .aeadSealChacha20Ietf | .aeadSealXchacha20 | .aeadSealXsalsa20
  | .aeadSealDetChacha20 | .aeadSealDetChacha20Ietf | .aeadSealDetXchacha20 | .aeadSealDetXsalsa20 =>
    [.fatal .keyLength, .fatal .nonceLength, .error .bufferTooShort, .error .dmemRange, .error .overlap]
  | .aeadOpenChacha20 | .aeadOpenChacha20Ietf | .aeadOpenXchacha20 | .aeadOpenXsalsa20 =>
    [.fatal .keyLength, .fatal .nonceLength, .error .cipherTooShort, .error .bufferTooShort, .error .dmemRange,
      .error .overlap, .error .forgedOrCorrupted]
  | .aeadOpenDetChacha20 | .aeadOpenDetChacha20Ietf | .aeadOpenDetXchacha20 | .aeadOpenDetXsalsa20 =>
    [.fatal .keyLength, .fatal .nonceLength, .error .bufferTooShort, .error .dmemRange, .error .overlap,
      .error .forgedOrCorrupted]

/-! ### What the units compute -/

/-- Block `c` of the stream a unit holds (rule R96). -/
def blockOf (ks : KsState) (c : Nat) : List Byte := ksBlock { ks with ctr := BitVec.ofNat 64 c }

/-- Byte `n` of the stream from block `c` (rule R20): byte `n mod 64` of block `c + (n div 64)`. -/
def streamByte (ks : KsState) (c n : Nat) : Byte := (blockOf ks (c + n / 64)).getD (n % 64) 0

/-- The first `n` bytes of the stream from block `c`. -/
def streamBytes (ks : KsState) (c n : Nat) : List Byte := (List.range n).map (streamByte ks c)

/-- Block `i`, 16 bytes, of a message. -/
def polyBlockAt (m : List Byte) (i : Nat) : List Byte := (m.drop (16 * i)).take 16

/-- The accumulator after the first `q` full blocks of `m` (rule R132). -/
def polyFull (r : Nat) (m : List Byte) : Nat → Nat
  | 0 => 0
  | q + 1 => (polyFull r m q + lenum (polyBlockAt m q) + 2 ^ 128) * r % (2 ^ 130 - 5)

/-- Poly1305 of a whole message (rules R132, R133, R136): its full blocks, then its partial block if there is one, then `s`. -/
def poly1305 (r s : Nat) (m : List Byte) : List Byte :=
  let h := polyFull r m (m.length / 16)
  let h :=
    if m.length % 16 = 0 then h
    else (h + lenum (m.drop (16 * (m.length / 16))) + 2 ^ (8 * (m.length % 16))) * r % (2 ^ 130 - 5)
  toLe 16 ((h + s) % 2 ^ 128)

/-- A MAC unit keyed with `r` and `s` that has been given exactly the bytes `msg` since (rules R135, R137). -/
abbrev MacHolds (m : MacState) (r s : BitVec 128) (msg : List Byte) : Prop :=
  m.r = r ∧ m.s = s ∧ m.h = polyFull r.toNat msg (msg.length / 16) ∧ m.blen = msg.length % 16
    ∧ m.buf.toList.take m.blen = msg.drop (16 * (msg.length / 16))

/-- The unit `ks` is the stream of `base` (its variant, key and nonce) after `n` bytes from block `c` (rules R97, R100 (b), (c)):
`c + ceil(n / 64)` blocks have been passed, a partly used block is buffered, and past the last counter value `KS.WRAP` is set. DESIGN CHOICE
(log 6): the buffer is the whole block, the consumed bytes below `KS.OFF` too. -/
abbrev KsAt (base ks : KsState) (c n : Nat) : Prop :=
  ks.keyed = base.keyed ∧ ks.alg = base.alg ∧ ks.key = base.key ∧ ks.nonce = base.nonce
    ∧ c < base.alg.ctrMax
    ∧ ((c + (n + 63) / 64 < base.alg.ctrMax ∧ ks.ctr.toNat = c + (n + 63) / 64 ∧ ks.wrap = false)
        ∨ (c + (n + 63) / 64 = base.alg.ctrMax ∧ ks.ctr = 0 ∧ ks.wrap = true))
    ∧ ((n % 64 = 0 ∧ ks.off = 64) ∨ (n % 64 ≠ 0 ∧ ks.off = n % 64 ∧ ks.buf.toList = blockOf base (c + n / 64)))

/-- The AEAD tag (rules R153, R155 to R157): Poly1305 of the MAC input under the first 32 bytes of block 0. -/
def aeadTagOf (cfg : Config) (alg : Alg) (key : Vector Word 8) (nonceBs ad ct : List Byte) : List Byte :=
  let otk := (blockOf (ksLoad alg key nonceBs) 0).take 32
  poly1305 (BitVec.ofNat 128 (lenum (otk.take 16)) &&& clampMask).toNat (lenum (otk.drop 16))
    (aeadMacInput cfg alg ad ct)

/-- The AEAD cipher (rule R154): exclusive or with the stream from block 1. -/
def aeadCipherOf (alg : Alg) (key : Vector Word 8) (nonceBs x : List Byte) : List Byte :=
  xorBytes x (streamBytes (ksLoad alg key nonceBs) 1 x.length)

/-- The four AEAD constructions (30_encoding.md rules R66, R67) with their nonce lengths, and the constructors of their seal,
detached seal, open and detached open commands. -/
def aeadForms : List (Alg × Nat × Instr × Instr × Instr × Instr) :=
  [ (.chacha20, 8, .aeadSealChacha20, .aeadSealDetChacha20, .aeadOpenChacha20, .aeadOpenDetChacha20),
    (.chacha20Ietf, 12, .aeadSealChacha20Ietf, .aeadSealDetChacha20Ietf, .aeadOpenChacha20Ietf, .aeadOpenDetChacha20Ietf),
    (.xchacha20, 24, .aeadSealXchacha20, .aeadSealDetXchacha20, .aeadOpenXchacha20, .aeadOpenDetXchacha20),
    (.xsalsa20, 24, .aeadSealXsalsa20, .aeadSealDetXsalsa20, .aeadOpenXsalsa20, .aeadOpenDetXsalsa20) ]

/-- A layout of the host's buffers on which a SecretStream operation with an input of `n` bytes, `m` bytes of associated data and
an output of `k` bytes meets no sizing error: what is `PUT` stands at word offsets and inside DMEM, the words of the associated
data off the message, the output on the message's own start or apart from it (20_memory.md rule R45) and apart from the
associated data, and 40 bytes of scratch. -/
abbrev SsLayout.Sound (lay : SsLayout) (s : State) (n m k : Nat) : Prop :=
  lay.msg % 4 = 0 ∧ lay.msg + n ≤ s.cfg.dmemBytes
    ∧ (m = 0 ∨ lay.ad % 4 = 0 ∧ lay.ad + m ≤ s.cfg.dmemBytes)
    ∧ Apart lay.msg n lay.ad (4 * ((m + 3) / 4))
    ∧ lay.out + k ≤ s.cfg.dmemBytes ∧ (lay.msg = lay.out ∨ Apart lay.msg n lay.out k) ∧ Apart lay.ad m lay.out k
    ∧ lay.scratch + 40 ≤ s.cfg.dmemBytes

/-- The state an admitted AEAD command leaves apart from DMEM and the result fields (rule R152): both units wiped. -/
abbrev State.UnitsWiped (s : State) : State := { s with ks := KsState.wiped, mac := MacState.wiped }

end Sys2Proof.Machine
end

