-- ==== Sys2Proof/Certificates/Slice0/Obligations.lean ====
section
/-! DEFINITION. The statements for the provers. -/

open Sys2Proof
open Sys2Proof.Machine

/-! ### Encoding -/

/-- R63, R71 both ways: a word decodes to a command exactly when it is that command's word. -/
def Obligations.CommandDecodesExactlyFromItsWord : Prop :=
  ∀ (w : Word) (i : Instr), decode w = .ok i ↔ w = encode i

/-- R71: words of the table of 30_encoding.md section 5, one or more of each unit. -/
def Obligations.TableWordsDecodeToTheirCommands : Prop :=
  decode 0x00000000 = .ok .nop ∧ decode 0x00000002 = .ok .wipeAll ∧ decode 0x00000110 = .ok .ksInitChacha20Ietf
    ∧ decode 0x00000013 = .ok .ksXor ∧ decode 0x00000420 = .ok .deriveXsalsa20 ∧ decode 0x00000033 = .ok .macVerify
    ∧ decode 0x00000441 = .ok .aeadSealDetXsalsa20 ∧ decode 0x00000242 = .ok .aeadOpenXchacha20

/-- R63: outside the fatal state a `CMD` write of a word with `ZERO` not 0, an unknown opcode or an ALG code outside the
opcode's set is `ERR_ILLEGAL_CMD` and changes nothing else; any other word is executed as the command of that word. -/
def Obligations.CmdWriteExecutesLegalWordsAndReportsIllegalOnes : Prop :=
  ∀ (s : State) (w : Word) (rest : List HostOp), s.fatal = false → s.host = .write32 0x004 w :: rest →
    let op := w.toNat % 256
    let alg := w.toNat / 256 % 16
    let legal : Prop :=
      w.toNat / 4096 = 0
        ∧ ((op ∈ [0x00, 0x01, 0x02, 0x11, 0x12, 0x13, 0x14, 0x30, 0x31, 0x32, 0x33, 0x34] ∧ alg = 0)
          ∨ (op = 0x10 ∧ alg ∈ [0, 1, 2, 3, 4])
          ∨ (op = 0x20 ∧ alg ∈ [2, 4])
          ∨ (op ∈ [0x40, 0x41, 0x42, 0x43] ∧ alg ∈ [0, 1, 2, 4]))
    (¬ legal → step s = .next { s with host := rest, err := .illegalCmd, vok := false })
      ∧ (legal → ∃ i, w = encode i ∧ step s = exec i { s with host := rest })

/-! ### Steps and the host interface -/

/-- R16, R47: when the next transaction writes to `CMD` a word that decodes to `i`, the step is `exec i`, the transaction
taken off the queue first; LGC has no program counter to move. -/
def Obligations.StepRunsTheDecodedCommand : Prop :=
  ∀ (s : State) (w : Word) (rest : List HostOp) (i : Instr),
    s.host = .write32 0x004 w :: rest → decode w = .ok i → step s = exec i { s with host := rest }

/-- R47: transactions are served whole and in the order issued: the machine's steps over a queue are the transactions one
after another, and what stands behind them in the queue is untouched. -/
def Obligations.QueuedTransactionsAreServedInOrder : Prop :=
  ∀ (ops rest : List HostOp) (s t : State), runScript ops s = .next t →
    Sys2Proof.core.run ops.length { s with host := ops ++ rest } = .next { t with host := rest }

/-- Every command ends in a next state, and a step stops only on an access that R41 reports does not exist. The model's choice: that
no command stops is log 7 (DEDUCED, from R205 to R209 and 00_scope.md section 6), the two named refusals are log 4 and the idle
step on an empty queue is log 2 (DESIGN CHOICE). -/
def Obligations.OnlyImpossibleAccessesStopTheMachine : Prop :=
  (∀ (i : Instr) (s : State), ∃ t, exec i s = .next t)
    ∧ ∀ s : State, (∃ t, step s = .next t)
        ∨ (∃ off rest, s.host = .read32 off :: rest ∧ off % 4 ≠ 0 ∧ step s = .refused (.misalignedAccess off))
        ∨ (∃ off v rest, s.host = .write32 off v :: rest ∧ off % 4 ≠ 0 ∧ step s = .refused (.misalignedAccess off))
        ∨ (∃ off n rest, s.host = .otherWidth off n :: rest ∧ step s = .refused (.otherWidthAccess off n))

/-- R12, R13, R52, R61: outside the fatal state a write to an operand or staging register stores the word and does nothing
else. -/
def Obligations.RegisterWritesStoreTheirWord : Prop :=
  ∀ (s : State) (v : Word) (rest : List HostOp), s.fatal = false →
    let w : Nat → Host.Outcome State Fault Refusal := fun off => step { s with host := .write32 off v :: rest }
    w 0x010 = .next { s with host := rest, src := v } ∧ w 0x014 = .next { s with host := rest, len := v }
      ∧ w 0x018 = .next { s with host := rest, dst := v } ∧ w 0x01C = .next { s with host := rest, dcap := v }
      ∧ w 0x020 = .next { s with host := rest, ad := v } ∧ w 0x024 = .next { s with host := rest, adlen := v }
      ∧ w 0x028 = .next { s with host := rest, tag := v } ∧ w 0x02C = .next { s with host := rest, klen := v }
      ∧ w 0x030 = .next { s with host := rest, nlen := v } ∧ w 0x034 = .next { s with host := rest, ctrLo := v }
      ∧ w 0x038 = .next { s with host := rest, ctrHi := v }
      ∧ (∀ i : Fin 8, w (0x040 + 4 * i.val) = .next { s with host := rest, key := s.key.set i v })
      ∧ (∀ i : Fin 6, w (0x060 + 4 * i.val) = .next { s with host := rest, nonce := s.nonce.set i v })
      ∧ (∀ i : Fin 4, w (0x080 + 4 * i.val) = .next { s with host := rest, const := s.const.set i v })

/-- R12, R13, R15 to R17, R23, R52, R61, R209 (b): what the host reads at each offset of the register page, in every state,
the fatal one too; a read changes nothing but the host's list of answers. -/
def Obligations.RegisterReadsReturnTheMap : Prop :=
  ∀ (s : State) (rest : List HostOp),
    let r : Nat → Word → Prop := fun off v =>
      step { s with host := .read32 off :: rest } = .next { s with host := rest, answers := v :: s.answers }
    r 0x000 0x4C474331 ∧ r 0x004 0 ∧ r 0x008 (statusWord s) ∧ r 0x00C 0
      ∧ r 0x010 s.src ∧ r 0x014 s.len ∧ r 0x018 s.dst ∧ r 0x01C s.dcap ∧ r 0x020 s.ad ∧ r 0x024 s.adlen
      ∧ r 0x028 s.tag ∧ r 0x02C s.klen ∧ r 0x030 s.nlen ∧ r 0x034 s.ctrLo ∧ r 0x038 s.ctrHi
      ∧ (∀ i : Fin 8, r (0x040 + 4 * i.val) 0) ∧ (∀ i : Fin 6, r (0x060 + 4 * i.val) s.nonce[i])
      ∧ (∀ i : Fin 4, r (0x080 + 4 * i.val) s.const[i])

/-- R17 with the codes of R203 and R204: the fields of `STATUS`, its reserved bits 0. -/
def Obligations.StatusWordHasTheLayoutOfR17 : Prop :=
  ∀ s : State,
    let w := statusWord s
    w.getLsbD 0 = s.fatal ∧ w.getLsbD 1 = s.ks.keyed ∧ w.getLsbD 2 = s.ks.wrap ∧ w.getLsbD 3 = s.mac.keyed
      ∧ w.getLsbD 4 = s.mac.written ∧ w.getLsbD 5 = s.mac.consumed ∧ w.getLsbD 6 = s.vok ∧ w.getLsbD 7 = false
      ∧ w.toNat / 2 ^ 8 % 256 =
        (match s.err with
          | .ok => 0x00
          | .forgedOrCorrupted => 0x01
          | .cipherTooShort => 0x02
          | .bufferTooShort => 0x03
          | .invalidPoint => 0x04
          | .rejectedNonce => 0x05
          | .rejectedConst => 0x06
          | .illegalCmd => 0x07
          | .dmemRange => 0x08
          | .overlap => 0x09
          | .counterRange => 0x0A
          | .fatalMarker => 0xFF)
      ∧ w.toNat / 2 ^ 16 % 256 =
        (match s.fcode with
          | .none => 0x00
          | .keyLength => 0x01
          | .nonceLength => 0x02
          | .ksNotKeyed => 0x03
          | .ctrExhausted => 0x04
          | .macKeyReuse => 0x05
          | .macSumBeforeWrite => 0x06)
      ∧ w.toNat / 2 ^ 24 = 0

/-- R13, R20, R22, R215: no host read depends on `KEY`, on the KS unit but for its two flags, or on the MAC unit but for its
three flags. -/
def Obligations.HostReadsDoNotDependOnSecrets : Prop :=
  ∀ (s : State) (key : Vector Word 8) (ks : KsState) (mac : MacState) (off : Nat) (rest : List HostOp),
    ks.keyed = s.ks.keyed → ks.wrap = s.ks.wrap → mac.keyed = s.mac.keyed → mac.written = s.mac.written →
    mac.consumed = s.mac.consumed → off % 4 = 0 →
    ∃ v, step { s with host := .read32 off :: rest } = .next { s with host := rest, answers := v :: s.answers }
      ∧ step { s with host := .read32 off :: rest, key := key, ks := ks, mac := mac }
          = .next { s with host := rest, key := key, ks := ks, mac := mac, answers := v :: s.answers }

/-- R42: the DMEM window. A read returns the four bytes, least significant first, in every state; a write stores them outside
the fatal state and is ignored in it. -/
def Obligations.DmemWindowReadsAndWritesFourBytes : Prop :=
  ∀ (s : State) (a : Nat) (v : Word) (rest : List HostOp), s.MemOk → a % 4 = 0 → a + 4 ≤ s.cfg.dmemBytes →
    step { s with host := .read32 (0x1000 + a) :: rest }
        = .next
          { s with
            host := rest
            answers :=
              BitVec.ofNat 32
                ((byteAt s a).toNat + 2 ^ 8 * (byteAt s (a + 1)).toNat + 2 ^ 16 * (byteAt s (a + 2)).toNat
                  + 2 ^ 24 * (byteAt s (a + 3)).toNat)
                :: s.answers }
      ∧ (s.fatal = true → step { s with host := .write32 (0x1000 + a) v :: rest } = .next { s with host := rest })
      ∧ (s.fatal = false →
          ∃ t, step { s with host := .write32 (0x1000 + a) v :: rest } = .next t
            ∧ t = { s with host := rest, dmem := t.dmem }
            ∧ WritesExactly s t a
                [v.extractLsb' 0 8, v.extractLsb' 8 8, v.extractLsb' 16 8, v.extractLsb' 24 8])

/-- R51: reads of reserved and write-only offsets and past the DMEM window return 0; writes to reserved and read-only offsets
and past the window are ignored; neither changes anything else. -/
def Obligations.UnmappedAccessesReadZeroAndIgnoreWrites : Prop :=
  ∀ (s : State) (off : Nat) (v : Word) (rest : List HostOp), off % 4 = 0 →
    let reserved : Prop :=
      off = 0x03C ∨ off = 0x078 ∨ off = 0x07C ∨ (0x090 ≤ off ∧ off ≤ 0xFFC) ∨ 0x1000 + s.cfg.dmemBytes ≤ off
    let writeOnly : Prop := off = 0x004 ∨ off = 0x00C ∨ (0x040 ≤ off ∧ off ≤ 0x05C)
    let readOnly : Prop := off = 0x000 ∨ off = 0x008
    (reserved ∨ writeOnly →
        step { s with host := .read32 off :: rest } = .next { s with host := rest, answers := 0 :: s.answers })
      ∧ (reserved ∨ readOnly → step { s with host := .write32 off v :: rest } = .next { s with host := rest })

/-! ### Reset and the fatal state -/

/-- R230, R231, R27, R23: the reset input and a write of `0x52535421` to `RESET` give every element of LGC its reset value, in every
state, and `ID` and `STATUS` read as after reset; a write of any other value to `RESET` is ignored, in every state. The model's
choice, log 8 (DEDUCED): the parameters, the host's pending transactions and the answers it has had are not LGC's and stay. -/
def Obligations.ResetGivesEveryElementItsResetValue : Prop :=
  ∀ (s : State) (rest : List HostOp),
    let t : State :=
      { cfg := s.cfg
        src := 0, len := 0, dst := 0, dcap := 0, ad := 0, adlen := 0, tag := 0, klen := 0, nlen := 0, ctrLo := 0, ctrHi := 0
        key := #v[0, 0, 0, 0, 0, 0, 0, 0]
        nonce := #v[0, 0, 0, 0, 0, 0]
        const := #v[0x61707865, 0x3320646e, 0x79622d32, 0x6b206574]
        ks :=
          { keyed := false, alg := .chacha20, key := #v[0, 0, 0, 0, 0, 0, 0, 0], nonce := Vector.replicate 12 0, ctr := 0
            wrap := false, buf := Vector.replicate 64 0, off := 64 }
        mac :=
          { keyed := false, written := false, consumed := false, r := 0, s := 0, h := 0, buf := Vector.replicate 16 0
            blen := 0 }
        err := .ok, vok := false, fatal := false, fcode := .none
        dmem := []
        host := rest
        answers := s.answers }
    step { s with host := .reset :: rest } = .next t
      ∧ step { s with host := .write32 0x00C 0x52535421 :: rest } = .next t
      ∧ statusWord t = 0x00000000 ∧ (∀ a, byteAt t a = 0)
      ∧ (∀ more, step { t with host := .read32 0x000 :: more }
          = .next { t with host := more, answers := 0x4C474331 :: s.answers })
      ∧ ∀ v : Word, v ≠ 0x52535421 → step { s with host := .write32 0x00C v :: rest } = .next { s with host := rest }

/-- R209 (a), R16, R23: in the fatal state every write but the reset value to `RESET` is ignored, whatever its offset and, for
`CMD`, whatever its word. -/
def Obligations.FatalStateIgnoresEveryWriteButReset : Prop :=
  ∀ (s : State) (off : Nat) (v : Word) (rest : List HostOp), s.fatal = true → off % 4 = 0 →
    ¬ (off = 0x00C ∧ v = 0x52535421) →
    step { s with host := .write32 off v :: rest } = .next { s with host := rest }

/-- R209 (c), R230: a step from the fatal state stays in it with its code, its registers, its units and DMEM as they were,
unless it serves the reset input or the reset value at `RESET`; then every element of LGC takes its reset value (R231, R27). The
model's choice, log 8 (DEDUCED): across that reset the parameters, the host's other pending transactions and the answers it has
had are not LGC's and stay. -/
def Obligations.OnlyResetLeavesTheFatalState : Prop :=
  ∀ s t : State, s.fatal = true → step s = .next t →
    t = { s with host := t.host, answers := t.answers }
      ∨ ∃ rest, (s.host = .reset :: rest ∨ s.host = .write32 0x00C 0x52535421 :: rest)
          ∧ t = { State.resetWith s.cfg with host := rest, answers := s.answers }

/-- R208: whenever a command enters the fatal state, the result fields, both units, `KEY`, `NONCE` and the operand registers
are as R208 reports, `STATUS` is `0x0000FF01 + 2^16 * fcode`, and everything else, `CONST` and DMEM among it, is unchanged. -/
def Obligations.FatalEntryZeroesSecretsAndKeepsMemory : Prop :=
  ∀ (i : Instr) (s t : State), s.fatal = false → exec i s = .next t → t.fatal = true →
    t.fcode ≠ .none
      ∧ t = { s with
          fatal := true, fcode := t.fcode, err := .fatalMarker, vok := false
          ks := KsState.wiped, mac := MacState.wiped
          key := Vector.replicate 8 0, nonce := Vector.replicate 6 0
          src := 0, len := 0, dst := 0, dcap := 0, ad := 0, adlen := 0, tag := 0, klen := 0, nlen := 0, ctrLo := 0, ctrHi := 0 }
      ∧ (statusWord t).toNat = 0x0000FF01 + 2 ^ 16 * t.fcode.code.toNat

/-- R206: a command that ends in an error code other than `0x01` changes nothing but `ERR` and `VOK`. -/
def Obligations.NonFatalErrorsChangeOnlyErrAndVok : Prop :=
  ∀ (i : Instr) (s t : State), s.fatal = false → exec i s = .next t → t.fatal = false → t.err ≠ .ok →
    t.err ≠ .forgedOrCorrupted → t = { s with err := t.err, vok := false }

/-- R207, R152: after `ERR_FORGED_OR_CORRUPTED` both units are wiped and nothing else but `ERR` and `VOK` has changed, DMEM
above all; and only the open commands report it. -/
def Obligations.ForgeryChangesNothingButTheUnits : Prop :=
  ∀ (i : Instr) (s t : State), s.fatal = false → exec i s = .next t → t.err = .forgedOrCorrupted →
    t = { s with ks := KsState.wiped, mac := MacState.wiped, err := .forgedOrCorrupted, vok := false }
      ∧ ∃ f ∈ aeadForms, i = f.2.2.2.2.1 ∨ i = f.2.2.2.2.2

/-- R212: a command ends `OK` or in one of the events the table gives it. -/
def Obligations.CommandsRaiseOnlyTheEventsOfTheTable : Prop :=
  ∀ (i : Instr) (s t : State), s.fatal = false → exec i s = .next t →
    (t.err = .ok ∧ t.fatal = false)
      ∨ (Event.error t.err ∈ eventsOf i ∧ t.fatal = false)
      ∨ (Event.fatal t.fcode ∈ eventsOf i ∧ t.fatal = true)

/-- R18: `VOK` is 1 after a command only if the command is MAC_VERIFY or an open command and ended `OK`. -/
def Obligations.VokIsSetOnlyByVerifyAndOpen : Prop :=
  ∀ (i : Instr) (s t : State), s.fatal = false → exec i s = .next t → t.vok = true →
    t.err = .ok ∧ (i = .macVerify ∨ ∃ f ∈ aeadForms, i = f.2.2.2.2.1 ∨ i = f.2.2.2.2.2)

/-! ### Invariants and whole-machine frames -/

/-- The reset state, for every legal choice of the parameters, meets the invariant. -/
def Obligations.ResetStateMeetsTheInvariant : Prop :=
  State.reset.Inv ∧ ∀ cfg : Config, cfg.legal = true → (State.resetWith cfg).Inv

/-- R19, R22, R26, R203, R204, R208: every step keeps the invariant. -/
def Obligations.EveryStepKeepsTheInvariant : Prop :=
  ∀ s t : State, s.Inv → step s = .next t → t.Inv

/-- R12, R13: unless it enters the fatal state, no command writes an operand register or `CONST`; `KEY` and `NONCE` are written
by WIPE_ALL alone. The model's choice, log 1, log 2 and log 3 (DESIGN CHOICE; R6 and R21 call none of them state of LGC): no
command touches the parameters or the host's side. -/
def Obligations.CommandsLeaveOperandAndStagingRegisters : Prop :=
  ∀ (i : Instr) (s t : State), exec i s = .next t → (t.fatal = false ∨ s.fatal = true) →
    s.SameOperands t ∧ (i ≠ .wipeAll → t.key = s.key ∧ t.nonce = s.nonce) ∧ t.cfg = s.cfg ∧ t.host = s.host
      ∧ t.answers = s.answers

/-- R144: the MAC unit's life cycle, seen through its three flags. A command that ends without an event moves them as the cycle
reports; a MAC_WRITE, MAC_SUM or MAC_VERIFY in the wrong phase is fatal. -/
def Obligations.MacFlagsFollowTheLifeCycle : Prop :=
  ∀ (i : Instr) (s t : State), s.fatal = false → exec i s = .next t →
    (i ∈ [.macWrite, .macSum, .macVerify] → (s.mac.keyed = false ∨ s.mac.consumed = true) →
        t.fatal = true ∧ t.fcode = .macKeyReuse)
      ∧ (i ∈ [.macSum, .macVerify] → s.mac.keyed = true → s.mac.consumed = false → s.mac.written = false →
        t.fatal = true ∧ t.fcode = .macSumBeforeWrite)
      ∧ (t.fatal = false → (t.err = .ok ∨ t.err = .forgedOrCorrupted) →
        (t.mac.keyed, t.mac.written, t.mac.consumed) =
          (match i with
            | .macInit => (true, false, false)
            | .macWrite => (s.mac.keyed, true, s.mac.consumed)
            | .macSum | .macVerify => (s.mac.keyed, s.mac.written, true)
            | .macWipe | .wipeAll => (false, false, false)
            | .aeadSealChacha20 | .aeadSealChacha20Ietf | .aeadSealXchacha20 | .aeadSealXsalsa20
            | .aeadSealDetChacha20 | .aeadSealDetChacha20Ietf | .aeadSealDetXchacha20 | .aeadSealDetXsalsa20
            | .aeadOpenChacha20 | .aeadOpenChacha20Ietf | .aeadOpenXchacha20 | .aeadOpenXsalsa20
            | .aeadOpenDetChacha20 | .aeadOpenDetChacha20Ietf | .aeadOpenDetXchacha20 | .aeadOpenDetXsalsa20 =>
              (false, false, false)
            | .nop | .bufWipe | .ksInitChacha20 | .ksInitChacha20Ietf | .ksInitXchacha20 | .ksInitSalsa20 | .ksInitXsalsa20
            | .ksSeek | .ksStream | .ksXor | .ksWipe | .deriveXchacha20 | .deriveXsalsa20 =>
              (s.mac.keyed, s.mac.written, s.mac.consumed)))

/-! ### Housekeeping and unit wipes -/

/-- R80, R82, R83, R103, R142: NOP, WIPE_ALL, KS_WIPE and MAC_WIPE always complete, each with exactly its effect; in the fatal
state they are ignored. -/
def Obligations.NopAndWipesComplete : Prop :=
  decode 0x00000000 = .ok .nop ∧ decode 0x00000002 = .ok .wipeAll ∧ decode 0x00000014 = .ok .ksWipe
    ∧ decode 0x00000034 = .ok .macWipe
    ∧ ∀ s : State,
        (s.fatal = true → ∀ i ∈ [Instr.nop, .wipeAll, .ksWipe, .macWipe], exec i s = .next s)
          ∧ (s.fatal = false →
            exec .nop s = .next { s with err := .ok, vok := false }
              ∧ exec .wipeAll s = .next
                  { s with
                    ks := KsState.wiped, mac := MacState.wiped, key := #v[0, 0, 0, 0, 0, 0, 0, 0]
                    nonce := #v[0, 0, 0, 0, 0, 0], err := .ok, vok := false }
              ∧ exec .ksWipe s = .next { s with ks := KsState.wiped, err := .ok, vok := false }
              ∧ exec .macWipe s = .next { s with mac := MacState.wiped, err := .ok, vok := false })

/-- R81: BUF_WIPE zeroes exactly `(DST, DCAP)` when it is in range, and otherwise reports `ERR_DMEM_RANGE` and changes nothing
else. -/
def Obligations.BufWipeZeroesExactlyItsRegion : Prop :=
  decode 0x00000001 = .ok .bufWipe ∧
  ∀ s : State, s.fatal = false → s.MemOk →
    (¬ Fits s s.dst.toNat s.dcap.toNat → exec .bufWipe s = .next { s with err := .dmemRange, vok := false })
      ∧ (Fits s s.dst.toNat s.dcap.toNat →
          ∃ t, exec .bufWipe s = .next t ∧ t = { s with dmem := t.dmem, err := .ok, vok := false }
            ∧ WritesExactly s t s.dst.toNat (List.replicate s.dcap.toNat 0))

/-! ### KS -/

/-- R98 with R104, R105, R107: KS_INIT of the three variants that load the key as staged; and, for all five, the two fatal
checks in their order. -/
def Obligations.KsInitLoadsStagedKeyAndNonce : Prop :=
  ∀ s : State, s.fatal = false →
    let fresh : Alg → List Byte → BitVec 64 → State := fun alg n c =>
      { s with
        ks :=
          { keyed := true, alg := alg, key := s.key, nonce := vecOfList 12 0 n, ctr := c, wrap := false
            buf := Vector.replicate 64 0, off := 64 }
        err := .ok, vok := false }
    (∀ f ∈ [(Instr.ksInitChacha20, 8), (.ksInitChacha20Ietf, 12), (.ksInitXchacha20, 24), (.ksInitSalsa20, 16),
          (.ksInitXsalsa20, 24)],
        (s.klen.toNat ≠ 32 → exec f.1 s = .next (raiseFatal .keyLength s))
          ∧ (s.klen.toNat = 32 → s.nlen.toNat ≠ f.2 → exec f.1 s = .next (raiseFatal .nonceLength s)))
      ∧ (s.klen.toNat = 32 → s.nlen.toNat = 8 →
          exec .ksInitChacha20 s = .next (fresh .chacha20 ((nonceB s).take 8 ++ [0, 0, 0, 0]) 0))
      ∧ (s.klen.toNat = 32 → s.nlen.toNat = 12 →
          exec .ksInitChacha20Ietf s = .next (fresh .chacha20Ietf ((nonceB s).take 12) 0))
      ∧ (s.klen.toNat = 32 → s.nlen.toNat = 16 →
          exec .ksInitSalsa20 s
            = .next (fresh .salsa20 ((nonceB s).take 8 ++ [0, 0, 0, 0]) (s.nonce[3] ++ s.nonce[2])))

/-- R98 with R106, R108: KS_INIT of the two extended variants: the subkey derived from the first 16 nonce bytes under `SIGMA`,
whatever `CONST` holds, and the last 8 nonce bytes. -/
def Obligations.KsInitExtendedVariantsDeriveTheirKey : Prop :=
  ∀ s : State, s.fatal = false → s.klen.toNat = 32 → s.nlen.toNat = 24 →
    ∀ f ∈ [(Instr.ksInitXchacha20, Alg.xchacha20, hchacha20), (Instr.ksInitXsalsa20, Alg.xsalsa20, hsalsa20)],
      ∃ t, exec f.1 s = .next t
        ∧ t = { s with
            ks :=
              { keyed := true, alg := f.2.1, key := t.ks.key, nonce := t.ks.nonce, ctr := 0, wrap := false
                buf := Vector.replicate 64 0, off := 64 }
            err := .ok, vok := false }
        ∧ bytesOfWords t.ks.key.toList = f.2.2 (keyB s) ((nonceB s).take 16) sigma
        ∧ t.ks.nonce.toList = (nonceB s).drop 16 ++ [0, 0, 0, 0]

/-- R99: KS_SEEK repositions the counter, empties the buffer and clears `KS.WRAP`; unkeyed it is fatal, and an IETF counter at
or above 2^32 is `ERR_COUNTER_RANGE`. -/
def Obligations.KsSeekRepositionsTheCounter : Prop :=
  decode 0x00000011 = .ok .ksSeek ∧
  ∀ s : State, s.fatal = false →
    (s.ks.keyed = false → exec .ksSeek s = .next (raiseFatal .ksNotKeyed s))
      ∧ (s.ks.keyed = true → s.ks.alg = .chacha20Ietf → s.ctrHi ≠ 0 →
          exec .ksSeek s = .next { s with err := .counterRange, vok := false })
      ∧ (s.ks.keyed = true → (s.ks.alg ≠ .chacha20Ietf ∨ s.ctrHi = 0) →
          exec .ksSeek s = .next
            { s with
              ks :=
                { s.ks with
                  ctr := BitVec.ofNat 64 (s.ctrHi.toNat * 2 ^ 32 + s.ctrLo.toNat)
                  buf := Vector.replicate 64 0, off := 64, wrap := false }
              err := .ok, vok := false })

/-- R20, R96, R97, R100: consuming `m` bytes of a stream `n` bytes past block `c` returns bytes `n .. n+m-1` of that stream and
leaves the unit `n + m` bytes past block `c`, as long as the counter values last. The model's choice, log 6 (DESIGN CHOICE): while
a block is partly used, `KsAt` has the whole of it in `KS.BUF`, the consumed bytes below `KS.OFF` too, which R19 lets a model keep
or zero. -/
def Obligations.ConsumeReturnsTheNextStreamBytes : Prop :=
  ∀ (base ks : KsState) (c n m : Nat), KsAt base ks c n → c + (n + m + 63) / 64 ≤ base.alg.ctrMax →
    (consume m ks).1 = (List.range m).map (fun i => streamByte base c (n + i)) ∧ KsAt base (consume m ks).2 c (n + m)

/-- R100 (a): consuming `a` bytes and then `b` bytes returns the same bytes and leaves the same unit as consuming `a + b`. -/
def Obligations.ConsumeSplitsAtAnyPoint : Prop :=
  ∀ (a b : Nat) (ks : KsState),
    consume (a + b) ks
      = ((consume a ks).1 ++ (consume b (consume a ks).2).1, (consume b (consume a ks).2).2)

/-- R101: KS_STREAM writes exactly the next `DCAP` keystream bytes at `DST`, and its events come in the order of R101. -/
def Obligations.KsStreamWritesKeystream : Prop :=
  decode 0x00000012 = .ok .ksStream ∧
  ∀ s : State, s.fatal = false → s.MemOk →
    let n := s.dcap.toNat
    let room : Prop := blocksNeeded s.ks n ≤ blocksLeft s.ks
    (s.ks.keyed = false → exec .ksStream s = .next (raiseFatal .ksNotKeyed s))
      ∧ (s.ks.keyed = true → ¬ Fits s s.dst.toNat n → exec .ksStream s = .next { s with err := .dmemRange, vok := false })
      ∧ (s.ks.keyed = true → Fits s s.dst.toNat n → ¬ room → exec .ksStream s = .next (raiseFatal .ctrExhausted s))
      ∧ (s.ks.keyed = true → Fits s s.dst.toNat n → room →
          ∃ t, exec .ksStream s = .next t
            ∧ t = { s with dmem := t.dmem, ks := (consume n s.ks).2, err := .ok, vok := false }
            ∧ (consume n s.ks).1.length = n ∧ WritesExactly s t s.dst.toNat (consume n s.ks).1)

/-- R102: KS_XOR writes exactly `LEN` bytes at `DST`, source xor keystream, in place too, and its events come in the order of
R102. -/
def Obligations.KsXorWritesSourceXorKeystream : Prop :=
  decode 0x00000013 = .ok .ksXor ∧
  ∀ s : State, s.fatal = false → s.MemOk →
    let n := s.len.toNat
    let inRange : Prop := Fits s s.src.toNat n ∧ Fits s s.dst.toNat s.dcap.toNat
    let apart : Prop := s.src = s.dst ∨ Apart s.src.toNat n s.dst.toNat n
    let room : Prop := blocksNeeded s.ks n ≤ blocksLeft s.ks
    (s.ks.keyed = false → exec .ksXor s = .next (raiseFatal .ksNotKeyed s))
      ∧ (s.ks.keyed = true → s.dcap.toNat < n → exec .ksXor s = .next { s with err := .bufferTooShort, vok := false })
      ∧ (s.ks.keyed = true → n ≤ s.dcap.toNat → ¬ inRange → exec .ksXor s = .next { s with err := .dmemRange, vok := false })
      ∧ (s.ks.keyed = true → n ≤ s.dcap.toNat → inRange → ¬ apart →
          exec .ksXor s = .next { s with err := .overlap, vok := false })
      ∧ (s.ks.keyed = true → n ≤ s.dcap.toNat → inRange → apart → ¬ room →
          exec .ksXor s = .next (raiseFatal .ctrExhausted s))
      ∧ (s.ks.keyed = true → n ≤ s.dcap.toNat → inRange → apart → room →
          ∃ t, exec .ksXor s = .next t
            ∧ t = { s with dmem := t.dmem, ks := (consume n s.ks).2, err := .ok, vok := false }
            ∧ WritesExactly s t s.dst.toNat
                ((List.range n).map (fun i => byteAt s (s.src.toNat + i) ^^^ (consume n s.ks).1.getD i 0)))

/-- R109: in the terms of R20, the pre-check admits `m` more bytes exactly when the counter values last for them. -/
def Obligations.ExhaustionCheckCountsTheBlocksLeft : Prop :=
  ∀ (base ks : KsState) (c n m : Nat), KsAt base ks c n →
    (blocksNeeded ks m ≤ blocksLeft ks ↔ c + (n + m + 63) / 64 ≤ base.alg.ctrMax)

/-- R110: an admitted KS_XOR of `a + b` bytes leaves the same DMEM and the same KS unit as one of `a` bytes followed by one of
`b` bytes at `SRC + a`, `DST + a`; both of them are admitted. -/
def Obligations.KsXorSplitsIntoConsecutiveParts : Prop :=
  ∀ (s t : State) (a b : Word), s.fatal = false → s.cfg.legal = true → s.MemOk → s.ks.off ≤ 64 →
    s.len.toNat = a.toNat + b.toNat →
    exec .ksXor s = .next t → t.err = .ok →
    ∃ t1 t2,
      exec .ksXor { s with len := a } = .next t1 ∧ t1.err = .ok
        ∧ exec .ksXor
            { t1 with
              src := s.src + a, dst := s.dst + a, len := b, dcap := s.dcap - a } = .next t2 ∧ t2.err = .ok
        ∧ t2.dmem = t.dmem ∧ t2.ks = t.ks

/-- R106: while the counter is below 2^32, the blocks of XCHACHA20 are those of CHACHA20_IETF with the same key and the nonce
`0^4 ‖` the 8 nonce bytes in use. -/
def Obligations.XchachaBlocksAreIetfBlocksBelow2to32 : Prop :=
  ∀ (ks : KsState) (c : Nat), ks.alg = .xchacha20 → c < 2 ^ 32 →
    blockOf ks c
      = blockOf { ks with alg := .chacha20Ietf, nonce := vecOfList 12 0 ([0, 0, 0, 0] ++ ks.nonce.toList.take 8) } c

/-- R96: block `c` of a stream "depends on nothing but `KS.ALG`, `KS.KEY`, `KS.NONCE` and `c`", and is 64 bytes; so every unit
that agrees on those has the same stream. -/
def Obligations.BlocksDependOnVariantKeyNonceAndCounter : Prop :=
  ∀ ks ks' : KsState, ks.alg = ks'.alg → ks.key = ks'.key → ks.nonce = ks'.nonce →
    (∀ c, (blockOf ks c).length = 64 ∧ blockOf ks c = blockOf ks' c) ∧ ∀ c n, streamBytes ks c n = streamBytes ks' c n

/-! ### SKD -/

/-- R123: DERIVE writes exactly the 32-byte subkey at `DST`, and its events come in the order of R123. -/
def Obligations.DeriveWritesTheSubkey : Prop :=
  decode 0x00000220 = .ok .deriveXchacha20 ∧ decode 0x00000420 = .ok .deriveXsalsa20 ∧
  ∀ s : State, s.fatal = false → s.MemOk →
    ∀ f ∈ [(Instr.deriveXchacha20, hchacha20), (Instr.deriveXsalsa20, hsalsa20)],
      let sigmaStaged : Prop := s.const = #v[0x61707865, 0x3320646e, 0x79622d32, 0x6b206574]
      (s.klen.toNat ≠ 32 → exec f.1 s = .next (raiseFatal .keyLength s))
        ∧ (s.klen.toNat = 32 → s.nlen.toNat < 16 → exec f.1 s = .next { s with err := .rejectedNonce, vok := false })
        ∧ (s.klen.toNat = 32 → 16 ≤ s.nlen.toNat → ¬ sigmaStaged →
            exec f.1 s = .next { s with err := .rejectedConst, vok := false })
        ∧ (s.klen.toNat = 32 → 16 ≤ s.nlen.toNat → sigmaStaged → s.dcap.toNat < 32 →
            exec f.1 s = .next { s with err := .bufferTooShort, vok := false })
        ∧ (s.klen.toNat = 32 → 16 ≤ s.nlen.toNat → sigmaStaged → 32 ≤ s.dcap.toNat →
            ¬ Fits s s.dst.toNat s.dcap.toNat → exec f.1 s = .next { s with err := .dmemRange, vok := false })
        ∧ (s.klen.toNat = 32 → 16 ≤ s.nlen.toNat → sigmaStaged → 32 ≤ s.dcap.toNat → Fits s s.dst.toNat s.dcap.toNat →
            ∃ t, exec f.1 s = .next t ∧ t = { s with dmem := t.dmem, err := .ok, vok := false }
              ∧ (f.2 (keyB s) ((nonceB s).take 16) sigma).length = 32
              ∧ WritesExactly s t s.dst.toNat (f.2 (keyB s) ((nonceB s).take 16) sigma))

/-- R124: the 32 bytes DERIVE writes depend on `KEY` and on the first 16 staged nonce bytes alone: two runs that agree on
those, from states that may differ in everything else, write the same bytes. -/
def Obligations.DeriveDependsOnlyOnKeyAndPrefix : Prop :=
  ∀ (i : Instr) (s s' t t' : State), i = .deriveXchacha20 ∨ i = .deriveXsalsa20 → s.fatal = false → s'.fatal = false →
    s.MemOk → s'.MemOk → s.key = s'.key → (∀ j : Fin 4, s.nonce[j] = s'.nonce[j]) →
    exec i s = .next t → exec i s' = .next t' → t.err = .ok → t'.err = .ok →
    ∀ j, j < 32 → byteAt t (s.dst.toNat + j) = byteAt t' (s'.dst.toNat + j)

/-- R125, R106, R108: KS_INIT of an extended variant keys the unit with exactly the subkey DERIVE writes for the same staged key
and nonce. -/
def Obligations.KsInitKeysTheUnitWithTheDerivedSubkey : Prop :=
  ∀ f ∈ [(Instr.deriveXchacha20, Instr.ksInitXchacha20), (Instr.deriveXsalsa20, Instr.ksInitXsalsa20)],
    ∀ s t u : State, s.fatal = false → s.MemOk → exec f.1 s = .next t → t.err = .ok → exec f.2 s = .next u → u.err = .ok →
      u.ks.keyed = true ∧ bytesOfWords u.ks.key.toList = t.dmem.readBytes s.dst.toNat 32

/-! ### MAC -/

/-- R137, R131: MAC_INIT keys the unit: `R` is the clamped first half of the key, `S` the second half, nothing absorbed; a wrong
`KLEN` is fatal. -/
def Obligations.MacInitKeysTheUnit : Prop :=
  decode 0x00000030 = .ok .macInit ∧
  ∀ s : State, s.fatal = false →
    (s.klen.toNat ≠ 32 → exec .macInit s = .next (raiseFatal .keyLength s))
      ∧ (s.klen.toNat = 32 →
          exec .macInit s = .next
            { s with
              mac :=
                { keyed := true, written := false, consumed := false
                  r := (s.key[3] ++ s.key[2] ++ s.key[1] ++ s.key[0]) &&& 0x0ffffffc0ffffffc0ffffffc0fffffff
                  s := s.key[7] ++ s.key[6] ++ s.key[5] ++ s.key[4]
                  h := 0, buf := Vector.replicate 16 0, blen := 0 }
              err := .ok, vok := false })

/-- R138, R135: MAC_WRITE on a usable unit that has been given `msg` leaves it having been given `msg` followed by the bytes of
`(SRC, LEN)`; nothing else but `MAC.WRITTEN`, `ERR` and `VOK` changes. -/
def Obligations.MacWriteAppendsItsData : Prop :=
  decode 0x00000031 = .ok .macWrite ∧
  ∀ s : State, s.fatal = false →
    (¬ (s.mac.keyed = true ∧ s.mac.consumed = false) → exec .macWrite s = .next (raiseFatal .macKeyReuse s))
      ∧ (s.mac.keyed = true → s.mac.consumed = false → ¬ Fits s s.src.toNat s.len.toNat →
          exec .macWrite s = .next { s with err := .dmemRange, vok := false })
      ∧ (s.mac.keyed = true → s.mac.consumed = false → Fits s s.src.toNat s.len.toNat →
          ∃ t, exec .macWrite s = .next t ∧ t = { s with mac := t.mac, err := .ok, vok := false }
            ∧ t.mac.keyed = true ∧ t.mac.written = true ∧ t.mac.consumed = false
            ∧ ∀ r k msg, MacHolds s.mac r k msg →
                MacHolds t.mac r k (msg ++ (List.range s.len.toNat).map (fun i => byteAt s (s.src.toNat + i))))

/-- R139, R136, R132, R133: MAC_SUM on a written unit writes exactly the 16-byte Poly1305 tag of everything the unit was given,
at `DST`, and spends the key; its events come in the order of R139. -/
def Obligations.MacSumWritesThePolyTag : Prop :=
  decode 0x00000032 = .ok .macSum ∧
  ∀ s : State, s.fatal = false → s.MemOk →
    let usable : Prop := s.mac.keyed = true ∧ s.mac.consumed = false
    (¬ usable → exec .macSum s = .next (raiseFatal .macKeyReuse s))
      ∧ (usable → s.mac.written = false → exec .macSum s = .next (raiseFatal .macSumBeforeWrite s))
      ∧ (usable → s.mac.written = true → s.dcap.toNat < 16 →
          exec .macSum s = .next { s with err := .bufferTooShort, vok := false })
      ∧ (usable → s.mac.written = true → 16 ≤ s.dcap.toNat → ¬ Fits s s.dst.toNat s.dcap.toNat →
          exec .macSum s = .next { s with err := .dmemRange, vok := false })
      ∧ (usable → s.mac.written = true → 16 ≤ s.dcap.toNat → Fits s s.dst.toNat s.dcap.toNat →
          ∃ t tag, exec .macSum s = .next t
            ∧ t = { s with
                dmem := t.dmem
                mac :=
                  { keyed := true, written := true, consumed := true, r := 0, s := 0, h := 0
                    buf := Vector.replicate 16 0, blen := 0 }
                err := .ok, vok := false }
            ∧ tag.length = 16 ∧ WritesExactly s t s.dst.toNat tag
            ∧ ∀ r k msg, MacHolds s.mac r k msg → tag = poly1305 r.toNat k.toNat msg)

/-- R140, R141: MAC_VERIFY compares the Poly1305 tag of everything the unit was given with the 16 bytes at `TAG`, sets `VOK` to
the answer and `ERR` to 0 either way, spends the key either way and writes no DMEM byte; its events come in the order of
R140. -/
def Obligations.MacVerifyComparesThePolyTag : Prop :=
  decode 0x00000033 = .ok .macVerify ∧
  ∀ s : State, s.fatal = false →
    let usable : Prop := s.mac.keyed = true ∧ s.mac.consumed = false
    let given := (List.range 16).map (fun i => byteAt s (s.tag.toNat + i))
    (¬ usable → exec .macVerify s = .next (raiseFatal .macKeyReuse s))
      ∧ (usable → s.mac.written = false → exec .macVerify s = .next (raiseFatal .macSumBeforeWrite s))
      ∧ (usable → s.mac.written = true → ¬ Fits s s.tag.toNat 16 →
          exec .macVerify s = .next { s with err := .dmemRange, vok := false })
      ∧ (usable → s.mac.written = true → Fits s s.tag.toNat 16 →
          ∃ eq, exec .macVerify s = .next
              { s with
                mac :=
                  { keyed := true, written := true, consumed := true, r := 0, s := 0, h := 0
                    buf := Vector.replicate 16 0, blen := 0 }
                err := .ok, vok := eq }
            ∧ ∀ r k msg, MacHolds s.mac r k msg → (eq = true ↔ poly1305 r.toNat k.toNat msg = given))

/-- R143: two MAC_WRITE commands of `a` and `b` bytes over consecutive regions leave the same MAC unit as one of `a + b`. -/
def Obligations.MacWriteSplitsIntoConsecutiveParts : Prop :=
  ∀ (s t : State) (a b : Word), s.fatal = false → s.cfg.legal = true → s.len.toNat = a.toNat + b.toNat →
    exec .macWrite s = .next t → t.err = .ok →
    ∃ t1 t2, exec .macWrite { s with len := a } = .next t1 ∧ t1.err = .ok
      ∧ exec .macWrite { t1 with src := s.src + a, len := b } = .next t2 ∧ t2.err = .ok ∧ t2.mac = t.mac

/-! ### AFC -/

/-- R155, R156: the MAC input of each construction, written out; the lengths are eight bytes, least significant first, and a
padded input is a multiple of 16 bytes. Where the lengths stand in the original construction is the parameter's choice. -/
def Obligations.MacInputIsFramedAsSpecified : Prop :=
  ∀ (cfg : Config) (ad ct : List Byte),
    let lenBytes : List Byte → List Byte := fun b =>
      (List.range 8).map (fun i => BitVec.ofNat 8 (b.length / 256 ^ i))
    let pad : List Byte → List Byte := fun b => List.replicate ((16 - b.length % 16) % 16) 0
    (∀ alg ∈ [Alg.chacha20Ietf, Alg.xchacha20, Alg.xsalsa20],
        aeadMacInput cfg alg ad ct = ad ++ pad ad ++ ct ++ pad ct ++ lenBytes ad ++ lenBytes ct
          ∧ (aeadMacInput cfg alg ad ct).length % 16 = 0)
      ∧ (cfg.origLenPlacement = .trailing → aeadMacInput cfg .chacha20 ad ct = ad ++ ct ++ lenBytes ad ++ lenBytes ct)
      ∧ (cfg.origLenPlacement = .interleaved → aeadMacInput cfg .chacha20 ad ct = ad ++ lenBytes ad ++ ct ++ lenBytes ct)

/-- R158, R153 to R157: AEAD_SEAL, for the four constructions, on sound operands: ciphertext then tag at `DST`, both units
wiped, nothing else changed. -/
def Obligations.AeadSealWritesCiphertextAndTag : Prop :=
  ∀ f ∈ aeadForms, ∀ s : State, s.fatal = false → s.cfg.legal = true → s.MemOk →
    s.klen.toNat = 32 → s.nlen.toNat = f.2.1 → s.len.toNat + 16 ≤ s.dcap.toNat →
    Fits s s.src.toNat s.len.toNat → Fits s s.ad.toNat s.adlen.toNat → Fits s s.dst.toNat s.dcap.toNat →
    (s.src = s.dst ∨ Apart s.src.toNat s.len.toNat s.dst.toNat (s.len.toNat + 16)) →
    Apart s.ad.toNat s.adlen.toNat s.dst.toNat (s.len.toNat + 16) →
    let pt := s.dmem.readBytes s.src.toNat s.len.toNat
    let ad := s.dmem.readBytes s.ad.toNat s.adlen.toNat
    let ct := aeadCipherOf f.1 s.key (nonceB s) pt
    ∃ t, exec f.2.2.1 s = .next t ∧ t = { s.UnitsWiped with dmem := t.dmem, err := .ok, vok := false }
      ∧ ct.length = s.len.toNat ∧ (aeadTagOf s.cfg f.1 s.key (nonceB s) ad ct).length = 16
      ∧ WritesExactly s t s.dst.toNat (ct ++ aeadTagOf s.cfg f.1 s.key (nonceB s) ad ct)

/-- R159: AEAD_SEAL_DET, for the four constructions, on sound operands: the same ciphertext at `DST` and the same tag at
`TAG`. -/
def Obligations.AeadSealDetWritesCiphertextAndTagApart : Prop :=
  ∀ f ∈ aeadForms, ∀ s : State, s.fatal = false → s.cfg.legal = true → s.MemOk →
    s.klen.toNat = 32 → s.nlen.toNat = f.2.1 → s.len.toNat ≤ s.dcap.toNat →
    Fits s s.src.toNat s.len.toNat → Fits s s.ad.toNat s.adlen.toNat → Fits s s.dst.toNat s.dcap.toNat →
    Fits s s.tag.toNat 16 →
    (s.src = s.dst ∨ Apart s.src.toNat s.len.toNat s.dst.toNat s.len.toNat) →
    Apart s.ad.toNat s.adlen.toNat s.dst.toNat s.len.toNat → Apart s.src.toNat s.len.toNat s.tag.toNat 16 →
    Apart s.ad.toNat s.adlen.toNat s.tag.toNat 16 → Apart s.dst.toNat s.len.toNat s.tag.toNat 16 →
    let pt := s.dmem.readBytes s.src.toNat s.len.toNat
    let ad := s.dmem.readBytes s.ad.toNat s.adlen.toNat
    let ct := aeadCipherOf f.1 s.key (nonceB s) pt
    let tag := aeadTagOf s.cfg f.1 s.key (nonceB s) ad ct
    ∃ t, exec f.2.2.2.1 s = .next t ∧ t = { s.UnitsWiped with dmem := t.dmem, err := .ok, vok := false }
      ∧ ct.length = s.len.toNat ∧ tag.length = 16
      ∧ (∀ i, i < s.len.toNat → byteAt t (s.dst.toNat + i) = ct.getD i 0)
      ∧ (∀ i, i < 16 → byteAt t (s.tag.toNat + i) = tag.getD i 0)
      ∧ ∀ b, (b < s.dst.toNat ∨ s.dst.toNat + s.len.toNat ≤ b) → (b < s.tag.toNat ∨ s.tag.toNat + 16 ≤ b) →
          byteAt t b = byteAt s b

/-- R160, R162, R207: AEAD_OPEN, for the four constructions, on sound operands. If the last 16 bytes of `(SRC, LEN)` are the tag
recomputed from the rest, the plaintext is written at `DST` and `VOK` set; if not, no DMEM byte changes and `ERR` is `0x01`.
Both units end wiped either way. -/
def Obligations.AeadOpenVerifiesThenDecrypts : Prop :=
  ∀ f ∈ aeadForms, ∀ s : State, s.fatal = false → s.cfg.legal = true → s.MemOk →
    s.klen.toNat = 32 → s.nlen.toNat = f.2.1 → 16 ≤ s.len.toNat → s.len.toNat - 16 ≤ s.dcap.toNat →
    Fits s s.src.toNat s.len.toNat → Fits s s.ad.toNat s.adlen.toNat → Fits s s.dst.toNat s.dcap.toNat →
    (s.src = s.dst ∨ Apart s.src.toNat s.len.toNat s.dst.toNat (s.len.toNat - 16)) →
    Apart s.ad.toNat s.adlen.toNat s.dst.toNat (s.len.toNat - 16) →
    let ct := s.dmem.readBytes s.src.toNat (s.len.toNat - 16)
    let given := s.dmem.readBytes (s.src.toNat + (s.len.toNat - 16)) 16
    let ad := s.dmem.readBytes s.ad.toNat s.adlen.toNat
    (given = aeadTagOf s.cfg f.1 s.key (nonceB s) ad ct →
        ∃ t, exec f.2.2.2.2.1 s = .next t ∧ t = { s.UnitsWiped with dmem := t.dmem, err := .ok, vok := true }
          ∧ (aeadCipherOf f.1 s.key (nonceB s) ct).length = s.len.toNat - 16
          ∧ WritesExactly s t s.dst.toNat (aeadCipherOf f.1 s.key (nonceB s) ct))
      ∧ (given ≠ aeadTagOf s.cfg f.1 s.key (nonceB s) ad ct →
          exec f.2.2.2.2.1 s = .next { s.UnitsWiped with err := .forgedOrCorrupted, vok := false })

/-- R161, R162, R207: AEAD_OPEN_DET, for the four constructions, on sound operands: as AEAD_OPEN with the ciphertext the whole
of `(SRC, LEN)` and the given tag at `TAG`. -/
def Obligations.AeadOpenDetVerifiesThenDecrypts : Prop :=
  ∀ f ∈ aeadForms, ∀ s : State, s.fatal = false → s.cfg.legal = true → s.MemOk →
    s.klen.toNat = 32 → s.nlen.toNat = f.2.1 → s.len.toNat ≤ s.dcap.toNat →
    Fits s s.src.toNat s.len.toNat → Fits s s.ad.toNat s.adlen.toNat → Fits s s.tag.toNat 16 →
    Fits s s.dst.toNat s.dcap.toNat →
    (s.src = s.dst ∨ Apart s.src.toNat s.len.toNat s.dst.toNat s.len.toNat) →
    Apart s.ad.toNat s.adlen.toNat s.dst.toNat s.len.toNat → Apart s.tag.toNat 16 s.dst.toNat s.len.toNat →
    let ct := s.dmem.readBytes s.src.toNat s.len.toNat
    let given := s.dmem.readBytes s.tag.toNat 16
    let ad := s.dmem.readBytes s.ad.toNat s.adlen.toNat
    (given = aeadTagOf s.cfg f.1 s.key (nonceB s) ad ct →
        ∃ t, exec f.2.2.2.2.2 s = .next t ∧ t = { s.UnitsWiped with dmem := t.dmem, err := .ok, vok := true }
          ∧ (aeadCipherOf f.1 s.key (nonceB s) ct).length = s.len.toNat
          ∧ WritesExactly s t s.dst.toNat (aeadCipherOf f.1 s.key (nonceB s) ct))
      ∧ (given ≠ aeadTagOf s.cfg f.1 s.key (nonceB s) ad ct →
          exec f.2.2.2.2.2 s = .next { s.UnitsWiped with err := .forgedOrCorrupted, vok := false })

/-- R158, R159, R160, R161, R211: the events of the AEAD commands before the tag comparison, each under the checks before it. -/
def Obligations.AeadCommandsCheckTheirOperandsInOrder : Prop :=
  ∀ f ∈ aeadForms, ∀ s : State, s.fatal = false →
    (∀ i ∈ [f.2.2.1, f.2.2.2.1, f.2.2.2.2.1, f.2.2.2.2.2],
        (s.klen.toNat ≠ 32 → exec i s = .next (raiseFatal .keyLength s))
          ∧ (s.klen.toNat = 32 → s.nlen.toNat ≠ f.2.1 → exec i s = .next (raiseFatal .nonceLength s)))
      ∧ (s.klen.toNat = 32 → s.nlen.toNat = f.2.1 →
        let n := s.len.toNat
        let inRange : Prop :=
          Fits s s.src.toNat n ∧ Fits s s.ad.toNat s.adlen.toNat ∧ Fits s s.dst.toNat s.dcap.toNat
        let clear : Nat → Prop := fun m =>
          (s.src = s.dst ∨ Apart s.src.toNat n s.dst.toNat m) ∧ Apart s.ad.toNat s.adlen.toNat s.dst.toNat m
        let tagClear : Prop :=
          Apart s.src.toNat n s.tag.toNat 16 ∧ Apart s.ad.toNat s.adlen.toNat s.tag.toNat 16
            ∧ Apart s.dst.toNat n s.tag.toNat 16
        let reports : Instr → ErrCode → Prop := fun i e => exec i s = .next { s with err := e, vok := false }
        (s.dcap.toNat < n + 16 → reports f.2.2.1 .bufferTooShort)
          ∧ (n + 16 ≤ s.dcap.toNat → ¬ inRange → reports f.2.2.1 .dmemRange)
          ∧ (n + 16 ≤ s.dcap.toNat → inRange → ¬ clear (n + 16) → reports f.2.2.1 .overlap)
          ∧ (s.dcap.toNat < n → reports f.2.2.2.1 .bufferTooShort)
          ∧ (n ≤ s.dcap.toNat → ¬ (inRange ∧ Fits s s.tag.toNat 16) → reports f.2.2.2.1 .dmemRange)
          ∧ (n ≤ s.dcap.toNat → inRange → Fits s s.tag.toNat 16 → ¬ (clear n ∧ tagClear) → reports f.2.2.2.1 .overlap)
          ∧ (n < 16 → reports f.2.2.2.2.1 .cipherTooShort)
          ∧ (16 ≤ n → s.dcap.toNat < n - 16 → reports f.2.2.2.2.1 .bufferTooShort)
          ∧ (16 ≤ n → n - 16 ≤ s.dcap.toNat → ¬ inRange → reports f.2.2.2.2.1 .dmemRange)
          ∧ (16 ≤ n → n - 16 ≤ s.dcap.toNat → inRange → ¬ clear (n - 16) → reports f.2.2.2.2.1 .overlap)
          ∧ (s.dcap.toNat < n → reports f.2.2.2.2.2 .bufferTooShort)
          ∧ (n ≤ s.dcap.toNat → ¬ (inRange ∧ Fits s s.tag.toNat 16) → reports f.2.2.2.2.2 .dmemRange)
          ∧ (n ≤ s.dcap.toNat → inRange → Fits s s.tag.toNat 16 →
              ¬ (clear n ∧ Apart s.tag.toNat 16 s.dst.toNat n) → reports f.2.2.2.2.2 .overlap))

/-- R163 (a): opening what AEAD_SEAL wrote, under the same staged key and nonce and the same associated data, succeeds and gives
the plaintext back, wherever the host puts it. -/
def Obligations.OpenOfSealGivesThePlaintextBack : Prop :=
  ∀ f ∈ aeadForms, ∀ (s t v : State) (d c : Word), s.fatal = false → s.cfg.legal = true → s.MemOk →
    exec f.2.2.1 s = .next t → t.err = .ok →
    exec f.2.2.2.2.1 { t with src := s.dst, len := s.len + 16, dst := d, dcap := c } = .next v →
    (v.err = .ok ∨ v.err = .forgedOrCorrupted) →
    v.err = .ok ∧ v.vok = true ∧ ∀ i, i < s.len.toNat → byteAt v (d.toNat + i) = byteAt s (s.src.toNat + i)

/-- R163 (b): what AEAD_SEAL_DET writes is what AEAD_SEAL writes, split at `LEN`. -/
def Obligations.DetachedSealIsCombinedSealSplit : Prop :=
  ∀ f ∈ aeadForms, ∀ s t u : State, s.fatal = false → s.MemOk →
    exec f.2.2.1 s = .next t → t.err = .ok → exec f.2.2.2.1 s = .next u → u.err = .ok →
    (∀ i, i < s.len.toNat → byteAt u (s.dst.toNat + i) = byteAt t (s.dst.toNat + i))
      ∧ ∀ i, i < 16 → byteAt u (s.tag.toNat + i) = byteAt t (s.dst.toNat + s.len.toNat + i)

/-- R150: an AEAD command "does not use any stream or MAC state left by earlier commands": admitted, it does the same whatever
the units held. -/
def Obligations.AeadCommandsIgnoreEarlierUnitState : Prop :=
  ∀ f ∈ aeadForms, ∀ i ∈ [f.2.2.1, f.2.2.2.1, f.2.2.2.2.1, f.2.2.2.2.2], ∀ (s t : State) (ks : KsState) (mac : MacState),
    s.fatal = false → exec i s = .next t → (t.err = .ok ∨ t.err = .forgedOrCorrupted) →
    exec i { s with ks := ks, mac := mac } = .next t

/-! ### SecretStream, the host's protocol -/

/-- R187 (b): what Push produces, Pull from the same record and with the same associated data takes apart into the same payload
and tag byte, and both ends hold the same record after it. -/
def Obligations.PullUndoesPush : Prop :=
  ∀ (cfg : Config) (pt ad chunk : List Byte) (tagByte : Byte) (ss ss' : SsState),
    ssPush cfg pt ad tagByte ss = .ok (chunk, ss') →
    chunk.length = pt.length + 17 ∧ ssPull cfg chunk ad ss = .ok ((pt, tagByte), ss')

/-- R177, R181, R182: the chunk counter starts at 1 and is never left at 0, a wrap to 0 being a ReKey that sets it to 1: so
`SsNonce` begins with the same word at most once between two ReKeys. -/
def Obligations.ChunkCounterIsNeverLeftAtZero : Prop :=
  (∀ key header ss, ssInit key header = .ok ss → ss.ctr = 1)
    ∧ (∀ cfg pt ad t ss chunk ss', ss.ctr ≠ 0 → ssPush cfg pt ad t ss = .ok (chunk, ss') →
        ss'.ctr ≠ 0 ∧ (ss'.ctr = ss.ctr + 1 ∨ (ss'.ctr = 1 ∧ ss'.epoch = ss.epoch + 1)))
    ∧ (∀ cfg chunk ad ss out ss', ss.ctr ≠ 0 → ssPull cfg chunk ad ss = .ok (out, ss') →
        ss'.ctr ≠ 0 ∧ (ss'.ctr = ss.ctr + 1 ∨ (ss'.ctr = 1 ∧ ss'.epoch = ss.epoch + 1)))

/-- R177: the command sequence of InitPush and InitPull, run on LGC, leaves the host with exactly the record the protocol
computes, LGC outside the fatal state, and no byte of the subkey in the scratch region. The model's choice, log 12 (DESIGN
CHOICE): the host reads `STATUS` in the sequence before it fetches the subkey. -/
def Obligations.InitOnLgcComputesTheProtocolState : Prop :=
  ∀ (lay : SsLayout) (key header : List Byte) (ss : SsState) (s : State), s.Inv → s.fatal = false → s.const = sigmaWords →
    key.length = 32 → header.length = 24 → lay.scratch + 32 ≤ s.cfg.dmemBytes →
    (ssInitOn lay key header ss s).result = .ok ()
      ∧ ssInit key header = .ok (ssInitOn lay key header ss s).ss
      ∧ (ssInitOn lay key header ss s).lgc.fatal = false
      ∧ ∀ i, i < 32 → byteAt (ssInitOn lay key header ss s).lgc (lay.scratch + i) = 0

/-- R180, R185 (b): a Pull that LGC finds forged releases nothing and leaves the host's record as it was; and a Pull of a chunk
whose last 16 bytes are not the tag recomputed from the rest is found forged: after the two `PUT`s no byte of DMEM changes, the
output region's among them. The model's choice, log 12 (DESIGN CHOICE): where the host places its buffers. -/
def Obligations.ForgedPullLeavesTheRecord : Prop :=
  (∀ (lay : SsLayout) (chunk ad : List Byte) (ss : SsState) (s : State),
      (ssPullOn lay chunk ad ss s).result = .error .forgedOrCorrupted → (ssPullOn lay chunk ad ss s).ss = ss)
    ∧ ∀ (lay : SsLayout) (chunk ad : List Byte) (ss : SsState) (s : State), s.Inv → s.fatal = false → ss.phase = .ready →
        17 ≤ chunk.length → lay.Sound s chunk.length ad.length (chunk.length - 16) →
        chunk.drop (chunk.length - 16)
          ≠ aeadTagOf s.cfg .chacha20Ietf (keyWords ss.k.toList) (ssNonce ss) ad (chunk.take (chunk.length - 16)) →
        let run := ssPullOn lay chunk ad ss s
        run.result = .error .forgedOrCorrupted ∧ run.ss = ss
          ∧ (run.lgc.err = .forgedOrCorrupted ∧ run.lgc.vok = false ∧ run.lgc.fatal = false)
          ∧ ∃ u, runScript (linePut lay.msg chunk ++ linePut lay.ad ad) s = .next u ∧ ∀ a, byteAt run.lgc a = byteAt u a

/-- R179, R180, R183, R186: Push and Pull on LGC leave the host with what the protocol computes, chunk or payload and tag byte, and
the record, and LGC with both units wiped (R188); what the host refuses by itself (R183, R186, R185 (a)) never reaches LGC. The
model's choice, log 12 (DESIGN CHOICE): the `STATUS` read before an output is fetched, and where the host places its buffers. -/
def Obligations.PushAndPullOnLgcComputeTheProtocol : Prop :=
  ∀ (lay : SsLayout) (ss : SsState) (s : State), s.Inv → s.fatal = false →
    (∀ (pt ad : List Byte) (t : Byte),
        (∀ e, ssPush s.cfg pt ad t ss = .error e → ssPushOn lay pt ad t ss s = ⟨.error e, ss, s⟩)
          ∧ ∀ (chunk : List Byte) (ss' : SsState), lay.Sound s (1 + pt.length) ad.length (pt.length + 17) →
              ssPush s.cfg pt ad t ss = .ok (chunk, ss') →
              let run := ssPushOn lay pt ad t ss s
              run.result = .ok chunk ∧ run.ss = ss' ∧ run.lgc.fatal = false ∧ run.lgc.ks = KsState.wiped
                ∧ run.lgc.mac = MacState.wiped)
      ∧ ∀ chunk ad : List Byte,
          (∀ e, (ss.phase ≠ .ready ∨ chunk.length < 17) → ssPull s.cfg chunk ad ss = .error e →
              ssPullOn lay chunk ad ss s = ⟨.error e, ss, s⟩)
            ∧ ∀ (pt : List Byte) (t : Byte) (ss' : SsState), lay.Sound s chunk.length ad.length (chunk.length - 16) →
                ssPull s.cfg chunk ad ss = .ok ((pt, t), ss') →
                let run := ssPullOn lay chunk ad ss s
                run.result = .ok (pt, t) ∧ run.ss = ss' ∧ run.lgc.fatal = false ∧ run.lgc.ks = KsState.wiped
                  ∧ run.lgc.mac = MacState.wiped

/-- R182, R187 (d): ReKey on LGC gives the host the ratcheted record, its key and inner nonce from the first 40 keystream bytes under
the old ones; and what the sequence put of the old key or of that keystream into LGC is gone: the staged key is zero, the KS unit
wiped, the scratch region zero, and every other element is as it was but for the operands the sequence wrote. The model's choice: the zeroing of the staged key is log 20
(DEDUCED), the `STATUS` read and the place of the scratch region are log 12 (DESIGN CHOICE). -/
def Obligations.ReKeyOnLgcRatchetsAndClearsTheOldKey : Prop :=
  ∀ (lay : SsLayout) (ss : SsState) (s : State), s.Inv → s.fatal = false → lay.scratch + 40 ≤ s.cfg.dmemBytes →
    let run := ssReKeyOn lay ss s
    let stream := streamBytes (ksLoad .chacha20Ietf (keyWords ss.k.toList) (toLe32 ss.ctr ++ ss.inonce.toList)) 0 40
    run.result = .ok ()
      ∧ run.ss.k.toList = stream.take 32 ∧ run.ss.inonce.toList = xorBytes ss.inonce.toList (stream.drop 32)
      ∧ (run.ss.ctr = 1 ∧ run.ss.epoch = ss.epoch + 1 ∧ run.ss.phase = ss.phase)
      ∧ run.lgc = { s with
          key := #v[0, 0, 0, 0, 0, 0, 0, 0], klen := 32, nonce := run.lgc.nonce, nlen := 12
          dst := BitVec.ofNat 32 lay.scratch, dcap := 40, ks := KsState.wiped, err := .ok, vok := false
          dmem := run.lgc.dmem, answers := run.lgc.answers }
      ∧ nonceB run.lgc = toLe32 ss.ctr ++ ss.inonce.toList ++ List.replicate 12 0
      ∧ WritesExactly s run.lgc lay.scratch (List.replicate 40 0)
end

