-- ==== Sys2Proof/Laws/Bytes.lean ====
section
/-! SUPPORT. Byte strings: `lenum` and `toLe` undo one another, the words of a byte string, exclusive or with a keystream. -/

namespace Sys2Proof.Machine

@[simp] theorem lenum_nil : lenum [] = 0 := rfl

@[simp] theorem lenum_cons (b : Byte) (bs : List Byte) : lenum (b :: bs) = b.toNat + 256 * lenum bs := rfl

theorem lenum_append (a b : List Byte) : lenum (a ++ b) = lenum a + 2 ^ (8 * a.length) * lenum b := by
  induction a with
  | nil => simp
  | cons x a ih =>
    rw [List.cons_append, lenum_cons, lenum_cons, ih, List.length_cons, show 8 * (a.length + 1) = 8 * a.length + 8 by omega,
      Nat.pow_add]
    ring

theorem lenum_lt (a : List Byte) : lenum a < 2 ^ (8 * a.length) := by
  induction a with
  | nil => simp
  | cons x a ih =>
    have hx := x.isLt
    rw [lenum_cons, List.length_cons, Nat.mul_add, Nat.pow_add]
    omega

@[simp] theorem toLe_length (n v : Nat) : (toLe n v).length = n := by
  induction n generalizing v with
  | zero => rfl
  | succ n ih => simp [toLe, ih]

theorem lenum_toLe (n v : Nat) : lenum (toLe n v) = v % 2 ^ (8 * n) := by
  induction n generalizing v with
  | zero => simp [toLe, Nat.mod_one]
  | succ n ih =>
    rw [toLe, lenum_cons, ih, Nat.mul_add, Nat.pow_add, BitVec.toNat_ofNat, Nat.mul_comm (2 ^ (8 * n)),
      Nat.mod_mul (x := v)]

theorem toLe_lenum (a : List Byte) : toLe a.length (lenum a) = a := by
  induction a with
  | nil => rfl
  | cons x a ih =>
    have hx := x.isLt
    rw [List.length_cons, toLe, lenum_cons]
    congr 1
    · apply BitVec.eq_of_toNat_eq
      rw [BitVec.toNat_ofNat]
      omega
    · rw [show (x.toNat + 256 * lenum a) / 256 = lenum a by omega, ih]

@[simp] theorem toLe32_length (w : Word) : (toLe32 w).length = 4 := toLe_length ..

theorem toLe32_le32 (a : List Byte) (h : a.length = 4) : toLe32 (le32 a) = a := by
  have hlt := lenum_lt a
  rw [h] at hlt
  rw [toLe32, le32, BitVec.toNat_ofNat, Nat.mod_eq_of_lt hlt, ← h, toLe_lenum]

theorem le32_toLe32 (w : Word) : le32 (toLe32 w) = w := by
  have hw := w.isLt
  rw [le32, toLe32, lenum_toLe]
  apply BitVec.eq_of_toNat_eq
  rw [BitVec.toNat_ofNat]
  omega

@[simp] theorem bytesOfWords_nil : bytesOfWords [] = [] := rfl

@[simp] theorem bytesOfWords_cons (w : Word) (ws : List Word) : bytesOfWords (w :: ws) = toLe32 w ++ bytesOfWords ws := rfl

@[simp] theorem bytesOfWords_length (ws : List Word) : (bytesOfWords ws).length = 4 * ws.length := by
  induction ws with
  | nil => rfl
  | cons w ws ih => simp only [bytesOfWords_cons, List.length_append, toLe32_length, ih, List.length_cons]; omega

theorem bytesOfWords_append (a b : List Word) : bytesOfWords (a ++ b) = bytesOfWords a ++ bytesOfWords b := by
  simp [bytesOfWords]

theorem wordAt_zero (a b : List Byte) (h : a.length = 4) : wordAt (a ++ b) 0 = le32 a := by
  rw [wordAt, Nat.mul_zero, List.drop_zero, List.take_append_of_le_length (by omega), List.take_of_length_le (by omega)]

theorem wordAt_succ (a b : List Byte) (i : Nat) (h : a.length = 4) : wordAt (a ++ b) (i + 1) = wordAt b i := by
  rw [wordAt, wordAt, List.drop_append, List.drop_of_length_le (by omega), h, List.nil_append,
    show 4 * (i + 1) - 4 = 4 * i by omega]

/-- Word `i` of the bytes of words is word `i`. -/
theorem wordAt_bytesOfWords (ws : List Word) (i : Nat) : wordAt (bytesOfWords ws) i = ws.getD i 0 := by
  induction ws generalizing i with
  | nil => simp [wordAt, le32]
  | cons w ws ih =>
    cases i with
    | zero => rw [bytesOfWords_cons, wordAt_zero _ _ (by simp), le32_toLe32]; rfl
    | succ i => rw [bytesOfWords_cons, wordAt_succ _ _ _ (by simp), ih]; rfl

/-- A byte string of `4 n` bytes is the bytes of its `n` words. -/
theorem bytesOfWords_wordAt (n : Nat) (a : List Byte) (h : a.length = 4 * n) :
    bytesOfWords ((List.range n).map (wordAt a)) = a := by
  induction n generalizing a with
  | zero => simpa using (List.eq_nil_of_length_eq_zero (by omega : a.length = 0)).symm
  | succ n ih =>
    obtain ⟨x, y, hx, rfl⟩ : ∃ x y, x.length = 4 ∧ a = x ++ y :=
      ⟨a.take 4, a.drop 4, by simp; omega, (List.take_append_drop 4 a).symm⟩
    rw [List.length_append] at h
    rw [List.range_succ_eq_map, List.map_cons, List.map_map, bytesOfWords_cons, wordAt_zero _ _ hx, toLe32_le32 _ hx]
    congr 1
    rw [← ih y (by omega)]
    congr 1
    rw [ih y (by omega)]
    exact List.map_congr_left fun i _ => wordAt_succ x y i hx

theorem lenum_zeros (n : Nat) : lenum (zeros n) = 0 := by
  induction n with
  | zero => rfl
  | succ n ih => rw [zeros, List.replicate_succ, lenum_cons]; simpa [zeros] using ih

/-- Zeros after a byte string change none of its words. -/
theorem wordAt_append_zeros (a : List Byte) (n i : Nat) : wordAt (a ++ zeros n) i = wordAt a i := by
  rw [wordAt, wordAt, le32, le32, List.drop_append, List.take_append, lenum_append]
  simp only [zeros, List.drop_replicate, List.take_replicate]
  have h := lenum_zeros
  simp only [zeros] at h
  rw [h, Nat.mul_zero, Nat.add_zero]

/-- The words of a byte string, the last one filled up with zeros. -/
theorem bytesOfWords_wordAt_pad (a : List Byte) :
    bytesOfWords ((List.range ((a.length + 3) / 4)).map (wordAt a)) = a ++ zeros (4 * ((a.length + 3) / 4) - a.length) := by
  rw [← bytesOfWords_wordAt ((a.length + 3) / 4) (a ++ zeros (4 * ((a.length + 3) / 4) - a.length))
    (by simp [zeros]; omega)]
  congr 1
  exact List.map_congr_left fun i _ => (wordAt_append_zeros a _ i).symm

theorem vecOfList_getElem {α : Type} (n : Nat) (d : α) (xs : List α) (i : Nat) (h : i < n) :
    (vecOfList n d xs)[i] = xs.getD i d := by
  simp [vecOfList]

/-- A file read back as a list: the given list, filled up with the default. -/
theorem vecOfList_toList {α : Type} (n : Nat) (d : α) (xs : List α) (h : xs.length ≤ n) :
    (vecOfList n d xs).toList = xs ++ List.replicate (n - xs.length) d := by
  refine List.ext_getElem (by simp; omega) fun i h1 h2 => ?_
  rw [Vector.length_toList] at h1
  rw [Vector.getElem_toList, vecOfList_getElem _ _ _ _ h1, List.getElem_append]
  split
  next hi => simp [List.getD, hi]
  next hi => simp [List.getD, List.getElem?_eq_none (Nat.le_of_not_lt hi)]

theorem vecOfList_of_toList {α : Type} {n : Nat} (d : α) (v : Vector α n) : vecOfList n d v.toList = v := by
  refine Vector.ext fun i h => ?_
  rw [vecOfList_getElem _ _ _ _ h]
  simp [List.getD, h]

@[simp] theorem xorBytes_length (a b : List Byte) : (xorBytes a b).length = min a.length b.length := by simp [xorBytes]

/-- Exclusive or with the same bytes twice gives the first back. -/
theorem xorBytes_xorBytes (a b : List Byte) (h : a.length ≤ b.length) : xorBytes (xorBytes a b) b = a := by
  refine List.ext_getElem (by simp; omega) fun i h1 h2 => ?_
  simp [xorBytes]

theorem xorBytes_append (a b c d : List Byte) (h : a.length = c.length) :
    xorBytes (a ++ b) (c ++ d) = xorBytes a c ++ xorBytes b d := by
  rw [xorBytes, List.zipWith_append h]
  rfl

@[simp] theorem zeros_length (n : Nat) : (zeros n).length = n := by simp [zeros]

@[simp] theorem sigma_length : sigma.length = 16 := by decide

end Sys2Proof.Machine
end

