-- ==== Sys2Proof/Laws/Memory.lean ====
section
/-! SUPPORT. DMEM: every operation keeps the canonical form, a read after a write gives what was written and leaves every other
byte alone, and two canonical memories that read alike are equal. -/

namespace Sys2Proof.Machine

/-- The two halves of the canonical form: offsets strictly rising; every entry inside the memory and not 0. -/
theorem Memory.wf_iff (n : Nat) (m : Memory) :
    Memory.wf n m = true ↔ m.Pairwise (fun p q => p.1 < q.1) ∧ ∀ p ∈ m, p.1 < n ∧ p.2 ≠ 0 := by
  induction m with
  | nil => simp [Memory.wf]
  | cons p m ih =>
    obtain ⟨a, v⟩ := p
    cases m with
    | nil => simp [Memory.wf]
    | cons q m =>
      obtain ⟨b, w⟩ := q
      rw [Memory.wf, Bool.and_eq_true, Bool.and_eq_true, ih]
      simp only [decide_eq_true_eq, List.pairwise_cons, List.mem_cons, forall_eq_or_imp]
      constructor
      · rintro ⟨⟨hab, hv⟩, ⟨hb, hm⟩, ⟨hbn, hw⟩, hall⟩
        exact ⟨⟨⟨hab, fun p hp => hab.trans (hb p hp)⟩, hb, hm⟩, ⟨hab.trans hbn, hv⟩, ⟨hbn, hw⟩, hall⟩
      · rintro ⟨⟨⟨hab, _⟩, hb, hm⟩, ⟨_, hv⟩, hbw, hall⟩
        exact ⟨⟨hab, hv⟩, ⟨hb, hm⟩, hbw, hall⟩

@[simp] theorem Memory.wf_nil (n : Nat) : Memory.wf n [] = true := rfl

theorem Memory.wf_sorted {n : Nat} {m : Memory} (h : Memory.wf n m = true) : m.Pairwise (fun p q => p.1 < q.1) :=
  ((Memory.wf_iff n m).1 h).1

/-- An offset below every listed one reads 0. -/
theorem Memory.read_of_lt {m : Memory} {a : Nat} (h : ∀ p ∈ m, a < p.1) : m.read a = 0 := by
  induction m with
  | nil => rfl
  | cons p m ih =>
    have hp := h p (by simp)
    have hm := ih (fun q hq => h q (by simp [hq]))
    simp [Memory.read, hm, hp.ne]

/-- Every entry of `m.set a v` is `(a, v)` with `v` not 0, or an entry of `m` at another offset. -/
theorem Memory.mem_set {a : Nat} {v : Byte} {m : Memory} {p : Host.Cell} (hm : m.Pairwise (fun p q => p.1 < q.1))
    (h : p ∈ m.set a v) : (p = (a, v) ∧ v ≠ 0) ∨ (p ∈ m ∧ p.1 ≠ a) := by
  induction m with
  | nil =>
    rw [Memory.set] at h
    split at h
    next => simp at h
    next hv => exact .inl ⟨by simpa using h, hv⟩
  | cons q m ih =>
    obtain ⟨b, w⟩ := q
    obtain ⟨hb, hm⟩ := List.pairwise_cons.1 hm
    rw [Memory.set] at h
    split at h
    next hab =>
      subst hab
      split at h
      next => exact .inr ⟨by simp [h], (hb p h).ne'⟩
      next hv =>
        rcases List.mem_cons.1 h with rfl | h
        · exact .inl ⟨rfl, hv⟩
        · exact .inr ⟨by simp [h], (hb p h).ne'⟩
    next hab =>
      have keep : p ∈ (b, w) :: m → a < b → (p ∈ (b, w) :: m ∧ p.1 ≠ a) := fun hp hlt => by
        refine ⟨hp, ?_⟩
        rcases List.mem_cons.1 hp with rfl | hp
        · exact hlt.ne'
        · exact (hlt.trans (hb p hp)).ne'
      split at h
      next hlt =>
        split at h
        next => exact .inr (keep h hlt)
        next hv =>
          rcases List.mem_cons.1 h with rfl | h
          · exact .inl ⟨rfl, hv⟩
          · exact .inr (keep h hlt)
      next =>
        rcases List.mem_cons.1 h with rfl | h
        · exact .inr ⟨by simp, Ne.symm hab⟩
        · rcases ih hm h with h | ⟨h, hne⟩
          · exact .inl h
          · exact .inr ⟨by simp [h], hne⟩

theorem Memory.sorted_set (a : Nat) (v : Byte) {m : Memory} (hm : m.Pairwise (fun p q => p.1 < q.1)) :
    (m.set a v).Pairwise (fun p q => p.1 < q.1) := by
  induction m with
  | nil => rw [Memory.set]; split <;> simp
  | cons q m ih =>
    obtain ⟨b, w⟩ := q
    have hcons := List.pairwise_cons.1 hm
    obtain ⟨hb, htail⟩ := hcons
    rw [Memory.set]
    split
    next hab =>
      subst hab
      split
      · exact htail
      · exact List.pairwise_cons.2 ⟨hb, htail⟩
    next hab =>
      split
      next hlt =>
        split
        · exact hm
        · refine List.pairwise_cons.2 ⟨fun p hp => ?_, hm⟩
          rcases List.mem_cons.1 hp with rfl | hp
          · exact hlt
          · exact hlt.trans (hb p hp)
      next hlt =>
        refine List.pairwise_cons.2 ⟨fun p hp => ?_, ih htail⟩
        rcases Memory.mem_set htail hp with ⟨rfl, _⟩ | ⟨hp, _⟩
        · simp only; omega
        · exact hb p hp

/-- Read after write, one byte. -/
theorem Memory.read_set (a : Nat) (v : Byte) (b : Nat) {m : Memory} (hm : m.Pairwise (fun p q => p.1 < q.1)) :
    (m.set a v).read b = if b = a then v else m.read b := by
  induction m with
  | nil =>
    rw [Memory.set]
    split
    next hv => simp [Memory.read, hv]
    next => rfl
  | cons q m ih =>
    obtain ⟨c, w⟩ := q
    obtain ⟨hb, htail⟩ := List.pairwise_cons.1 hm
    have low : ∀ x, x ≤ c → Memory.read m x = 0 := fun x hx => Memory.read_of_lt fun p hp => hx.trans_lt (hb p hp)
    rw [Memory.set]
    split
    next hac =>
      subst hac
      split
      next hv =>
        split
        next hba => rw [hba, hv, low a le_rfl]
        next hba => simp [Memory.read, hba]
      next => by_cases hba : b = a <;> simp [Memory.read, hba]
    next hac =>
      split
      next hlt =>
        split
        next hv =>
          split
          next hba => rw [hba, hv, Memory.read, if_neg hac, low a hlt.le]
          next => rfl
        next => by_cases hba : b = a <;> simp [Memory.read, hba]
      next => grind [Memory.read]

theorem Memory.wf_set {n a : Nat} {v : Byte} {m : Memory} (ha : a < n) (h : Memory.wf n m = true) :
    Memory.wf n (m.set a v) = true := by
  obtain ⟨hs, hall⟩ := (Memory.wf_iff n m).1 h
  refine (Memory.wf_iff n _).2 ⟨Memory.sorted_set a v hs, fun p hp => ?_⟩
  rcases Memory.mem_set hs hp with ⟨rfl, hv⟩ | ⟨hp, _⟩
  · exact ⟨ha, hv⟩
  · exact hall p hp

theorem Memory.sorted_writeBytes (a : Nat) (v : List Byte) {m : Memory} (hm : m.Pairwise (fun p q => p.1 < q.1)) :
    (m.writeBytes a v).Pairwise (fun p q => p.1 < q.1) := by
  induction v generalizing a m with
  | nil => exact hm
  | cons x v ih => exact ih _ (Memory.sorted_set a x hm)

/-- A write inside the memory keeps the canonical form. -/
theorem Memory.wf_writeBytes {n a : Nat} {v : List Byte} {m : Memory} (ha : v = [] ∨ a + v.length ≤ n)
    (h : Memory.wf n m = true) : Memory.wf n (m.writeBytes a v) = true := by
  induction v generalizing a m with
  | nil => exact h
  | cons x v ih =>
    have hx : a + (v.length + 1) ≤ n := by simpa using ha
    exact ih (.inr (by omega)) (Memory.wf_set (by omega) h)

/-- Read after write: the written bytes, and every other byte as before. -/
theorem Memory.read_writeBytes (a : Nat) (v : List Byte) (b : Nat) {m : Memory} (hm : m.Pairwise (fun p q => p.1 < q.1)) :
    (m.writeBytes a v).read b = if a ≤ b ∧ b < a + v.length then v.getD (b - a) 0 else m.read b := by
  induction v generalizing a m with
  | nil =>
    rw [if_neg (by simp)]
    rfl
  | cons x v ih =>
    rw [Memory.writeBytes, ih _ (Memory.sorted_set a x hm), Memory.read_set a x b hm, List.length_cons]
    by_cases hb : b = a
    · subst hb
      rw [if_neg (by omega), if_pos rfl, if_pos (by omega)]
      simp
    · rw [if_neg hb]
      by_cases hin : a + 1 ≤ b ∧ b < a + 1 + v.length
      · rw [if_pos hin, if_pos (by omega)]
        obtain ⟨k, hk⟩ : ∃ k, b - a = k + 1 := ⟨b - a - 1, by omega⟩
        rw [hk, List.getD_cons_succ, show b - (a + 1) = k by omega]
      · rw [if_neg hin, if_neg (by omega)]

/-- Equal memories are equal data. -/
theorem Memory.ext {n : Nat} {m m' : Memory} (h : Memory.wf n m = true) (h' : Memory.wf n m' = true)
    (heq : ∀ a, m.read a = m'.read a) : m = m' := by
  obtain ⟨hs, hall⟩ := (Memory.wf_iff n m).1 h
  obtain ⟨hs', hall'⟩ := (Memory.wf_iff n m').1 h'
  clear h h'
  induction m generalizing m' with
  | nil =>
    cases m' with
    | nil => rfl
    | cons q m' =>
      have h0 := heq q.1
      simp [Memory.read] at h0
      exact absurd h0.symm (hall' q (by simp)).2
  | cons p m ih =>
    obtain ⟨a, v⟩ := p
    cases m' with
    | nil =>
      have h0 := heq a
      simp [Memory.read] at h0
      exact absurd h0 (hall (a, v) (by simp)).2
    | cons q m' =>
      obtain ⟨b, w⟩ := q
      obtain ⟨ha, hm⟩ := List.pairwise_cons.1 hs
      obtain ⟨hb, hm'⟩ := List.pairwise_cons.1 hs'
      have hv := (hall (a, v) (by simp)).2
      have hw := (hall' (b, w) (by simp)).2
      have lowA : ∀ x, x ≤ a → Memory.read m x = 0 := fun x hx => Memory.read_of_lt fun p hp => hx.trans_lt (ha p hp)
      have lowB : ∀ x, x ≤ b → Memory.read m' x = 0 := fun x hx => Memory.read_of_lt fun p hp => hx.trans_lt (hb p hp)
      have hab : a = b := by
        rcases lt_trichotomy a b with hlt | rfl | hlt
        · have h0 := heq a
          simp only [Memory.read, ↓reduceIte, if_neg hlt.ne, lowB a hlt.le] at h0
          exact absurd h0 hv
        · rfl
        · have h0 := heq b
          simp only [Memory.read, ↓reduceIte, if_neg hlt.ne, lowA b hlt.le] at h0
          exact absurd h0.symm hw
      subst hab
      have hvw : v = w := by simpa [Memory.read] using heq a
      subst hvw
      congr 1
      refine ih (fun x => ?_) hm (fun p hp => hall p (by simp [hp])) hm' (fun p hp => hall' p (by simp [hp]))
      by_cases hx : x = a
      · rw [hx, lowA a le_rfl, lowB a le_rfl]
      · simpa [Memory.read, hx] using heq x

/-! ### Byte strings of DMEM -/

@[simp] theorem Memory.readBytes_length (m : Memory) (a n : Nat) : (m.readBytes a n).length = n := by
  simp [Memory.readBytes]

@[simp] theorem Memory.readBytes_zero (m : Memory) (a : Nat) : m.readBytes a 0 = [] := rfl

theorem Memory.readBytes_getD (m : Memory) (a n i : Nat) (hi : i < n) : (m.readBytes a n).getD i 0 = m.read (a + i) := by
  simp [Memory.readBytes, List.getD, hi]

theorem Memory.readBytes_getElem (m : Memory) (a n i : Nat) (hi : i < (m.readBytes a n).length) :
    (m.readBytes a n)[i] = m.read (a + i) := by
  simp [Memory.readBytes]

/-- Two consecutive writes are one write. -/
theorem Memory.writeBytes_append (m : Memory) (a : Nat) (u v : List Byte) :
    m.writeBytes a (u ++ v) = (m.writeBytes a u).writeBytes (a + u.length) v := by
  induction u generalizing m a with
  | nil => rfl
  | cons x u ih =>
    rw [List.cons_append, Memory.writeBytes, ih, List.length_cons, Memory.writeBytes, Nat.add_right_comm, Nat.add_assoc]

/-- Two consecutive reads are one read. -/
theorem Memory.readBytes_add (m : Memory) (a j k : Nat) :
    m.readBytes a (j + k) = m.readBytes a j ++ m.readBytes (a + j) k := by
  simp [Memory.readBytes, List.range_add, Nat.add_assoc]

theorem Memory.readBytes_take (m : Memory) (a n j : Nat) (hj : j ≤ n) : (m.readBytes a n).take j = m.readBytes a j := by
  obtain ⟨k, rfl⟩ := Nat.exists_eq_add_of_le hj
  rw [Memory.readBytes_add, List.take_append_of_le_length (by simp), List.take_of_length_le (by simp)]

theorem Memory.readBytes_drop (m : Memory) (a n j : Nat) (hj : j ≤ n) :
    (m.readBytes a n).drop j = m.readBytes (a + j) (n - j) := by
  obtain ⟨k, rfl⟩ := Nat.exists_eq_add_of_le hj
  rw [Memory.readBytes_add, List.drop_append_of_le_length (by simp), List.drop_of_length_le (by simp), List.nil_append,
    Nat.add_sub_cancel_left]

/-- Memories that read alike on a region give the same bytes there. -/
theorem Memory.readBytes_congr {m m' : Memory} {a n : Nat} (h : ∀ i, i < n → m.read (a + i) = m'.read (a + i)) :
    m.readBytes a n = m'.readBytes a n := by
  simpa [Memory.readBytes] using h

/-- Reading back what was written. -/
theorem Memory.readBytes_writeBytes_same {m : Memory} (a : Nat) (v : List Byte) (hm : m.Pairwise (fun p q => p.1 < q.1)) :
    (m.writeBytes a v).readBytes a v.length = v := by
  refine List.ext_getElem (by simp) fun i h1 h2 => ?_
  rw [Memory.readBytes_getElem, Memory.read_writeBytes a v _ hm, if_pos (by omega)]
  simp [List.getD, h2]

/-- Reading bytes none of which was written. -/
theorem Memory.readBytes_writeBytes_apart {m : Memory} (a b n : Nat) (v : List Byte)
    (hm : m.Pairwise (fun p q => p.1 < q.1)) (h : n = 0 ∨ v.length = 0 ∨ b + n ≤ a ∨ a + v.length ≤ b) :
    (m.writeBytes a v).readBytes b n = m.readBytes b n :=
  Memory.readBytes_congr fun i hi => by
    rw [Memory.read_writeBytes a v _ hm, if_neg (by omega)]

end Sys2Proof.Machine
end

