-- ==== Sys2Proof/Laws/State.lean ====
section
/-! SUPPORT. One lemma per field of `State` for each of the shared updates, all by `rfl`, so that no proof unfolds a record
update. -/

namespace Sys2Proof.Machine

/-! ### `wipeKs` -/

@[simp] theorem wipeKs_cfg (s : State) : (wipeKs s).cfg = s.cfg := rfl
@[simp] theorem wipeKs_src (s : State) : (wipeKs s).src = s.src := rfl
@[simp] theorem wipeKs_len (s : State) : (wipeKs s).len = s.len := rfl
@[simp] theorem wipeKs_dst (s : State) : (wipeKs s).dst = s.dst := rfl
@[simp] theorem wipeKs_dcap (s : State) : (wipeKs s).dcap = s.dcap := rfl
@[simp] theorem wipeKs_ad (s : State) : (wipeKs s).ad = s.ad := rfl
@[simp] theorem wipeKs_adlen (s : State) : (wipeKs s).adlen = s.adlen := rfl
@[simp] theorem wipeKs_tag (s : State) : (wipeKs s).tag = s.tag := rfl
@[simp] theorem wipeKs_klen (s : State) : (wipeKs s).klen = s.klen := rfl
@[simp] theorem wipeKs_nlen (s : State) : (wipeKs s).nlen = s.nlen := rfl
@[simp] theorem wipeKs_ctrLo (s : State) : (wipeKs s).ctrLo = s.ctrLo := rfl
@[simp] theorem wipeKs_ctrHi (s : State) : (wipeKs s).ctrHi = s.ctrHi := rfl
@[simp] theorem wipeKs_key (s : State) : (wipeKs s).key = s.key := rfl
@[simp] theorem wipeKs_nonce (s : State) : (wipeKs s).nonce = s.nonce := rfl
@[simp] theorem wipeKs_const (s : State) : (wipeKs s).const = s.const := rfl
@[simp] theorem wipeKs_ks (s : State) : (wipeKs s).ks = KsState.wiped := rfl
@[simp] theorem wipeKs_mac (s : State) : (wipeKs s).mac = s.mac := rfl
@[simp] theorem wipeKs_err (s : State) : (wipeKs s).err = s.err := rfl
@[simp] theorem wipeKs_vok (s : State) : (wipeKs s).vok = s.vok := rfl
@[simp] theorem wipeKs_fatal (s : State) : (wipeKs s).fatal = s.fatal := rfl
@[simp] theorem wipeKs_fcode (s : State) : (wipeKs s).fcode = s.fcode := rfl
@[simp] theorem wipeKs_dmem (s : State) : (wipeKs s).dmem = s.dmem := rfl
@[simp] theorem wipeKs_host (s : State) : (wipeKs s).host = s.host := rfl
@[simp] theorem wipeKs_answers (s : State) : (wipeKs s).answers = s.answers := rfl

/-! ### `wipeMac` -/

@[simp] theorem wipeMac_cfg (s : State) : (wipeMac s).cfg = s.cfg := rfl
@[simp] theorem wipeMac_src (s : State) : (wipeMac s).src = s.src := rfl
@[simp] theorem wipeMac_len (s : State) : (wipeMac s).len = s.len := rfl
@[simp] theorem wipeMac_dst (s : State) : (wipeMac s).dst = s.dst := rfl
@[simp] theorem wipeMac_dcap (s : State) : (wipeMac s).dcap = s.dcap := rfl
@[simp] theorem wipeMac_ad (s : State) : (wipeMac s).ad = s.ad := rfl
@[simp] theorem wipeMac_adlen (s : State) : (wipeMac s).adlen = s.adlen := rfl
@[simp] theorem wipeMac_tag (s : State) : (wipeMac s).tag = s.tag := rfl
@[simp] theorem wipeMac_klen (s : State) : (wipeMac s).klen = s.klen := rfl
@[simp] theorem wipeMac_nlen (s : State) : (wipeMac s).nlen = s.nlen := rfl
@[simp] theorem wipeMac_ctrLo (s : State) : (wipeMac s).ctrLo = s.ctrLo := rfl
@[simp] theorem wipeMac_ctrHi (s : State) : (wipeMac s).ctrHi = s.ctrHi := rfl
@[simp] theorem wipeMac_key (s : State) : (wipeMac s).key = s.key := rfl
@[simp] theorem wipeMac_nonce (s : State) : (wipeMac s).nonce = s.nonce := rfl
@[simp] theorem wipeMac_const (s : State) : (wipeMac s).const = s.const := rfl
@[simp] theorem wipeMac_ks (s : State) : (wipeMac s).ks = s.ks := rfl
@[simp] theorem wipeMac_mac (s : State) : (wipeMac s).mac = MacState.wiped := rfl
@[simp] theorem wipeMac_err (s : State) : (wipeMac s).err = s.err := rfl
@[simp] theorem wipeMac_vok (s : State) : (wipeMac s).vok = s.vok := rfl
@[simp] theorem wipeMac_fatal (s : State) : (wipeMac s).fatal = s.fatal := rfl
@[simp] theorem wipeMac_fcode (s : State) : (wipeMac s).fcode = s.fcode := rfl
@[simp] theorem wipeMac_dmem (s : State) : (wipeMac s).dmem = s.dmem := rfl
@[simp] theorem wipeMac_host (s : State) : (wipeMac s).host = s.host := rfl
@[simp] theorem wipeMac_answers (s : State) : (wipeMac s).answers = s.answers := rfl

/-! ### `wipeUnits` -/

@[simp] theorem wipeUnits_cfg (s : State) : (wipeUnits s).cfg = s.cfg := rfl
@[simp] theorem wipeUnits_src (s : State) : (wipeUnits s).src = s.src := rfl
@[simp] theorem wipeUnits_len (s : State) : (wipeUnits s).len = s.len := rfl
@[simp] theorem wipeUnits_dst (s : State) : (wipeUnits s).dst = s.dst := rfl
@[simp] theorem wipeUnits_dcap (s : State) : (wipeUnits s).dcap = s.dcap := rfl
@[simp] theorem wipeUnits_ad (s : State) : (wipeUnits s).ad = s.ad := rfl
@[simp] theorem wipeUnits_adlen (s : State) : (wipeUnits s).adlen = s.adlen := rfl
@[simp] theorem wipeUnits_tag (s : State) : (wipeUnits s).tag = s.tag := rfl
@[simp] theorem wipeUnits_klen (s : State) : (wipeUnits s).klen = s.klen := rfl
@[simp] theorem wipeUnits_nlen (s : State) : (wipeUnits s).nlen = s.nlen := rfl
@[simp] theorem wipeUnits_ctrLo (s : State) : (wipeUnits s).ctrLo = s.ctrLo := rfl
@[simp] theorem wipeUnits_ctrHi (s : State) : (wipeUnits s).ctrHi = s.ctrHi := rfl
@[simp] theorem wipeUnits_key (s : State) : (wipeUnits s).key = s.key := rfl
@[simp] theorem wipeUnits_nonce (s : State) : (wipeUnits s).nonce = s.nonce := rfl
@[simp] theorem wipeUnits_const (s : State) : (wipeUnits s).const = s.const := rfl
@[simp] theorem wipeUnits_ks (s : State) : (wipeUnits s).ks = KsState.wiped := rfl
@[simp] theorem wipeUnits_mac (s : State) : (wipeUnits s).mac = MacState.wiped := rfl
@[simp] theorem wipeUnits_err (s : State) : (wipeUnits s).err = s.err := rfl
@[simp] theorem wipeUnits_vok (s : State) : (wipeUnits s).vok = s.vok := rfl
@[simp] theorem wipeUnits_fatal (s : State) : (wipeUnits s).fatal = s.fatal := rfl
@[simp] theorem wipeUnits_fcode (s : State) : (wipeUnits s).fcode = s.fcode := rfl
@[simp] theorem wipeUnits_dmem (s : State) : (wipeUnits s).dmem = s.dmem := rfl
@[simp] theorem wipeUnits_host (s : State) : (wipeUnits s).host = s.host := rfl
@[simp] theorem wipeUnits_answers (s : State) : (wipeUnits s).answers = s.answers := rfl

/-! ### `finish` -/

@[simp] theorem finish_cfg (vok : Bool) (s : State) : (finish vok s).cfg = s.cfg := rfl
@[simp] theorem finish_src (vok : Bool) (s : State) : (finish vok s).src = s.src := rfl
@[simp] theorem finish_len (vok : Bool) (s : State) : (finish vok s).len = s.len := rfl
@[simp] theorem finish_dst (vok : Bool) (s : State) : (finish vok s).dst = s.dst := rfl
@[simp] theorem finish_dcap (vok : Bool) (s : State) : (finish vok s).dcap = s.dcap := rfl
@[simp] theorem finish_ad (vok : Bool) (s : State) : (finish vok s).ad = s.ad := rfl
@[simp] theorem finish_adlen (vok : Bool) (s : State) : (finish vok s).adlen = s.adlen := rfl
@[simp] theorem finish_tag (vok : Bool) (s : State) : (finish vok s).tag = s.tag := rfl
@[simp] theorem finish_klen (vok : Bool) (s : State) : (finish vok s).klen = s.klen := rfl
@[simp] theorem finish_nlen (vok : Bool) (s : State) : (finish vok s).nlen = s.nlen := rfl
@[simp] theorem finish_ctrLo (vok : Bool) (s : State) : (finish vok s).ctrLo = s.ctrLo := rfl
@[simp] theorem finish_ctrHi (vok : Bool) (s : State) : (finish vok s).ctrHi = s.ctrHi := rfl
@[simp] theorem finish_key (vok : Bool) (s : State) : (finish vok s).key = s.key := rfl
@[simp] theorem finish_nonce (vok : Bool) (s : State) : (finish vok s).nonce = s.nonce := rfl
@[simp] theorem finish_const (vok : Bool) (s : State) : (finish vok s).const = s.const := rfl
@[simp] theorem finish_ks (vok : Bool) (s : State) : (finish vok s).ks = s.ks := rfl
@[simp] theorem finish_mac (vok : Bool) (s : State) : (finish vok s).mac = s.mac := rfl
@[simp] theorem finish_err (vok : Bool) (s : State) : (finish vok s).err = .ok := rfl
@[simp] theorem finish_vok (vok : Bool) (s : State) : (finish vok s).vok = vok := rfl
@[simp] theorem finish_fatal (vok : Bool) (s : State) : (finish vok s).fatal = s.fatal := rfl
@[simp] theorem finish_fcode (vok : Bool) (s : State) : (finish vok s).fcode = s.fcode := rfl
@[simp] theorem finish_dmem (vok : Bool) (s : State) : (finish vok s).dmem = s.dmem := rfl
@[simp] theorem finish_host (vok : Bool) (s : State) : (finish vok s).host = s.host := rfl
@[simp] theorem finish_answers (vok : Bool) (s : State) : (finish vok s).answers = s.answers := rfl

/-! ### `raiseError` -/

@[simp] theorem raiseError_cfg (c : ErrCode) (s : State) : (raiseError c s).cfg = s.cfg := rfl
@[simp] theorem raiseError_src (c : ErrCode) (s : State) : (raiseError c s).src = s.src := rfl
@[simp] theorem raiseError_len (c : ErrCode) (s : State) : (raiseError c s).len = s.len := rfl
@[simp] theorem raiseError_dst (c : ErrCode) (s : State) : (raiseError c s).dst = s.dst := rfl
@[simp] theorem raiseError_dcap (c : ErrCode) (s : State) : (raiseError c s).dcap = s.dcap := rfl
@[simp] theorem raiseError_ad (c : ErrCode) (s : State) : (raiseError c s).ad = s.ad := rfl
@[simp] theorem raiseError_adlen (c : ErrCode) (s : State) : (raiseError c s).adlen = s.adlen := rfl
@[simp] theorem raiseError_tag (c : ErrCode) (s : State) : (raiseError c s).tag = s.tag := rfl
@[simp] theorem raiseError_klen (c : ErrCode) (s : State) : (raiseError c s).klen = s.klen := rfl
@[simp] theorem raiseError_nlen (c : ErrCode) (s : State) : (raiseError c s).nlen = s.nlen := rfl
@[simp] theorem raiseError_ctrLo (c : ErrCode) (s : State) : (raiseError c s).ctrLo = s.ctrLo := rfl
@[simp] theorem raiseError_ctrHi (c : ErrCode) (s : State) : (raiseError c s).ctrHi = s.ctrHi := rfl
@[simp] theorem raiseError_key (c : ErrCode) (s : State) : (raiseError c s).key = s.key := rfl
@[simp] theorem raiseError_nonce (c : ErrCode) (s : State) : (raiseError c s).nonce = s.nonce := rfl
@[simp] theorem raiseError_const (c : ErrCode) (s : State) : (raiseError c s).const = s.const := rfl
@[simp] theorem raiseError_ks (c : ErrCode) (s : State) : (raiseError c s).ks = s.ks := rfl
@[simp] theorem raiseError_mac (c : ErrCode) (s : State) : (raiseError c s).mac = s.mac := rfl
@[simp] theorem raiseError_err (c : ErrCode) (s : State) : (raiseError c s).err = c := rfl
@[simp] theorem raiseError_vok (c : ErrCode) (s : State) : (raiseError c s).vok = false := rfl
@[simp] theorem raiseError_fatal (c : ErrCode) (s : State) : (raiseError c s).fatal = s.fatal := rfl
@[simp] theorem raiseError_fcode (c : ErrCode) (s : State) : (raiseError c s).fcode = s.fcode := rfl
@[simp] theorem raiseError_dmem (c : ErrCode) (s : State) : (raiseError c s).dmem = s.dmem := rfl
@[simp] theorem raiseError_host (c : ErrCode) (s : State) : (raiseError c s).host = s.host := rfl
@[simp] theorem raiseError_answers (c : ErrCode) (s : State) : (raiseError c s).answers = s.answers := rfl

/-! ### `writeAt` -/

@[simp] theorem writeAt_cfg (a : Nat) (v : List Byte) (s : State) : (writeAt a v s).cfg = s.cfg := rfl
@[simp] theorem writeAt_src (a : Nat) (v : List Byte) (s : State) : (writeAt a v s).src = s.src := rfl
@[simp] theorem writeAt_len (a : Nat) (v : List Byte) (s : State) : (writeAt a v s).len = s.len := rfl
@[simp] theorem writeAt_dst (a : Nat) (v : List Byte) (s : State) : (writeAt a v s).dst = s.dst := rfl
@[simp] theorem writeAt_dcap (a : Nat) (v : List Byte) (s : State) : (writeAt a v s).dcap = s.dcap := rfl
@[simp] theorem writeAt_ad (a : Nat) (v : List Byte) (s : State) : (writeAt a v s).ad = s.ad := rfl
@[simp] theorem writeAt_adlen (a : Nat) (v : List Byte) (s : State) : (writeAt a v s).adlen = s.adlen := rfl
@[simp] theorem writeAt_tag (a : Nat) (v : List Byte) (s : State) : (writeAt a v s).tag = s.tag := rfl
@[simp] theorem writeAt_klen (a : Nat) (v : List Byte) (s : State) : (writeAt a v s).klen = s.klen := rfl
@[simp] theorem writeAt_nlen (a : Nat) (v : List Byte) (s : State) : (writeAt a v s).nlen = s.nlen := rfl
@[simp] theorem writeAt_ctrLo (a : Nat) (v : List Byte) (s : State) : (writeAt a v s).ctrLo = s.ctrLo := rfl
@[simp] theorem writeAt_ctrHi (a : Nat) (v : List Byte) (s : State) : (writeAt a v s).ctrHi = s.ctrHi := rfl
@[simp] theorem writeAt_key (a : Nat) (v : List Byte) (s : State) : (writeAt a v s).key = s.key := rfl
@[simp] theorem writeAt_nonce (a : Nat) (v : List Byte) (s : State) : (writeAt a v s).nonce = s.nonce := rfl
@[simp] theorem writeAt_const (a : Nat) (v : List Byte) (s : State) : (writeAt a v s).const = s.const := rfl
@[simp] theorem writeAt_ks (a : Nat) (v : List Byte) (s : State) : (writeAt a v s).ks = s.ks := rfl
@[simp] theorem writeAt_mac (a : Nat) (v : List Byte) (s : State) : (writeAt a v s).mac = s.mac := rfl
@[simp] theorem writeAt_err (a : Nat) (v : List Byte) (s : State) : (writeAt a v s).err = s.err := rfl
@[simp] theorem writeAt_vok (a : Nat) (v : List Byte) (s : State) : (writeAt a v s).vok = s.vok := rfl
@[simp] theorem writeAt_fatal (a : Nat) (v : List Byte) (s : State) : (writeAt a v s).fatal = s.fatal := rfl
@[simp] theorem writeAt_fcode (a : Nat) (v : List Byte) (s : State) : (writeAt a v s).fcode = s.fcode := rfl
@[simp] theorem writeAt_dmem (a : Nat) (v : List Byte) (s : State) : (writeAt a v s).dmem = s.dmem.writeBytes a v := rfl
@[simp] theorem writeAt_host (a : Nat) (v : List Byte) (s : State) : (writeAt a v s).host = s.host := rfl
@[simp] theorem writeAt_answers (a : Nat) (v : List Byte) (s : State) : (writeAt a v s).answers = s.answers := rfl

/-! ### `raiseFatal` -/

@[simp] theorem raiseFatal_cfg (f : FatalCode) (s : State) : (raiseFatal f s).cfg = s.cfg := rfl
@[simp] theorem raiseFatal_src (f : FatalCode) (s : State) : (raiseFatal f s).src = 0 := rfl
@[simp] theorem raiseFatal_len (f : FatalCode) (s : State) : (raiseFatal f s).len = 0 := rfl
@[simp] theorem raiseFatal_dst (f : FatalCode) (s : State) : (raiseFatal f s).dst = 0 := rfl
@[simp] theorem raiseFatal_dcap (f : FatalCode) (s : State) : (raiseFatal f s).dcap = 0 := rfl
@[simp] theorem raiseFatal_ad (f : FatalCode) (s : State) : (raiseFatal f s).ad = 0 := rfl
@[simp] theorem raiseFatal_adlen (f : FatalCode) (s : State) : (raiseFatal f s).adlen = 0 := rfl
@[simp] theorem raiseFatal_tag (f : FatalCode) (s : State) : (raiseFatal f s).tag = 0 := rfl
@[simp] theorem raiseFatal_klen (f : FatalCode) (s : State) : (raiseFatal f s).klen = 0 := rfl
@[simp] theorem raiseFatal_nlen (f : FatalCode) (s : State) : (raiseFatal f s).nlen = 0 := rfl
@[simp] theorem raiseFatal_ctrLo (f : FatalCode) (s : State) : (raiseFatal f s).ctrLo = 0 := rfl
@[simp] theorem raiseFatal_ctrHi (f : FatalCode) (s : State) : (raiseFatal f s).ctrHi = 0 := rfl
@[simp] theorem raiseFatal_key (f : FatalCode) (s : State) : (raiseFatal f s).key = Vector.replicate 8 0 := rfl
@[simp] theorem raiseFatal_nonce (f : FatalCode) (s : State) : (raiseFatal f s).nonce = Vector.replicate 6 0 := rfl
@[simp] theorem raiseFatal_const (f : FatalCode) (s : State) : (raiseFatal f s).const = s.const := rfl
@[simp] theorem raiseFatal_ks (f : FatalCode) (s : State) : (raiseFatal f s).ks = KsState.wiped := rfl
@[simp] theorem raiseFatal_mac (f : FatalCode) (s : State) : (raiseFatal f s).mac = MacState.wiped := rfl
@[simp] theorem raiseFatal_err (f : FatalCode) (s : State) : (raiseFatal f s).err = .fatalMarker := rfl
@[simp] theorem raiseFatal_vok (f : FatalCode) (s : State) : (raiseFatal f s).vok = false := rfl
@[simp] theorem raiseFatal_fatal (f : FatalCode) (s : State) : (raiseFatal f s).fatal = true := rfl
@[simp] theorem raiseFatal_fcode (f : FatalCode) (s : State) : (raiseFatal f s).fcode = f := rfl
@[simp] theorem raiseFatal_dmem (f : FatalCode) (s : State) : (raiseFatal f s).dmem = s.dmem := rfl
@[simp] theorem raiseFatal_host (f : FatalCode) (s : State) : (raiseFatal f s).host = s.host := rfl
@[simp] theorem raiseFatal_answers (f : FatalCode) (s : State) : (raiseFatal f s).answers = s.answers := rfl

/-! ### `resetBlock` -/

@[simp] theorem resetBlock_cfg (s : State) : (resetBlock s).cfg = s.cfg := rfl
@[simp] theorem resetBlock_src (s : State) : (resetBlock s).src = 0 := rfl
@[simp] theorem resetBlock_len (s : State) : (resetBlock s).len = 0 := rfl
@[simp] theorem resetBlock_dst (s : State) : (resetBlock s).dst = 0 := rfl
@[simp] theorem resetBlock_dcap (s : State) : (resetBlock s).dcap = 0 := rfl
@[simp] theorem resetBlock_ad (s : State) : (resetBlock s).ad = 0 := rfl
@[simp] theorem resetBlock_adlen (s : State) : (resetBlock s).adlen = 0 := rfl
@[simp] theorem resetBlock_tag (s : State) : (resetBlock s).tag = 0 := rfl
@[simp] theorem resetBlock_klen (s : State) : (resetBlock s).klen = 0 := rfl
@[simp] theorem resetBlock_nlen (s : State) : (resetBlock s).nlen = 0 := rfl
@[simp] theorem resetBlock_ctrLo (s : State) : (resetBlock s).ctrLo = 0 := rfl
@[simp] theorem resetBlock_ctrHi (s : State) : (resetBlock s).ctrHi = 0 := rfl
@[simp] theorem resetBlock_key (s : State) : (resetBlock s).key = Vector.replicate 8 0 := rfl
@[simp] theorem resetBlock_nonce (s : State) : (resetBlock s).nonce = Vector.replicate 6 0 := rfl
@[simp] theorem resetBlock_const (s : State) : (resetBlock s).const = sigmaWords := rfl
@[simp] theorem resetBlock_ks (s : State) : (resetBlock s).ks = KsState.wiped := rfl
@[simp] theorem resetBlock_mac (s : State) : (resetBlock s).mac = MacState.wiped := rfl
@[simp] theorem resetBlock_err (s : State) : (resetBlock s).err = .ok := rfl
@[simp] theorem resetBlock_vok (s : State) : (resetBlock s).vok = false := rfl
@[simp] theorem resetBlock_fatal (s : State) : (resetBlock s).fatal = false := rfl
@[simp] theorem resetBlock_fcode (s : State) : (resetBlock s).fcode = .none := rfl
@[simp] theorem resetBlock_dmem (s : State) : (resetBlock s).dmem = [] := rfl
@[simp] theorem resetBlock_host (s : State) : (resetBlock s).host = s.host := rfl
@[simp] theorem resetBlock_answers (s : State) : (resetBlock s).answers = s.answers := rfl

end Sys2Proof.Machine
end

