-- ==== Sys2Proof/Laws/Command.lean ====
section
/-! SUPPORT. The shape of every command, said once: its checks (`checksOf`), its effect (`effectOf`), and the three ways it can
end. Region checks in the terms of the statements. -/

namespace Sys2Proof.Machine

/-! ### Checks -/

@[simp] theorem firstFailure_nil : firstFailure [] = none := rfl

theorem firstFailure_cons (c : Check) (cs : List Check) :
    firstFailure (c :: cs) = if c.holds then firstFailure cs else some c.event := rfl

theorem firstFailure_cons_pass {c : Check} (h : c.holds = true) (cs : List Check) :
    firstFailure (c :: cs) = firstFailure cs := by simp [firstFailure, h]

theorem firstFailure_cons_fail {c : Check} (h : c.holds = false) (cs : List Check) :
    firstFailure (c :: cs) = some c.event := by simp [firstFailure, h]

theorem firstFailure_none_iff (cs : List Check) : firstFailure cs = none ↔ ∀ c ∈ cs, c.holds = true := by
  induction cs with
  | nil => simp
  | cons c cs ih =>
    rw [firstFailure]
    split <;> simp_all

/-- The event reported is the event of one of the checks, which failed. -/
theorem firstFailure_some {cs : List Check} {e : Event} (h : firstFailure cs = some e) :
    ∃ c ∈ cs, c.holds = false ∧ c.event = e := by
  induction cs with
  | nil => simp at h
  | cons c cs ih =>
    rw [firstFailure] at h
    split at h
    next =>
      obtain ⟨d, hd, h⟩ := ih h
      exact ⟨d, by simp [hd], h⟩
    next hc => exact ⟨c, by simp, by simpa using hc, by simpa using h⟩

/-! ### Running a command -/

/-- In the fatal state a command is ignored. -/
theorem runCommand_fatal {s : State} (h : s.fatal = true) (cs : List Check) (f : State → State) :
    runCommand cs f s = .next s := by simp [runCommand, h]

/-- A command whose checks pass has its effect. -/
theorem runCommand_pass {s : State} {cs : List Check} (h : s.fatal = false) (hc : firstFailure cs = none) (f : State → State) :
    runCommand cs f s = .next (f s) := by simp [runCommand, h, hc]

/-- A command with a failing check takes that check's event. -/
theorem runCommand_fail {s : State} {cs : List Check} {e : Event} (h : s.fatal = false) (hc : firstFailure cs = some e)
    (f : State → State) : runCommand cs f s = .next (takeEvent e s) := by simp [runCommand, h, hc]

/-- Everything a command can do. -/
theorem runCommand_cases {s t : State} {cs : List Check} {f : State → State} (h : runCommand cs f s = .next t) :
    (s.fatal = true ∧ t = s)
      ∨ (s.fatal = false ∧ ∃ e, firstFailure cs = some e ∧ t = takeEvent e s)
      ∨ (s.fatal = false ∧ firstFailure cs = none ∧ t = f s) := by
  rw [runCommand] at h
  split at h
  next hf => exact .inl ⟨hf, by simpa using h.symm⟩
  next hf =>
    have hf : s.fatal = false := by simpa using hf
    split at h
    next e he => exact .inr (.inl ⟨hf, e, he, by simpa using h.symm⟩)
    next he => exact .inr (.inr ⟨hf, he, by simpa using h.symm⟩)

/-! ### The checks and the effect of each command -/

/-- KS_INIT's effect. -/
def ksInitEffect (alg : Alg) (s : State) : State := finish false { s with ks := ksLoad alg s.key (nonceB s) }

/-- DERIVE's effect. -/
def deriveEffect (h : List Byte → List Byte → List Byte → List Byte) (s : State) : State :=
  finish false (writeAt s.dst.toNat (h (keyB s) ((nonceB s).take 16) (constB s)) s)

/-- DERIVE's checks. -/
def deriveChecks (s : State) : List Check :=
  [checkKeyLength s, checkPrefixLength s, checkConstant s, checkCapacity 32 s, checkRange [dstRegion s] s]

/-- The bytes AEAD_SEAL and AEAD_SEAL_DET compute: ciphertext and tag. -/
def sealed (alg : Alg) (s : State) : List Byte × List Byte :=
  sealStaged alg s (readRegion (adRegion s) s) (readRegion (srcRegion s) s)

/-- AEAD_SEAL's effect. -/
def sealEffect (alg : Alg) (s : State) : State :=
  finish false
    (wipeUnits (writeAt (s.dst.toNat + s.len.toNat) (sealed alg s).2 (writeAt s.dst.toNat (sealed alg s).1 s)))

/-- AEAD_SEAL_DET's effect. -/
def sealDetEffect (alg : Alg) (s : State) : State :=
  finish false (wipeUnits (writeAt s.tag.toNat (sealed alg s).2 (writeAt s.dst.toNat (sealed alg s).1 s)))

/-- What AEAD_OPEN releases. -/
def opened (alg : Alg) (s : State) : Option (List Byte) :=
  openStaged alg s (readRegion (adRegion s) s) ((readRegion (srcRegion s) s).take (s.len.toNat - tagBytes))
    ((readRegion (srcRegion s) s).drop (s.len.toNat - tagBytes))

/-- What AEAD_OPEN_DET releases. -/
def openedDet (alg : Alg) (s : State) : Option (List Byte) :=
  openStaged alg s (readRegion (adRegion s) s) (readRegion (srcRegion s) s) (readRegion (tagRegion s) s)

/-- AEAD_SEAL's checks. -/
def sealChecks (alg : Alg) (s : State) : List Check :=
  [checkKeyLength s, checkNonceLength alg s, checkCapacity (s.len.toNat + tagBytes) s,
    checkRange [srcRegion s, adRegion s, dstRegion s] s,
    checkOverlap ⟨srcRegion s, [adRegion s], dstExtent (s.len.toNat + tagBytes) s, []⟩]

/-- AEAD_SEAL_DET's checks. -/
def sealDetChecks (alg : Alg) (s : State) : List Check :=
  [checkKeyLength s, checkNonceLength alg s, checkCapacity s.len.toNat s,
    checkRange [srcRegion s, adRegion s, dstRegion s, tagRegion s] s,
    checkOverlap ⟨srcRegion s, [adRegion s], dstExtent s.len.toNat s, [tagRegion s]⟩]

/-- AEAD_OPEN's checks. -/
def openChecks (alg : Alg) (s : State) : List Check :=
  [checkKeyLength s, checkNonceLength alg s, checkCipherLength s, checkCapacity (s.len.toNat - tagBytes) s,
    checkRange [srcRegion s, adRegion s, dstRegion s] s,
    checkOverlap ⟨srcRegion s, [adRegion s], dstExtent (s.len.toNat - tagBytes) s, []⟩]

/-- AEAD_OPEN_DET's checks. -/
def openDetChecks (alg : Alg) (s : State) : List Check :=
  [checkKeyLength s, checkNonceLength alg s, checkCapacity s.len.toNat s,
    checkRange [srcRegion s, adRegion s, tagRegion s, dstRegion s] s,
    checkOverlap ⟨srcRegion s, [adRegion s, tagRegion s], dstExtent s.len.toNat s, []⟩]

/-- The checks of a command, in their order. -/
def checksOf (i : Instr) (s : State) : List Check :=
  match i with
  | .nop | .wipeAll | .ksWipe | .macWipe => []
  | .bufWipe => [checkRange [dstRegion s] s]
  | .ksInitChacha20 => [checkKeyLength s, checkNonceLength .chacha20 s]
  | .ksInitChacha20Ietf => [checkKeyLength s, checkNonceLength .chacha20Ietf s]
  | .ksInitXchacha20 => [checkKeyLength s, checkNonceLength .xchacha20 s]
  | .ksInitSalsa20 => [checkKeyLength s, checkNonceLength .salsa20 s]
  | .ksInitXsalsa20 => [checkKeyLength s, checkNonceLength .xsalsa20 s]
  | .ksSeek => [checkKsKeyed s, checkCounterRange s]
  | .ksStream => [checkKsKeyed s, checkRange [dstRegion s] s, checkBlocks s.dcap.toNat s]
  | .ksXor =>
    [checkKsKeyed s, checkCapacity s.len.toNat s, checkRange [srcRegion s, dstRegion s] s,
      checkOverlap ⟨srcRegion s, [], dstExtent s.len.toNat s, []⟩, checkBlocks s.len.toNat s]
  | .deriveXchacha20 | .deriveXsalsa20 => deriveChecks s
  | .macInit => [checkKeyLength s]
  | .macWrite => [checkMacUsable s, checkRange [srcRegion s] s]
  | .macSum => [checkMacUsable s, checkMacWritten s, checkCapacity tagBytes s, checkRange [dstRegion s] s]
  | .macVerify => [checkMacUsable s, checkMacWritten s, checkRange [tagRegion s] s]
  | .aeadSealChacha20 => sealChecks .chacha20 s
  | .aeadSealChacha20Ietf => sealChecks .chacha20Ietf s
  | .aeadSealXchacha20 => sealChecks .xchacha20 s
  | .aeadSealXsalsa20 => sealChecks .xsalsa20 s
  | .aeadSealDetChacha20 => sealDetChecks .chacha20 s
  | .aeadSealDetChacha20Ietf => sealDetChecks .chacha20Ietf s
  | .aeadSealDetXchacha20 => sealDetChecks .xchacha20 s
  | .aeadSealDetXsalsa20 => sealDetChecks .xsalsa20 s
  | .aeadOpenChacha20 => openChecks .chacha20 s
  | .aeadOpenChacha20Ietf => openChecks .chacha20Ietf s
  | .aeadOpenXchacha20 => openChecks .xchacha20 s
  | .aeadOpenXsalsa20 => openChecks .xsalsa20 s
  | .aeadOpenDetChacha20 => openDetChecks .chacha20 s
  | .aeadOpenDetChacha20Ietf => openDetChecks .chacha20Ietf s
  | .aeadOpenDetXchacha20 => openDetChecks .xchacha20 s
  | .aeadOpenDetXsalsa20 => openDetChecks .xsalsa20 s

/-- The effect of a command whose checks pass. -/
def effectOf (i : Instr) (s : State) : State :=
  match i with
  | .nop => finish false s
  | .bufWipe => finish false (writeAt s.dst.toNat (zeros s.dcap.toNat) s)
  | .wipeAll =>
    finish false { wipeMac (wipeKs s) with key := Vector.replicate 8 0, nonce := Vector.replicate 6 0 }
  | .ksInitChacha20 => ksInitEffect .chacha20 s
  | .ksInitChacha20Ietf => ksInitEffect .chacha20Ietf s
  | .ksInitXchacha20 => ksInitEffect .xchacha20 s
  | .ksInitSalsa20 => ksInitEffect .salsa20 s
  | .ksInitXsalsa20 => ksInitEffect .xsalsa20 s
  | .ksSeek => finish false { s with ks := ksSeekTo (counterOperand s) s.ks }
  | .ksStream =>
    finish false
      (writeAt s.dst.toNat (consume s.dcap.toNat s.ks).1 { s with ks := (consume s.dcap.toNat s.ks).2 })
  | .ksXor =>
    finish false
      (writeAt s.dst.toNat (xorBytes (readRegion (srcRegion s) s) (consume s.len.toNat s.ks).1)
        { s with ks := (consume s.len.toNat s.ks).2 })
  | .ksWipe => finish false (wipeKs s)
  | .deriveXchacha20 => deriveEffect hchacha20 s
  | .deriveXsalsa20 => deriveEffect hsalsa20 s
  | .macInit => finish false { s with mac := macKeyed (keyB s) }
  | .macWrite =>
    finish false { s with mac := { macWrite s.mac (readRegion (srcRegion s) s) with written := true } }
  | .macSum => finish false { writeAt s.dst.toNat (macFinal s.mac) s with mac := macSpend s.mac }
  | .macVerify =>
    finish (tagsEqual (macFinal s.mac) (readRegion (tagRegion s) s)) { s with mac := macSpend s.mac }
  | .macWipe => finish false (wipeMac s)
  | .aeadSealChacha20 => sealEffect .chacha20 s
  | .aeadSealChacha20Ietf => sealEffect .chacha20Ietf s
  | .aeadSealXchacha20 => sealEffect .xchacha20 s
  | .aeadSealXsalsa20 => sealEffect .xsalsa20 s
  | .aeadSealDetChacha20 => sealDetEffect .chacha20 s
  | .aeadSealDetChacha20Ietf => sealDetEffect .chacha20Ietf s
  | .aeadSealDetXchacha20 => sealDetEffect .xchacha20 s
  | .aeadSealDetXsalsa20 => sealDetEffect .xsalsa20 s
  | .aeadOpenChacha20 => finishOpen (opened .chacha20 s) s
  | .aeadOpenChacha20Ietf => finishOpen (opened .chacha20Ietf s) s
  | .aeadOpenXchacha20 => finishOpen (opened .xchacha20 s) s
  | .aeadOpenXsalsa20 => finishOpen (opened .xsalsa20 s) s
  | .aeadOpenDetChacha20 => finishOpen (openedDet .chacha20 s) s
  | .aeadOpenDetChacha20Ietf => finishOpen (openedDet .chacha20Ietf s) s
  | .aeadOpenDetXchacha20 => finishOpen (openedDet .xchacha20 s) s
  | .aeadOpenDetXsalsa20 => finishOpen (openedDet .xsalsa20 s) s

/-- Every command is its checks and its effect. -/
theorem exec_eq (i : Instr) (s : State) : exec i s = runCommand (checksOf i s) (effectOf i) s := by
  cases i <;> rfl

/-- Everything a command can do. -/
theorem exec_cases {i : Instr} {s t : State} (h : exec i s = .next t) :
    (s.fatal = true ∧ t = s)
      ∨ (s.fatal = false ∧ ∃ e, firstFailure (checksOf i s) = some e ∧ t = takeEvent e s)
      ∨ (s.fatal = false ∧ firstFailure (checksOf i s) = none ∧ t = effectOf i s) :=
  runCommand_cases (exec_eq i s ▸ h)

/-- Every command ends in a next state. -/
theorem exec_next (i : Instr) (s : State) : ∃ t, exec i s = .next t := by
  rw [exec_eq, runCommand]
  split
  · exact ⟨s, rfl⟩
  · split <;> exact ⟨_, rfl⟩

/-! ### Regions -/

theorem Region.inRange_iff (cfg : Config) (r : Region) :
    r.inRange cfg = true ↔ r.len = 0 ∨ r.off + r.len ≤ cfg.dmemBytes := by
  simp [Region.inRange]

theorem Region.overlaps_eq_false_iff (p q : Region) : p.overlaps q = false ↔ Apart p.off p.len q.off q.len := by
  rw [Bool.eq_false_iff, Ne, Region.overlaps]
  simp only [Bool.and_eq_true, decide_eq_true_eq, Apart]
  omega

theorem Extents.allowed_iff (e : Extents) :
    e.allowed = true ↔
      (e.src.off = e.dst.off ∨ Apart e.src.off e.src.len e.dst.off e.dst.len)
        ∧ (∀ w ∈ e.otherWrites, Apart e.src.off e.src.len w.off w.len ∧ Apart e.dst.off e.dst.len w.off w.len)
        ∧ ∀ r ∈ e.otherReads, Apart r.off r.len e.dst.off e.dst.len
            ∧ ∀ w ∈ e.otherWrites, Apart r.off r.len w.off w.len := by
  simp only [Extents.allowed, Bool.and_eq_true, Bool.or_eq_true, Bool.not_eq_true', decide_eq_true_eq, List.all_eq_true,
    Region.overlaps_eq_false_iff, and_assoc]
  rw [or_comm]

end Sys2Proof.Machine
end

