-- ==== Sys2Proof/Laws/Keystream.lean ====
section
/-! SUPPORT. The KS unit's operations: how long their outputs are and what of the unit they keep. -/

namespace Sys2Proof.Machine

@[simp] theorem addAndSerialise_length (z x : Matrix) : (addAndSerialise z x).length = 64 := by
  simp [addAndSerialise]

@[simp] theorem chachaBlock_length (x : Matrix) : (chachaBlock x).length = 64 := addAndSerialise_length ..

@[simp] theorem salsaBlock_length (x : Matrix) : (salsaBlock x).length = 64 := addAndSerialise_length ..

@[simp] theorem ksBlock_length (ks : KsState) : (ksBlock ks).length = 64 := by
  rw [ksBlock]
  split <;> simp

@[simp] theorem hchacha20_length (k n c : List Byte) : (hchacha20 k n c).length = 32 := by simp [hchacha20]

@[simp] theorem hsalsa20_length (k n c : List Byte) : (hsalsa20 k n c).length = 32 := by simp [hsalsa20]

@[simp] theorem nextBlock_fst (ks : KsState) : (nextBlock ks).1 = ksBlock ks := rfl

@[simp] theorem nextBlock_snd (ks : KsState) : (nextBlock ks).2 = ksAdvance ks := rfl

/-- A block depends on the variant, the key, the nonce and the counter alone. -/
theorem ksBlock_congr {ks ks' : KsState} (ha : ks.alg = ks'.alg) (hk : ks.key = ks'.key) (hn : ks.nonce = ks'.nonce)
    (hc : ks.ctr = ks'.ctr) : ksBlock ks = ksBlock ks' := by
  obtain ⟨_, a, k, n, c, _, _, _⟩ := ks
  obtain ⟨_, a', k', n', c', _, _, _⟩ := ks'
  simp only at ha hk hn hc
  subst ha hk hn hc
  cases a <;> rfl

theorem ksAdvance_eq (ks : KsState) :
    ksAdvance ks = { ks with ctr := (ksAdvance ks).ctr, wrap := (ksAdvance ks).wrap } := by
  rw [ksAdvance]
  split <;> rfl

/-- The counter one further, or back at 0 with `KS.WRAP` set past the last counter value. -/
theorem ksAdvance_ctr (ks : KsState) (h : ks.ctr.toNat < ks.alg.ctrMax) :
    (ks.ctr.toNat + 1 < ks.alg.ctrMax ∧ (ksAdvance ks).ctr.toNat = ks.ctr.toNat + 1 ∧ (ksAdvance ks).wrap = ks.wrap)
      ∨ (ks.ctr.toNat + 1 = ks.alg.ctrMax ∧ (ksAdvance ks).ctr = 0 ∧ (ksAdvance ks).wrap = true) := by
  rw [ksAdvance]
  split
  next hm => exact .inr ⟨hm, rfl, rfl⟩
  next hm =>
    have hle : ks.alg.ctrMax ≤ 2 ^ 64 := by cases ks.alg <;> simp [Alg.ctrMax]
    refine .inl ⟨by omega, ?_, rfl⟩
    simp only [BitVec.toNat_add]
    simp
    omega

theorem ksRefill_of_ne {ks : KsState} (h : ks.off ≠ 64) : ksRefill ks = ks := by
  rw [ksRefill, if_neg (by simpa [blockBytes] using h)]

theorem ksRefill_of_eq {ks : KsState} (h : ks.off = 64) :
    ksRefill ks = { ksAdvance ks with buf := vecOfList 64 0 (ksBlock ks), off := 0 } := by
  rw [ksRefill, if_pos (by simpa [blockBytes] using h)]
  rfl

/-- `need(n)` with its numbers written out. -/
theorem blocksNeeded_eq (ks : KsState) (n : Nat) :
    blocksNeeded ks n = if n ≤ 64 - ks.off then 0 else (n - (64 - ks.off) + 63) / 64 := rfl

@[simp] theorem consume_zero (ks : KsState) : consume 0 ks = ([], ks) := rfl

theorem consume_succ (n : Nat) (ks : KsState) :
    consume (n + 1) ks
      = ((ksRefill ks).buf.toList.getD (ksRefill ks).off 0
          :: (consume n { ksRefill ks with off := (ksRefill ks).off + 1 }).1,
        (consume n { ksRefill ks with off := (ksRefill ks).off + 1 }).2) := rfl

@[simp] theorem consume_length (n : Nat) (ks : KsState) : (consume n ks).1.length = n := by
  induction n generalizing ks with
  | zero => rfl
  | succ n ih => simp [consume_succ, ih]

theorem ksRefill_keeps (ks : KsState) :
    (ksRefill ks).keyed = ks.keyed ∧ (ksRefill ks).alg = ks.alg ∧ (ksRefill ks).key = ks.key
      ∧ (ksRefill ks).nonce = ks.nonce := by
  by_cases h : ks.off = 64
  · rw [ksRefill_of_eq h, ksAdvance_eq]
    exact ⟨rfl, rfl, rfl, rfl⟩
  · rw [ksRefill_of_ne h]
    exact ⟨rfl, rfl, rfl, rfl⟩

/-- Consuming keeps the variant, the key and the nonce, and leaves at most 64 bytes marked used. -/
theorem consume_keeps (n : Nat) (ks : KsState) :
    (consume n ks).2.keyed = ks.keyed ∧ (consume n ks).2.alg = ks.alg ∧ (consume n ks).2.key = ks.key
      ∧ (consume n ks).2.nonce = ks.nonce ∧ (ks.off ≤ 64 → (consume n ks).2.off ≤ 64) := by
  induction n generalizing ks with
  | zero => simp
  | succ n ih =>
    obtain ⟨h1, h2, h3, h4⟩ := ksRefill_keeps ks
    obtain ⟨i1, i2, i3, i4, i5⟩ := ih { ksRefill ks with off := (ksRefill ks).off + 1 }
    rw [consume_succ]
    refine ⟨i1.trans h1, i2.trans h2, i3.trans h3, i4.trans h4, fun h => i5 ?_⟩
    by_cases h64 : ks.off = 64
    · rw [ksRefill_of_eq h64]; simp
    · rw [ksRefill_of_ne h64]; simp only; omega

/-- One more byte within the buffer takes no new block. -/
theorem consume_succ_buffered (n : Nat) {ks : KsState} (h : ks.off < 64) :
    consume (n + 1) ks
      = (ks.buf.toList.getD ks.off 0 :: (consume n { ks with off := ks.off + 1 }).1,
        (consume n { ks with off := ks.off + 1 }).2) := by
  rw [consume_succ, ksRefill_of_ne (by omega)]

/-- One more byte with nothing buffered takes one block. -/
theorem consume_succ_empty (n : Nat) {ks : KsState} (h : ks.off = 64) :
    consume (n + 1) ks
      = ((ksBlock ks).getD 0 0 :: (consume n { ksAdvance ks with buf := vecOfList 64 0 (ksBlock ks), off := 1 }).1,
        (consume n { ksAdvance ks with buf := vecOfList 64 0 (ksBlock ks), off := 1 }).2) := by
  rw [consume_succ, ksRefill_of_eq h]
  simp only [Nat.zero_add, vecOfList_toList 64 0 (ksBlock ks) (by simp), ksBlock_length, Nat.sub_self, List.replicate_zero,
    List.append_nil]

theorem keyB_length (s : State) : (keyB s).length = 32 := by simp [keyB]

theorem nonceB_length (s : State) : (nonceB s).length = 24 := by simp [nonceB]

theorem constB_length (s : State) : (constB s).length = 16 := by simp [constB]

/-- A loaded unit is fresh: keyed, nothing buffered, no wrap. -/
theorem ksLoad_fresh (alg : Alg) (key : Vector Word 8) (n : List Byte) :
    (ksLoad alg key n).keyed = true ∧ (ksLoad alg key n).alg = alg ∧ (ksLoad alg key n).off = 64
      ∧ (ksLoad alg key n).wrap = false ∧ (ksLoad alg key n).buf = Vector.replicate 64 0
      ∧ (alg ≠ .salsa20 → (ksLoad alg key n).ctr = 0) := by
  cases alg <;> simp [ksLoad, ksFresh]

/-- The words of a 32-byte subkey, as bytes, are the subkey. -/
theorem bytesOfWords_keyWords (sub : List Byte) (h : sub.length = 32) : bytesOfWords (keyWords sub).toList = sub := by
  have := bytesOfWords_wordAt 8 sub (by omega)
  simpa [keyWords, List.range_succ] using this

theorem keyWords_bytesOfWords (key : Vector Word 8) : keyWords (bytesOfWords key.toList) = key := by
  refine Vector.ext fun i hi => ?_
  have hw : ∀ j, wordAt (bytesOfWords key.toList) j = key.toList.getD j 0 := wordAt_bytesOfWords _
  rcases i with _ | _ | _ | _ | _ | _ | _ | _ | i <;> first | omega | simp [keyWords, hw, List.getD]

end Sys2Proof.Machine
end

