-- ==== Sys2Proof/Laws/Checks.lean ====
section
/-! SUPPORT. When each check of a command holds, in the terms of the statements, and what a write of DMEM leaves. -/

namespace Sys2Proof.Machine

@[simp] theorem checkKeyLength_holds (s : State) : (checkKeyLength s).holds = true ↔ s.klen.toNat = 32 :=
  decide_eq_true_iff

@[simp] theorem checkNonceLength_holds (alg : Alg) (s : State) :
    (checkNonceLength alg s).holds = true ↔ s.nlen.toNat = alg.nonceBytes := by
  simp [checkNonceLength]

@[simp] theorem checkCapacity_holds (n : Nat) (s : State) : (checkCapacity n s).holds = true ↔ n ≤ s.dcap.toNat := by
  simp [checkCapacity]

@[simp] theorem checkRange_holds (rs : List Region) (s : State) :
    (checkRange rs s).holds = true ↔ ∀ r ∈ rs, Fits s r.off r.len := by
  simp [checkRange, Region.inRange_iff, Fits]

@[simp] theorem checkOverlap_holds (e : Extents) : (checkOverlap e).holds = true ↔ e.allowed = true := Iff.rfl

@[simp] theorem checkKsKeyed_holds (s : State) : (checkKsKeyed s).holds = true ↔ s.ks.keyed = true := Iff.rfl

@[simp] theorem checkBlocks_holds (n : Nat) (s : State) :
    (checkBlocks n s).holds = true ↔ blocksNeeded s.ks n ≤ blocksLeft s.ks := by
  simp [checkBlocks]

@[simp] theorem checkCounterRange_holds (s : State) :
    (checkCounterRange s).holds = true ↔ (s.ks.alg ≠ .chacha20Ietf ∨ s.ctrHi = 0) := by
  rw [checkCounterRange]
  by_cases h1 : s.ks.alg = .chacha20Ietf <;> by_cases h2 : s.ctrHi = 0 <;> simp [h1, h2]

@[simp] theorem checkPrefixLength_holds (s : State) : (checkPrefixLength s).holds = true ↔ 16 ≤ s.nlen.toNat := by
  simp [checkPrefixLength]

@[simp] theorem checkConstant_holds (s : State) : (checkConstant s).holds = true ↔ s.const = sigmaWords := by
  simp [checkConstant]

@[simp] theorem checkMacUsable_holds (s : State) :
    (checkMacUsable s).holds = true ↔ s.mac.keyed = true ∧ s.mac.consumed = false := by
  simp [checkMacUsable]

@[simp] theorem checkMacWritten_holds (s : State) : (checkMacWritten s).holds = true ↔ s.mac.written = true := Iff.rfl

@[simp] theorem checkCipherLength_holds (s : State) : (checkCipherLength s).holds = true ↔ 16 ≤ s.len.toNat :=
  decide_eq_true_iff

@[simp] theorem checkKeyLength_event (s : State) : (checkKeyLength s).event = .fatal .keyLength := rfl

@[simp] theorem checkNonceLength_event (alg : Alg) (s : State) : (checkNonceLength alg s).event = .fatal .nonceLength := rfl

@[simp] theorem checkCapacity_event (n : Nat) (s : State) : (checkCapacity n s).event = .error .bufferTooShort := rfl

@[simp] theorem checkRange_event (rs : List Region) (s : State) : (checkRange rs s).event = .error .dmemRange := rfl

@[simp] theorem checkOverlap_event (e : Extents) : (checkOverlap e).event = .error .overlap := rfl

@[simp] theorem checkKsKeyed_event (s : State) : (checkKsKeyed s).event = .fatal .ksNotKeyed := rfl

@[simp] theorem checkBlocks_event (n : Nat) (s : State) : (checkBlocks n s).event = .fatal .ctrExhausted := rfl

@[simp] theorem checkCounterRange_event (s : State) : (checkCounterRange s).event = .error .counterRange := rfl

@[simp] theorem checkPrefixLength_event (s : State) : (checkPrefixLength s).event = .error .rejectedNonce := rfl

@[simp] theorem checkConstant_event (s : State) : (checkConstant s).event = .error .rejectedConst := rfl

@[simp] theorem checkMacUsable_event (s : State) : (checkMacUsable s).event = .fatal .macKeyReuse := rfl

@[simp] theorem checkMacWritten_event (s : State) : (checkMacWritten s).event = .fatal .macSumBeforeWrite := rfl

@[simp] theorem checkCipherLength_event (s : State) : (checkCipherLength s).event = .error .cipherTooShort := rfl

@[simp] theorem srcRegion_off (s : State) : (srcRegion s).off = s.src.toNat := rfl

@[simp] theorem srcRegion_len (s : State) : (srcRegion s).len = s.len.toNat := rfl

@[simp] theorem dstRegion_off (s : State) : (dstRegion s).off = s.dst.toNat := rfl

@[simp] theorem dstRegion_len (s : State) : (dstRegion s).len = s.dcap.toNat := rfl

@[simp] theorem dstExtent_off (n : Nat) (s : State) : (dstExtent n s).off = s.dst.toNat := rfl

@[simp] theorem dstExtent_len (n : Nat) (s : State) : (dstExtent n s).len = n := rfl

@[simp] theorem adRegion_off (s : State) : (adRegion s).off = s.ad.toNat := rfl

@[simp] theorem adRegion_len (s : State) : (adRegion s).len = s.adlen.toNat := rfl

@[simp] theorem tagRegion_off (s : State) : (tagRegion s).off = s.tag.toNat := rfl

@[simp] theorem tagRegion_len (s : State) : (tagRegion s).len = 16 := rfl

@[simp] theorem readRegion_length (r : Region) (s : State) : (readRegion r s).length = r.len := Memory.readBytes_length ..

/-- A write of canonical DMEM writes exactly its bytes. -/
theorem writesExactly_writeBytes {s t : State} {a : Nat} {v : List Byte} (h : s.MemOk)
    (ht : t.dmem = s.dmem.writeBytes a v) : WritesExactly s t a v := by
  have hr := fun b => Memory.read_writeBytes a v b (Memory.wf_sorted h)
  constructor
  · intro i hi
    rw [byteAt, ht, hr, if_pos (by omega), Nat.add_sub_cancel_left]
  · intro b hb
    rw [byteAt, ht, hr, if_neg (by omega)]
    rfl

end Sys2Proof.Machine
end

