-- ==== Sys2Proof/Laws/Effects.lean ====
section
/-! SUPPORT. What no command's effect touches, how every effect leaves the result fields, and which events a command's checks
raise. -/

namespace Sys2Proof.Machine

@[simp] theorem ksInitEffect_def (alg : Alg) (s : State) :
    ksInitEffect alg s = finish false { s with ks := ksLoad alg s.key (nonceB s) } := rfl

@[simp] theorem deriveEffect_def (h : List Byte → List Byte → List Byte → List Byte) (s : State) :
    deriveEffect h s = finish false (writeAt s.dst.toNat (h (keyB s) ((nonceB s).take 16) (constB s)) s) := rfl

/-- An open command's effect changes DMEM, the units, `ERR` and `VOK` only. -/
theorem finishOpen_frame (pt : Option (List Byte)) (s : State) :
    finishOpen pt s
      = { s.UnitsWiped with
          dmem := (finishOpen pt s).dmem, err := (finishOpen pt s).err, vok := (finishOpen pt s).vok } := by
  cases pt <;> rfl

/-- A seal command's effect changes DMEM, the units, `ERR` and `VOK` only. -/
theorem sealEffect_frame (alg : Alg) (s : State) :
    sealEffect alg s = { s.UnitsWiped with dmem := (sealEffect alg s).dmem, err := .ok, vok := false } := by
  unfold sealEffect
  generalize sealed alg s = p
  rfl

theorem sealDetEffect_frame (alg : Alg) (s : State) :
    sealDetEffect alg s = { s.UnitsWiped with dmem := (sealDetEffect alg s).dmem, err := .ok, vok := false } := by
  unfold sealDetEffect
  generalize sealed alg s = p
  rfl

/-- What a seal command writes: ciphertext, then tag behind it. -/
theorem sealEffect_dmem (alg : Alg) (s : State) :
    (sealEffect alg s).dmem
      = (s.dmem.writeBytes s.dst.toNat (sealed alg s).1).writeBytes (s.dst.toNat + s.len.toNat) (sealed alg s).2 := by
  simp only [sealEffect, finish_dmem, wipeUnits_dmem, writeAt_dmem]

/-- What a detached seal command writes: ciphertext at `DST`, then tag at `TAG`. -/
theorem sealDetEffect_dmem (alg : Alg) (s : State) :
    (sealDetEffect alg s).dmem
      = (s.dmem.writeBytes s.dst.toNat (sealed alg s).1).writeBytes s.tag.toNat (sealed alg s).2 := by
  simp only [sealDetEffect, finish_dmem, wipeUnits_dmem, writeAt_dmem]

/-- What DERIVE writes. -/
theorem deriveEffect_dmem (h : List Byte → List Byte → List Byte → List Byte) (s : State) :
    (deriveEffect h s).dmem = s.dmem.writeBytes s.dst.toNat (h (keyB s) ((nonceB s).take 16) (constB s)) := by
  simp only [deriveEffect, finish_dmem, writeAt_dmem]

/-- DERIVE changes DMEM, `ERR` and `VOK` only. -/
theorem deriveEffect_frame (h : List Byte → List Byte → List Byte → List Byte) (s : State) :
    deriveEffect h s = { s with dmem := (deriveEffect h s).dmem, err := .ok, vok := false } := by
  unfold deriveEffect
  generalize h (keyB s) ((nonceB s).take 16) (constB s) = v
  rfl

/-- What an open command writes: the plaintext it releases, or nothing. -/
theorem finishOpen_dmem (pt : Option (List Byte)) (s : State) :
    (finishOpen pt s).dmem
      = match pt with
        | some p => s.dmem.writeBytes s.dst.toNat p
        | none => s.dmem := by
  cases pt <;> rfl

/-- What no effect changes: the parameters, the operand registers, `CONST`, the fatal fields and the host's side; and `KEY` and
`NONCE` but for WIPE_ALL. -/
theorem effectOf_frame (i : Instr) (s : State) :
    s.SameOperands (effectOf i s) ∧ (effectOf i s).cfg = s.cfg ∧ (effectOf i s).fatal = s.fatal
      ∧ (effectOf i s).fcode = s.fcode ∧ (effectOf i s).host = s.host ∧ (effectOf i s).answers = s.answers
      ∧ (i ≠ .wipeAll → (effectOf i s).key = s.key ∧ (effectOf i s).nonce = s.nonce) := by
  cases i <;> simp only [effectOf] <;>
    first
    | (rw [finishOpen_frame]; simp [State.SameOperands])
    | (rw [sealEffect_frame]; simp [State.SameOperands])
    | (rw [sealDetEffect_frame]; simp [State.SameOperands])
    | simp [State.SameOperands]

/-- Which commands are open commands. -/
def isOpen (i : Instr) : Bool :=
  match i with
  | .aeadOpenChacha20 | .aeadOpenChacha20Ietf | .aeadOpenXchacha20 | .aeadOpenXsalsa20
  | .aeadOpenDetChacha20 | .aeadOpenDetChacha20Ietf | .aeadOpenDetXchacha20 | .aeadOpenDetXsalsa20 => true
  | .nop | .bufWipe | .wipeAll | .ksInitChacha20 | .ksInitChacha20Ietf | .ksInitXchacha20 | .ksInitSalsa20
  | .ksInitXsalsa20 | .ksSeek | .ksStream | .ksXor | .ksWipe | .deriveXchacha20 | .deriveXsalsa20
  | .macInit | .macWrite | .macSum | .macVerify | .macWipe
  | .aeadSealChacha20 | .aeadSealChacha20Ietf | .aeadSealXchacha20 | .aeadSealXsalsa20
  | .aeadSealDetChacha20 | .aeadSealDetChacha20Ietf | .aeadSealDetXchacha20 | .aeadSealDetXsalsa20 => false

/-- How an effect leaves `ERR` and `VOK`: `OK`, with `VOK` set by MAC_VERIFY and the open commands alone; or, by an open command
alone, a forgery. -/
theorem effectOf_result (i : Instr) (s : State) :
    ((effectOf i s).err = .ok ∧ ((effectOf i s).vok = true → i = .macVerify ∨ isOpen i = true))
      ∨ (isOpen i = true
          ∧ effectOf i s = { s.UnitsWiped with err := .forgedOrCorrupted, vok := false }) := by
  have hopen : ∀ pt, (finishOpen pt s).err = .ok ∨ finishOpen pt s = { s.UnitsWiped with err := .forgedOrCorrupted, vok := false } := by
    intro pt; cases pt
    · exact .inr rfl
    · exact .inl rfl
  cases i
  case macVerify => exact .inl ⟨finish_err .., fun _ => .inl rfl⟩
  all_goals
    rw [effectOf]
    first
    | exact (hopen _).imp (fun h => ⟨h, fun _ => .inr rfl⟩) (fun h => ⟨rfl, h⟩)
    | exact .inl ⟨finish_err .., fun h => absurd ((finish_vok ..).symm.trans h) Bool.false_ne_true⟩

/-- A failing check raises one of the events of rule R212's table, never a forgery. -/
theorem checksOf_event {i : Instr} {s : State} {e : Event} (h : firstFailure (checksOf i s) = some e) :
    e ∈ eventsOf i ∧ e ≠ .error .forgedOrCorrupted := by
  obtain ⟨c, hc, -, rfl⟩ := firstFailure_some h
  cases i <;>
    simp only [checksOf, sealChecks, sealDetChecks, openChecks, openDetChecks, deriveChecks, List.mem_cons, List.not_mem_nil,
      or_false] at hc <;>
    rcases hc with rfl | rfl | rfl | rfl | rfl | rfl <;>
    simp [eventsOf, checkKeyLength, checkNonceLength, checkCapacity, checkRange, checkOverlap, checkKsKeyed, checkBlocks,
      checkCounterRange, checkPrefixLength, checkConstant, checkMacUsable, checkMacWritten, checkCipherLength]

/-- No event of the table is the fatal marker, the reserved code, `OK` or the code 0 of a fatal error. -/
theorem eventsOf_codes {i : Instr} :
    Event.error .ok ∉ eventsOf i ∧ Event.error .fatalMarker ∉ eventsOf i ∧ Event.error .invalidPoint ∉ eventsOf i
      ∧ Event.fatal .none ∉ eventsOf i := by
  cases i <;> simp [eventsOf]

@[simp] theorem takeEvent_error (c : ErrCode) (s : State) : takeEvent (.error c) s = raiseError c s := rfl

@[simp] theorem takeEvent_fatal (f : FatalCode) (s : State) : takeEvent (.fatal f) s = raiseFatal f s := rfl

end Sys2Proof.Machine
end

