-- ==== Sys2Proof/Laws/HostPort.lean ====
section
/-! SUPPORT. The host interface: what a step serves, which port stands at which offset, and what a transaction can do. -/

namespace Sys2Proof.Machine

/-- A step serves the transaction at the head of the queue. -/
theorem step_of_host {s : State} {op : HostOp} {rest : List HostOp} (h : s.host = op :: rest) :
    step s = transact op { s with host := rest } := by
  rw [step, serveHost, h]

/-- With no transaction pending a step does nothing. -/
theorem step_idle {s : State} (h : s.host = []) : step s = .next s := by
  rw [step, serveHost, h]

/-! ### Ports -/

theorem portAt_named (cfg : Config) :
    portAt cfg 0x000 = .id ∧ portAt cfg 0x004 = .cmd ∧ portAt cfg 0x008 = .status ∧ portAt cfg 0x00C = .reset
      ∧ portAt cfg 0x010 = .src ∧ portAt cfg 0x014 = .len ∧ portAt cfg 0x018 = .dst ∧ portAt cfg 0x01C = .dcap
      ∧ portAt cfg 0x020 = .ad ∧ portAt cfg 0x024 = .adlen ∧ portAt cfg 0x028 = .tag ∧ portAt cfg 0x02C = .klen
      ∧ portAt cfg 0x030 = .nlen ∧ portAt cfg 0x034 = .ctrLo ∧ portAt cfg 0x038 = .ctrHi :=
  ⟨rfl, rfl, rfl, rfl, rfl, rfl, rfl, rfl, rfl, rfl, rfl, rfl, rfl, rfl, rfl⟩

theorem portAt_key (cfg : Config) (i : Fin 8) : portAt cfg (0x040 + 4 * i.val) = .key i := by
  fin_cases i <;> rfl

theorem portAt_nonce (cfg : Config) (i : Fin 6) : portAt cfg (0x060 + 4 * i.val) = .nonce i := by
  fin_cases i <;> rfl

theorem portAt_const (cfg : Config) (i : Fin 4) : portAt cfg (0x080 + 4 * i.val) = .const i := by
  fin_cases i <;> rfl

theorem portAt_dmem (cfg : Config) (a : Nat) (h : a + 4 ≤ cfg.dmemBytes) : portAt cfg (0x1000 + a) = .dmem a := by
  rw [portAt, dmemBase, if_pos (by omega), if_pos (by omega), Nat.add_sub_cancel_left]

theorem portAt_beyond (cfg : Config) (off : Nat) (h : 0x1000 + cfg.dmemBytes ≤ off) : portAt cfg off = .reserved := by
  rw [portAt, dmemBase, if_pos (by omega), if_neg (by omega)]

/-- Which offsets hold a port with an effect of its own. -/
theorem portAt_cases (cfg : Config) (off : Nat) :
    (portAt cfg off = .cmd → off = 0x004) ∧ (portAt cfg off = .reset → off = 0x00C)
      ∧ ∀ a, portAt cfg off = .dmem a → off = 0x1000 + a ∧ a + 4 ≤ cfg.dmemBytes := by
  rw [portAt, dmemBase]
  split
  · split
    · refine ⟨by simp, by simp, fun a ha => ?_⟩
      obtain rfl := Port.dmem.inj ha
      omega
    · simp
  · split
    next p hp =>
      have hmem := List.mem_of_find?_eq_some hp
      have heq := List.find?_some hp
      simp only [controlPorts, cmdOffset, resetOffset, List.mem_cons, List.not_mem_nil, or_false] at hmem
      rcases hmem with rfl | rfl | rfl | rfl | rfl | rfl | rfl | rfl | rfl | rfl | rfl | rfl | rfl | rfl | rfl <;>
        simp_all
    next =>
      split
      · simp
      · split
        · simp
        · split <;> simp

/-- An offset of the register page above the control registers and outside the three files is reserved. -/
theorem portAt_reserved (cfg : Config) (off : Nat)
    (h : off = 0x03C ∨ off = 0x078 ∨ off = 0x07C ∨ (0x090 ≤ off ∧ off ≤ 0xFFC)) : portAt cfg off = .reserved := by
  rcases h with rfl | rfl | rfl | h
  · rfl
  · rfl
  · rfl
  · have hnone : controlPorts.find? (fun p => p.1 == off) = none := by
      simp only [List.find?_eq_none, controlPorts, cmdOffset, resetOffset, List.mem_cons, List.not_mem_nil, or_false,
        beq_iff_eq]
      rintro p (rfl | rfl | rfl | rfl | rfl | rfl | rfl | rfl | rfl | rfl | rfl | rfl | rfl | rfl | rfl) <;> simp <;> omega
    rw [portAt, dmemBase, if_neg (by omega), hnone]
    simp only
    rw [dif_neg (by omega), dif_neg (by omega), dif_neg (by omega)]

/-! ### Transactions -/

/-- What a transaction of the host does, once. -/
theorem transact_cases (op : HostOp) (s : State) :
    (∃ off, op = .read32 off ∧ off % 4 = 0 ∧ transact op s = .next (hostRead off s))
      ∨ (∃ off v, op = .write32 off v ∧ off % 4 = 0 ∧ transact op s = writePort (portAt s.cfg off) v s)
      ∨ (op = .reset ∧ transact op s = .next (resetBlock s))
      ∨ (∃ off, off % 4 ≠ 0 ∧ (op = .read32 off ∨ ∃ v, op = .write32 off v)
          ∧ transact op s = .refused (.misalignedAccess off))
      ∨ (∃ off n, op = .otherWidth off n ∧ transact op s = .refused (.otherWidthAccess off n)) := by
  cases op with
  | read32 off =>
    by_cases h : off % 4 = 0
    · exact .inl ⟨off, rfl, h, by simp [transact, h]⟩
    · exact .inr (.inr (.inr (.inl ⟨off, h, .inl rfl, by simp [transact, h]⟩)))
  | write32 off v =>
    by_cases h : off % 4 = 0
    · exact .inr (.inl ⟨off, v, rfl, h, by simp [transact, h]⟩)
    · exact .inr (.inr (.inr (.inl ⟨off, h, .inr ⟨v, rfl⟩, by simp [transact, h]⟩)))
  | reset => exact .inr (.inr (.inl ⟨rfl, rfl⟩))
  | otherWidth off n => exact .inr (.inr (.inr (.inr ⟨off, n, rfl, rfl⟩)))

/-- What a write at a port does, once: a command, an illegal word, a reset, a plain store, or nothing. -/
theorem writePort_cases (p : Port) (v : Word) (s : State) :
    (p = .cmd ∧ ((∃ i, decode v = .ok i ∧ writePort p v s = exec i s)
        ∨ ((∃ e, decode v = .error e)
            ∧ writePort p v s = .next (if s.fatal then s else raiseError .illegalCmd s))))
      ∨ (p = .reset ∧ writePort p v s = .next (if v = 0x52535421 then resetBlock s else s))
      ∨ (p ≠ .cmd ∧ p ≠ .reset ∧ writePort p v s = .next (if s.fatal then s else storePort p v s)) := by
  cases p
  case cmd =>
    refine .inl ⟨rfl, ?_⟩
    simp only [writePort, writeCmd]
    cases hd : decode v with
    | ok i => exact .inl ⟨i, rfl, rfl⟩
    | error e =>
      refine .inr ⟨⟨e, rfl⟩, ?_⟩
      simp only [illegalCommand, runCommand]
      split <;> rfl
  case reset => exact .inr (.inl ⟨rfl, rfl⟩)
  all_goals
    refine .inr (.inr ⟨by simp, by simp, ?_⟩)
    simp only [writePort]
    split <;> rfl

/-- A write always ends in a next state. -/
theorem writePort_next (p : Port) (v : Word) (s : State) : ∃ t, writePort p v s = .next t := by
  rcases writePort_cases p v s with ⟨-, ⟨i, -, h⟩ | ⟨-, h⟩⟩ | ⟨-, h⟩ | ⟨-, -, h⟩
  · exact h ▸ exec_next i s
  all_goals exact ⟨_, h⟩

end Sys2Proof.Machine
end

