-- ==== Sys2Proof/Laws/PerInstr.lean ====
section
/-! SUPPORT. Statements made for every command, one lemma per constructor. -/

namespace Sys2Proof.Laws.EncodesLegally

/-- The word of the command passes the three checks of rule R63 apart from the decoder's own table, and stands in its twelve
low bits (rule R71). -/
def Statement (i : Instr) : Prop := (CmdFields.ofWord (encode i)).wf = true ∧ (encode i).toNat < 4096

theorem nop : Statement .nop := by unfold Statement; decide

theorem bufWipe : Statement .bufWipe := by unfold Statement; decide

theorem wipeAll : Statement .wipeAll := by unfold Statement; decide

theorem ksInitChacha20 : Statement .ksInitChacha20 := by unfold Statement; decide

theorem ksInitChacha20Ietf : Statement .ksInitChacha20Ietf := by unfold Statement; decide

theorem ksInitXchacha20 : Statement .ksInitXchacha20 := by unfold Statement; decide

theorem ksInitSalsa20 : Statement .ksInitSalsa20 := by unfold Statement; decide

theorem ksInitXsalsa20 : Statement .ksInitXsalsa20 := by unfold Statement; decide

theorem ksSeek : Statement .ksSeek := by unfold Statement; decide

theorem ksStream : Statement .ksStream := by unfold Statement; decide

theorem ksXor : Statement .ksXor := by unfold Statement; decide

theorem ksWipe : Statement .ksWipe := by unfold Statement; decide

theorem deriveXchacha20 : Statement .deriveXchacha20 := by unfold Statement; decide

theorem deriveXsalsa20 : Statement .deriveXsalsa20 := by unfold Statement; decide

theorem macInit : Statement .macInit := by unfold Statement; decide

theorem macWrite : Statement .macWrite := by unfold Statement; decide

theorem macSum : Statement .macSum := by unfold Statement; decide

theorem macVerify : Statement .macVerify := by unfold Statement; decide

theorem macWipe : Statement .macWipe := by unfold Statement; decide

theorem aeadSealChacha20 : Statement .aeadSealChacha20 := by unfold Statement; decide

theorem aeadSealChacha20Ietf : Statement .aeadSealChacha20Ietf := by unfold Statement; decide

theorem aeadSealXchacha20 : Statement .aeadSealXchacha20 := by unfold Statement; decide

theorem aeadSealXsalsa20 : Statement .aeadSealXsalsa20 := by unfold Statement; decide

theorem aeadSealDetChacha20 : Statement .aeadSealDetChacha20 := by unfold Statement; decide

theorem aeadSealDetChacha20Ietf : Statement .aeadSealDetChacha20Ietf := by unfold Statement; decide

theorem aeadSealDetXchacha20 : Statement .aeadSealDetXchacha20 := by unfold Statement; decide

theorem aeadSealDetXsalsa20 : Statement .aeadSealDetXsalsa20 := by unfold Statement; decide

theorem aeadOpenChacha20 : Statement .aeadOpenChacha20 := by unfold Statement; decide

theorem aeadOpenChacha20Ietf : Statement .aeadOpenChacha20Ietf := by unfold Statement; decide

theorem aeadOpenXchacha20 : Statement .aeadOpenXchacha20 := by unfold Statement; decide

theorem aeadOpenXsalsa20 : Statement .aeadOpenXsalsa20 := by unfold Statement; decide

theorem aeadOpenDetChacha20 : Statement .aeadOpenDetChacha20 := by unfold Statement; decide

theorem aeadOpenDetChacha20Ietf : Statement .aeadOpenDetChacha20Ietf := by unfold Statement; decide

theorem aeadOpenDetXchacha20 : Statement .aeadOpenDetXchacha20 := by unfold Statement; decide

theorem aeadOpenDetXsalsa20 : Statement .aeadOpenDetXsalsa20 := by unfold Statement; decide

end Sys2Proof.Laws.EncodesLegally
end

