-- ==== Sys2Proof/Laws/Poly1305.lean ====
section
/-! SUPPORT. The MAC unit's operations: what they keep, how they compose, how long a tag is. -/

namespace Sys2Proof.Machine

@[simp] theorem macWrite_nil (m : MacState) : macWrite m [] = m := rfl

theorem macWrite_cons (m : MacState) (x : Byte) (d : List Byte) : macWrite m (x :: d) = macWrite (macByte m x) d := rfl

theorem macWrite_append (m : MacState) (a b : List Byte) : macWrite m (a ++ b) = macWrite (macWrite m a) b := by
  induction a generalizing m with
  | nil => rfl
  | cons x a ih => exact ih _

theorem macByte_eq (m : MacState) (x : Byte) :
    macByte m x = { m with h := (macByte m x).h, buf := (macByte m x).buf, blen := (macByte m x).blen } := by
  rw [macByte]
  split <;> rfl

/-- Writing keeps the flags and the key. -/
theorem macWrite_eq (m : MacState) (d : List Byte) :
    macWrite m d = { m with h := (macWrite m d).h, buf := (macWrite m d).buf, blen := (macWrite m d).blen } := by
  induction d generalizing m with
  | nil => rfl
  | cons x d ih =>
    rw [macWrite_cons, ih (macByte m x), macByte_eq m x]

/-- Writing does not look at `MAC.WRITTEN`. -/
theorem macWrite_written (m : MacState) (w : Bool) (d : List Byte) :
    macWrite { m with written := w } d = { macWrite m d with written := w } := by
  induction d generalizing m with
  | nil => rfl
  | cons x d ih =>
    rw [macWrite_cons, macWrite_cons, ← ih]
    congr 1
    simp only [macByte]
    split <;> rfl

theorem polyP_pos : 0 < polyP := by decide

theorem absorb_lt (r : BitVec 128) (h n : Nat) : absorb r h n < polyP := Nat.mod_lt _ polyP_pos

theorem macByte_bounds (m : MacState) (x : Byte) (hh : m.h < polyP) (hb : m.blen ≤ 15) :
    (macByte m x).h < polyP ∧ (macByte m x).blen ≤ 15 := by
  rw [macByte]
  split
  · exact ⟨absorb_lt .., by simp⟩
  · exact ⟨hh, by simp only; omega⟩

theorem macWrite_bounds (m : MacState) (d : List Byte) (hh : m.h < polyP) (hb : m.blen ≤ 15) :
    (macWrite m d).h < polyP ∧ (macWrite m d).blen ≤ 15 := by
  induction d generalizing m with
  | nil => exact ⟨hh, hb⟩
  | cons x d ih =>
    obtain ⟨h1, h2⟩ := macByte_bounds m x hh hb
    exact ih _ h1 h2

@[simp] theorem macFinal_length (m : MacState) : (macFinal m).length = 16 := by simp [macFinal]

@[simp] theorem aeadTag_length (cfg : Config) (alg : Alg) (otk ad ct : List Byte) : (aeadTag cfg alg otk ad ct).length = 16 :=
  macFinal_length _

@[simp] theorem tagsEqual_iff (a b : List Byte) : tagsEqual a b = true ↔ a = b := by simp [tagsEqual]

/-- A last block of fewer than 16 bytes, with its 1 byte appended. -/
theorem partialBlock_eq (m : List Byte) : partialBlock m = lenum m + 2 ^ (8 * m.length) := by
  simp [partialBlock, lenum_append]

end Sys2Proof.Machine
end

