-- ==== Sys2Proof/Laws/Script.lean ====
section
/-! SUPPORT. What each line of a host script does, once: the state it leaves and the words its reads return (`Serves`), and how
lines follow one another. -/

namespace Sys2Proof.Machine

/-- Serving `ops` from `s` ends in `t`, and the reads of `ops` returned `ws`, in order. -/
def Serves (ops : List HostOp) (s t : State) (ws : List Word) : Prop :=
  runScript ops s = .next t ∧ t.answers = ws.reverse ++ s.answers ∧ ws.length = readCount ops

theorem runScript_append {a b : List HostOp} {s t : State} (h : runScript a s = .next t) :
    runScript (a ++ b) s = runScript b t := by
  induction a generalizing s with
  | nil => cases h; rfl
  | cons op a ih =>
    rw [List.cons_append, runScript]
    rw [runScript] at h
    split at h
    next => exact ih h
    next => cases h
    next => cases h

theorem readCount_append (a b : List HostOp) : readCount (a ++ b) = readCount a + readCount b := by
  induction a with
  | nil => simp [readCount]
  | cons op a ih => cases op <;> simp [readCount, ih]; omega

theorem Serves.nil (s : State) : Serves [] s s [] := ⟨rfl, rfl, rfl⟩

/-- Scripts follow one another. -/
theorem Serves.append {a b : List HostOp} {s t u : State} {ws vs : List Word} (h : Serves a s t ws) (h' : Serves b t u vs) :
    Serves (a ++ b) s u (ws ++ vs) := by
  obtain ⟨h1, h2, h3⟩ := h
  obtain ⟨h1', h2', h3'⟩ := h'
  refine ⟨(runScript_append h1).trans h1', ?_, ?_⟩
  · rw [h2', h2, List.reverse_append, List.append_assoc]
  · rw [List.length_append, readCount_append, h3, h3']

/-- What the host has after a script. -/
theorem Serves.hostRun {ops : List HostOp} {s t : State} {ws : List Word} (h : Serves ops s t ws) :
    hostRun ops s = some (t, ws) := by
  obtain ⟨h1, h2, h3⟩ := h
  simp only [Machine.hostRun, h1, h2, ← h3]
  rw [← List.length_reverse (as := ws), List.take_left, List.reverse_reverse]

/-! ### Ports -/

/-- Every named port, and every word of DMEM, stands at its offset. -/
theorem portAt_portOffset (cfg : Config) (p : Port) (h : ∀ a, p = .dmem a → a + 4 ≤ cfg.dmemBytes) :
    portAt cfg (portOffset p) = p := by
  cases p
  case dmem a => exact portAt_dmem cfg a (h a rfl)
  case key i => exact portAt_key cfg i
  case nonce i => exact portAt_nonce cfg i
  case const i => exact portAt_const cfg i
  all_goals rfl

theorem portOffset_aligned (p : Port) (h : ∀ a, p = .dmem a → a % 4 = 0) : portOffset p % 4 = 0 := by
  cases p
  case dmem a => have := h a rfl; simp only [portOffset, dmemBase]; omega
  case key i => simp only [portOffset]; omega
  case nonce i => simp only [portOffset]; omega
  case const i => simp only [portOffset]; omega
  all_goals rfl

/-! ### Lines -/

/-- A `WR` line outside the fatal state, of a port that is neither `CMD` nor `RESET`. -/
theorem serves_lineWr {s : State} (hf : s.fatal = false) (p : Port) (v : Word) (hc : p ≠ .cmd) (hr : p ≠ .reset)
    (hd : ∀ a, p = .dmem a → a % 4 = 0 ∧ a + 4 ≤ s.cfg.dmemBytes) (ha : (storePort p v s).answers = s.answers) :
    Serves (lineWr p v) s (storePort p v s) [] := by
  refine ⟨?_, by simpa using ha, rfl⟩
  have hp := portAt_portOffset s.cfg p fun a h => (hd a h).2
  have ho := portOffset_aligned p fun a h => (hd a h).1
  rw [lineWr, runScript, transact, if_pos ho, hp]
  rcases writePort_cases p v s with ⟨h, -⟩ | ⟨h, -⟩ | ⟨-, -, h⟩
  · exact absurd h hc
  · exact absurd h hr
  · rw [h, hf]; rfl

/-- Issuing a command runs it. -/
theorem runScript_lineCmd (i : Instr) (s : State) : runScript (lineCmd i) s = exec i s := by
  have hd : decode (encode i) = .ok i := by cases i <;> rfl
  have h : transact (.write32 (portOffset .cmd) (encode i)) s = exec i s := by
    rw [transact, if_pos (by rfl)]
    change writeCmd (encode i) s = exec i s
    rw [writeCmd, hd]
  rw [lineCmd, lineWr, runScript, h]
  obtain ⟨t, ht⟩ := exec_next i s
  rw [ht]
  rfl

/-- A command leaves the answers alone. -/
theorem exec_answers {i : Instr} {s t : State} (h : exec i s = .next t) : t.answers = s.answers := by
  rcases exec_cases h with ⟨-, rfl⟩ | ⟨-, e, -, rfl⟩ | ⟨-, -, rfl⟩
  · rfl
  · cases e <;> rfl
  · exact (effectOf_frame i s).2.2.2.2.2.1

theorem serves_lineCmd {i : Instr} {s t : State} (h : exec i s = .next t) : Serves (lineCmd i) s t [] :=
  ⟨(runScript_lineCmd i s).trans h, by simpa using exec_answers h, rfl⟩

/-- An `EXPECT` line reads `STATUS`. -/
theorem serves_lineExpect (s : State) :
    Serves lineExpect s { s with answers := statusWord s :: s.answers } [statusWord s] := ⟨rfl, rfl, rfl⟩

theorem serves_lineSrc {s : State} (hf : s.fatal = false) (a n : Nat) :
    Serves (lineSrc a n) s { s with src := BitVec.ofNat 32 a, len := BitVec.ofNat 32 n } [] :=
  (serves_lineWr hf .src (BitVec.ofNat 32 a) (by simp) (by simp) (by simp) rfl).append
    (serves_lineWr (s := { s with src := BitVec.ofNat 32 a }) hf .len (BitVec.ofNat 32 n) (by simp) (by simp) (by simp) rfl)

theorem serves_lineDst {s : State} (hf : s.fatal = false) (a n : Nat) :
    Serves (lineDst a n) s { s with dst := BitVec.ofNat 32 a, dcap := BitVec.ofNat 32 n } [] :=
  (serves_lineWr hf .dst (BitVec.ofNat 32 a) (by simp) (by simp) (by simp) rfl).append
    (serves_lineWr (s := { s with dst := BitVec.ofNat 32 a }) hf .dcap (BitVec.ofNat 32 n) (by simp) (by simp) (by simp) rfl)

theorem serves_lineAd {s : State} (hf : s.fatal = false) (a n : Nat) :
    Serves (lineAd a n) s { s with ad := BitVec.ofNat 32 a, adlen := BitVec.ofNat 32 n } [] :=
  (serves_lineWr hf .ad (BitVec.ofNat 32 a) (by simp) (by simp) (by simp) rfl).append
    (serves_lineWr (s := { s with ad := BitVec.ofNat 32 a }) hf .adlen (BitVec.ofNat 32 n) (by simp) (by simp) (by simp) rfl)

/-! ### Files of words -/

/-- Writing words over the whole of `KEY`. -/
theorem serves_keyWords {s : State} (hf : s.fatal = false) (f : Nat → Word) :
    Serves ((List.finRange 8).flatMap fun i => lineWr (.key i) (f i.val)) s
      { s with key := #v[f 0, f 1, f 2, f 3, f 4, f 5, f 6, f 7] } [] := by
  have one (i : Fin 8) (k : Vector Word 8) :
      Serves (lineWr (.key i) (f i.val)) { s with key := k } { s with key := k.set i (f i.val) } [] :=
    serves_lineWr (s := { s with key := k }) hf (.key i) _ (by simp) (by simp) (by simp) rfl
  have all := (one 0 s.key).append ((one 1 _).append ((one 2 _).append ((one 3 _).append ((one 4 _).append ((one 5 _).append
    ((one 6 _).append (one 7 _)))))))
  have hk : (((((((s.key.set 0 (f 0)).set 1 (f 1)).set 2 (f 2)).set 3 (f 3)).set 4 (f 4)).set 5 (f 5)).set 6 (f 6)).set 7 (f 7)
      = #v[f 0, f 1, f 2, f 3, f 4, f 5, f 6, f 7] := by
    refine Vector.ext fun i hi => ?_
    rcases i with _ | _ | _ | _ | _ | _ | _ | _ | i <;> first | omega | simp
  exact hk ▸ all

/-- Writing words over the whole of `NONCE`. -/
theorem serves_nonceWords {s : State} (hf : s.fatal = false) (f : Nat → Word) :
    Serves ((List.finRange 6).flatMap fun i => lineWr (.nonce i) (f i.val)) s
      { s with nonce := #v[f 0, f 1, f 2, f 3, f 4, f 5] } [] := by
  have one (i : Fin 6) (k : Vector Word 6) :
      Serves (lineWr (.nonce i) (f i.val)) { s with nonce := k } { s with nonce := k.set i (f i.val) } [] :=
    serves_lineWr (s := { s with nonce := k }) hf (.nonce i) _ (by simp) (by simp) (by simp) rfl
  have all := (one 0 s.nonce).append ((one 1 _).append ((one 2 _).append ((one 3 _).append ((one 4 _).append (one 5 _)))))
  have hk : (((((s.nonce.set 0 (f 0)).set 1 (f 1)).set 2 (f 2)).set 3 (f 3)).set 4 (f 4)).set 5 (f 5)
      = #v[f 0, f 1, f 2, f 3, f 4, f 5] := by
    refine Vector.ext fun i hi => ?_
    rcases i with _ | _ | _ | _ | _ | _ | i <;> first | omega | simp
  exact hk ▸ all

/-- A `KEY` line stages the key's words and `KLEN = 32`. -/
theorem serves_lineKey {s : State} (hf : s.fatal = false) (k : List Byte) :
    Serves (lineKey k) s { s with key := keyWords k, klen := 32 } [] :=
  (serves_keyWords hf (wordAt k)).append
    (serves_lineWr (s := { s with key := keyWords k }) hf .klen 32 (by simp) (by simp) (by simp) rfl)

/-- A `NONCE` line stages the nonce's words and `NLEN`. -/
theorem serves_lineNonce {s : State} (hf : s.fatal = false) (n : List Byte) :
    Serves (lineNonce n) s
      { s with
        nonce := #v[wordAt n 0, wordAt n 1, wordAt n 2, wordAt n 3, wordAt n 4, wordAt n 5]
        nlen := BitVec.ofNat 32 n.length } [] :=
  (serves_nonceWords hf (wordAt n)).append
    (serves_lineWr (s := { s with nonce := #v[wordAt n 0, wordAt n 1, wordAt n 2, wordAt n 3, wordAt n 4, wordAt n 5] })
      hf .nlen _ (by simp) (by simp) (by simp) rfl)

/-- The bytes a `NONCE` line stages: the nonce, and zeros up to 24. -/
theorem bytesOfWords_nonceWords (n : List Byte) (h : n.length ≤ 24) :
    bytesOfWords #v[wordAt n 0, wordAt n 1, wordAt n 2, wordAt n 3, wordAt n 4, wordAt n 5].toList
      = n ++ zeros (24 - n.length) := by
  rw [← bytesOfWords_wordAt 6 (n ++ zeros (24 - n.length)) (by simp; omega)]
  congr 1
  rw [List.map_congr_left (g := wordAt n) fun i _ => wordAt_append_zeros n _ i]
  rfl

/-- Writing zeros over the whole of `KEY`. -/
theorem serves_lineZeroKey {s : State} (hf : s.fatal = false) :
    Serves lineZeroKey s { s with key := Vector.replicate 8 0 } [] := serves_keyWords hf fun _ => 0

/-! ### DMEM -/

/-- A `PUT` of `n` words at `a` stores their bytes. -/
theorem serves_putWords {s : State} (hf : s.fatal = false) (a : Nat) (f : Nat → Word) (n : Nat) (ha : a % 4 = 0)
    (hn : a + 4 * n ≤ s.cfg.dmemBytes) :
    Serves ((List.range n).flatMap fun i => lineWr (.dmem (a + 4 * i)) (f i)) s
      { s with dmem := s.dmem.writeBytes a (bytesOfWords ((List.range n).map f)) } [] := by
  induction n with
  | zero => exact Serves.nil s
  | succ n ih =>
    have h1 := ih (by omega)
    have h2 := serves_lineWr (s := { s with dmem := s.dmem.writeBytes a (bytesOfWords ((List.range n).map f)) }) hf
      (.dmem (a + 4 * n)) (f n) (by simp) (by simp)
      (by intro b hb; obtain rfl := Port.dmem.inj hb; exact ⟨by omega, by simp only; omega⟩) rfl
    have hm : (s.dmem.writeBytes a (bytesOfWords ((List.range n).map f))).writeBytes (a + 4 * n) (toLe32 (f n))
        = s.dmem.writeBytes a (bytesOfWords ((List.range (n + 1)).map f)) := by
      rw [List.range_succ, List.map_append, bytesOfWords_append, Memory.writeBytes_append]
      simp
    have h := h1.append h2
    simp only [storePort, writeAt, hm] at h
    simpa [List.range_succ] using h

/-- A `PUT` line stores its bytes, and zeros up to the next word (rule R70). -/
theorem serves_linePut {s : State} (hf : s.fatal = false) (a : Nat) (bs : List Byte)
    (h : bs = [] ∨ a % 4 = 0 ∧ a + 4 * ((bs.length + 3) / 4) ≤ s.cfg.dmemBytes) :
    Serves (linePut a bs) s { s with dmem := s.dmem.writeBytes a (bs ++ zeros (4 * ((bs.length + 3) / 4) - bs.length)) } [] := by
  rcases h with rfl | ⟨ha, hn⟩
  · exact Serves.nil s
  · rw [← bytesOfWords_wordAt_pad]
    exact serves_putWords hf a (wordAt bs) _ ha hn

/-- Reading `n` words of DMEM. -/
theorem serves_getWords (s : State) (a n : Nat) (ha : a % 4 = 0) (hn : a + 4 * n ≤ s.cfg.dmemBytes) :
    ∃ ws, Serves ((List.range n).flatMap fun i => lineRd (.dmem (a + 4 * i))) s
        { s with answers := ws.reverse ++ s.answers } ws
      ∧ bytesOfWords ws = s.dmem.readBytes a (4 * n) := by
  induction n with
  | zero => exact ⟨[], Serves.nil s, rfl⟩
  | succ n ih =>
    obtain ⟨ws, h1, hb⟩ := ih (by omega)
    have h2 : Serves (lineRd (.dmem (a + 4 * n))) { s with answers := ws.reverse ++ s.answers }
        { s with answers := (ws ++ [le32 (s.dmem.readBytes (a + 4 * n) 4)]).reverse ++ s.answers }
        [le32 (s.dmem.readBytes (a + 4 * n) 4)] := by
      have ho := portOffset_aligned (.dmem (a + 4 * n)) (by intro b hb; obtain rfl := Port.dmem.inj hb; omega)
      have hp := portAt_portOffset s.cfg (.dmem (a + 4 * n)) (by intro b hb; obtain rfl := Port.dmem.inj hb; omega)
      refine ⟨?_, by simp, rfl⟩
      rw [lineRd, runScript, transact, if_pos ho]
      simp [runScript, hostRead, hp, readPort]
    refine ⟨ws ++ [le32 (s.dmem.readBytes (a + 4 * n) 4)], by simpa [List.range_succ] using h1.append h2, ?_⟩
    rw [bytesOfWords_append, hb, show 4 * (n + 1) = 4 * n + 4 by omega, Memory.readBytes_add]
    simp [toLe32_le32]

/-- A `GET` line gives the host the bytes it names. -/
theorem serves_lineGet (s : State) (a n : Nat) (hd : s.cfg.dmemBytes % 4 = 0) (hn : a + n ≤ s.cfg.dmemBytes) :
    ∃ ws, Serves (lineGet a n) s { s with answers := ws.reverse ++ s.answers } ws
      ∧ bytesOfGet a n ws = s.dmem.readBytes a n := by
  by_cases h0 : n = 0
  · subst h0
    exact ⟨[], Serves.nil s, by simp [bytesOfGet]⟩
  · obtain ⟨ws, h1, hb⟩ := serves_getWords s (a - a % 4) ((a % 4 + n + 3) / 4) (by omega) (by omega)
    refine ⟨ws, by rw [lineGet, if_neg h0]; exact h1, ?_⟩
    rw [bytesOfGet, hb, Memory.readBytes_drop _ _ _ _ (by omega), Memory.readBytes_take _ _ _ _ (by omega),
      show a - a % 4 + a % 4 = a by omega]

/-- A script that ends in a `GET` line: after the words read before it, the host has those of the bytes it names. -/
theorem Serves.get {ops : List HostOp} {s t : State} {ws : List Word} (h : Serves ops s t ws) (a n : Nat)
    (hd : t.cfg.dmemBytes % 4 = 0) (hn : a + n ≤ t.cfg.dmemBytes) :
    ∃ vs, Serves (ops ++ lineGet a n) s { t with answers := vs.reverse ++ t.answers } (ws ++ vs)
      ∧ bytesOfGet a n vs = t.dmem.readBytes a n := by
  obtain ⟨vs, hv, hb⟩ := serves_lineGet t a n hd hn
  exact ⟨vs, h.append hv, hb⟩

end Sys2Proof.Machine
end

