-- ==== Sys2Proof/Tests/Slice0.lean ====
section
/-! SUPPORT. The model's own tests. Every expected value is written out from the spec: the encodings from 30_encoding.md, the vectors
(V1 to V22) from 95_test_vectors.md, the program reads (P1 to P6) from 96_programs.md. Then one witness for each statement that
has hypotheses: a concrete state and operands that meet all of them. -/

namespace Sys2Proof.Tests

open Sys2Proof.Machine

set_option Elab.async false

/-! ### Helpers -/

/-- `n` bytes from a number written as the spec writes byte strings, first byte leftmost. -/
def hex (n v : Nat) : List Byte := (toLe n v).reverse

/-- The state a command leaves. -/
def after (i : Instr) (s : State) : State :=
  match exec i s with
  | .next t => t
  | .fault _ => s
  | .refused _ => s

theorem exec_after (i : Instr) (s : State) : exec i s = .next (after i s) := by
  obtain ⟨t, h⟩ := exec_next i s
  rw [after, h]

/-- The state after one step. -/
def stepped (s : State) : State :=
  match step s with
  | .next t => t
  | .fault _ => s
  | .refused _ => s

/-- A 32-byte key staged, and a nonce of `n` bytes. -/
def staged (key n nonce : Nat) : State :=
  { State.reset with
    key := keyWords (hex 32 key)
    klen := 32
    nonce := vecOfList 6 0 ((List.range 6).map (wordAt (hex n nonce)))
    nlen := BitVec.ofNat 32 n }

/-- The key `00..1f`. -/
def keyUp : Nat := 0x000102030405060708090a0b0c0d0e0f101112131415161718191a1b1c1d1e1f

/-- The key `K1 = 80..9f`. -/
def key1 : Nat := 0x808182838485868788898a8b8c8d8e8f909192939495969798999a9b9c9d9e9f

/-- The nonce `40..57`. -/
def nonce40 : Nat := 0x404142434445464748494a4b4c4d4e4f5051525354555657

/-- The key of V10. -/
def keyV10 : Nat := 0x85d6be7857556d337f4452fe42d506a80103808afb0db2fd4abff6af4149f51b

/-- The message of V10, 34 bytes. -/
def msgV10 : List Byte := hex 34 0x43727970746f6772617068696320466f72756d2052657365617263682047726f7570

def withMem (a : Nat) (v : List Byte) (s : State) : State := { s with dmem := s.dmem.writeBytes a v }

def withSrc (a n : Word) (s : State) : State := { s with src := a, len := n }

def withDst (a n : Word) (s : State) : State := { s with dst := a, dcap := n }

def withTag (a : Word) (s : State) : State := { s with tag := a }

def withAd (a n : Word) (s : State) : State := { s with ad := a, adlen := n }

def served (ops : List HostOp) (s : State) : State := { s with host := ops }

/-- In the fatal state, entered by KS_STREAM on an unkeyed unit. -/
def fatalState : State := after .ksStream State.reset

/-! ### WellFormed: each check refuses an ill-formed command word -/

theorem test_wf_refuses_zero_field : CmdFields.wf ⟨0x00, 0, 1⟩ = false := by decide

theorem test_wf_refuses_unknown_opcode : CmdFields.wf ⟨0x03, 0, 0⟩ = false ∧ CmdFields.wf ⟨0x44, 0, 0⟩ = false := by decide

theorem test_wf_refuses_illegal_alg : CmdFields.wf ⟨0x20, 3, 0⟩ = false ∧ CmdFields.wf ⟨0x00, 1, 0⟩ = false := by decide

theorem test_wf_accepts_seal : CmdFields.wf ⟨0x40, 4, 0⟩ = true := by decide

/-! ### Decoding: `OP` in bits 7:0, `ALG` in bits 11:8, `ZERO` in bits 31:12 (rule R60) -/

theorem test_decode_housekeeping :
    decode 0b00000000000000000000000000000000#32 = .ok .nop
      ∧ decode 0b00000000000000000000000000000001#32 = .ok .bufWipe
      ∧ decode 0b00000000000000000000000000000010#32 = .ok .wipeAll := by decide +kernel

theorem test_decode_ks :
    decode 0b00000000000000000000000000010000#32 = .ok .ksInitChacha20
      ∧ decode 0b00000000000000000000000100010000#32 = .ok .ksInitChacha20Ietf
      ∧ decode 0b00000000000000000000001000010000#32 = .ok .ksInitXchacha20
      ∧ decode 0b00000000000000000000001100010000#32 = .ok .ksInitSalsa20
      ∧ decode 0b00000000000000000000010000010000#32 = .ok .ksInitXsalsa20
      ∧ decode 0b00000000000000000000000000010001#32 = .ok .ksSeek
      ∧ decode 0b00000000000000000000000000010010#32 = .ok .ksStream
      ∧ decode 0b00000000000000000000000000010011#32 = .ok .ksXor
      ∧ decode 0b00000000000000000000000000010100#32 = .ok .ksWipe := by decide +kernel

theorem test_decode_skd :
    decode 0b00000000000000000000001000100000#32 = .ok .deriveXchacha20
      ∧ decode 0b00000000000000000000010000100000#32 = .ok .deriveXsalsa20 := by decide +kernel

theorem test_decode_mac :
    decode 0b00000000000000000000000000110000#32 = .ok .macInit
      ∧ decode 0b00000000000000000000000000110001#32 = .ok .macWrite
      ∧ decode 0b00000000000000000000000000110010#32 = .ok .macSum
      ∧ decode 0b00000000000000000000000000110011#32 = .ok .macVerify
      ∧ decode 0b00000000000000000000000000110100#32 = .ok .macWipe := by decide +kernel

theorem test_decode_seal :
    decode 0b00000000000000000000000001000000#32 = .ok .aeadSealChacha20
      ∧ decode 0b00000000000000000000000101000000#32 = .ok .aeadSealChacha20Ietf
      ∧ decode 0b00000000000000000000001001000000#32 = .ok .aeadSealXchacha20
      ∧ decode 0b00000000000000000000010001000000#32 = .ok .aeadSealXsalsa20
      ∧ decode 0b00000000000000000000000001000001#32 = .ok .aeadSealDetChacha20
      ∧ decode 0b00000000000000000000000101000001#32 = .ok .aeadSealDetChacha20Ietf
      ∧ decode 0b00000000000000000000001001000001#32 = .ok .aeadSealDetXchacha20
      ∧ decode 0b00000000000000000000010001000001#32 = .ok .aeadSealDetXsalsa20 := by decide +kernel

theorem test_decode_open :
    decode 0b00000000000000000000000001000010#32 = .ok .aeadOpenChacha20
      ∧ decode 0b00000000000000000000000101000010#32 = .ok .aeadOpenChacha20Ietf
      ∧ decode 0b00000000000000000000001001000010#32 = .ok .aeadOpenXchacha20
      ∧ decode 0b00000000000000000000010001000010#32 = .ok .aeadOpenXsalsa20
      ∧ decode 0b00000000000000000000000001000011#32 = .ok .aeadOpenDetChacha20
      ∧ decode 0b00000000000000000000000101000011#32 = .ok .aeadOpenDetChacha20Ietf
      ∧ decode 0b00000000000000000000001001000011#32 = .ok .aeadOpenDetXchacha20
      ∧ decode 0b00000000000000000000010001000011#32 = .ok .aeadOpenDetXsalsa20 := by decide +kernel

/-- V19 rows 1 to 6: illegal words, with the ground of rule R63 that comes first. -/
theorem test_decode_illegal :
    decode 0x00001000 = .error .zeroFieldSet ∧ decode 0x80000000 = .error .zeroFieldSet
      ∧ decode 0x00001010 = .error .zeroFieldSet ∧ decode 0x00000003 = .error .unknownOpcode
      ∧ decode 0x00000015 = .error .unknownOpcode ∧ decode 0x000000ff = .error .unknownOpcode
      ∧ decode 0x00000100 = .error .illegalAlg ∧ decode 0x00000340 = .error .illegalAlg
      ∧ decode 0x00000510 = .error .illegalAlg ∧ decode 0x00000f10 = .error .illegalAlg := by decide +kernel

theorem test_decode_bytes :
    decodeBytes [0x40, 0x02, 0x00, 0x00] = .ok .aeadSealXchacha20 ∧ decodeBytes [0x40] = .error .wrongLength
      ∧ decodeTableWord 32 0x00000242 = some .aeadOpenXchacha20 ∧ decodeTableWord 32 0x00000342 = none := by
  decide +kernel

theorem test_withFetchWord_runs_the_word : (stepped (State.reset.withFetchWord 32 0x00000110)).fcode = .keyLength := by
  decide +kernel

/-! ### Permutations and blocks -/

/-- V1. -/
theorem test_chacha_quarter :
    chachaQuarter 0x11111111 0x01020304 0x9b8d6f43 0x01234567 = (0xea2a92f4, 0xcb1cf8ce, 0x4581472e, 0x5881c4bb)
      ∧ chachaQuarter 1 0 0 0 = (0x10000001, 0x80808808, 0x01010110, 0x01000110) := by decide +kernel

/-- V2. -/
theorem test_salsa_quarter :
    salsaQuarter 0 0 1 0 = (0x80040000, 0x00000000, 0x00000001, 0x00002000)
      ∧ salsaQuarter 0xe7e8c006 0xc4f9417d 0x6479b4b2 0x68c67137 = (0xe876d72b, 0x9361dfd5, 0xf1460244, 0x948541a3) := by
  decide +kernel

/-- V4, the 64-bit counter over words 12 and 13. -/
theorem test_chacha_block_long_counter :
    blockOf (ksLoad .chacha20 (keyWords (hex 32 keyUp)) (hex 8 0x0001020304050607 ++ zeros 16)) (2 ^ 32 + 5)
      = hex 64 0x2380303393d9683d80a6d56ec959bf46c7e004d95fa04d0854215f11c46e810cb6aa0b4e7065f6d8cfe8e84b81591cb61929e9056fa412e6d3c7398ebb105835 := by
  decide +kernel

/-- V6, the layout with every field distinct. -/
theorem test_salsa_block_layout :
    blockOf (ksLoad .salsa20 (keyWords (hex 32 keyUp)) (hex 8 0x0001020304050607 ++ zeros 16)) (7 * 2 ^ 32 + 9)
      = hex 64 0xd90360b83d6324901519aef9b604da588ccfd48accddb725e50e3f9dc3209285e4e7d34ac289b114805bbc9794889dfb3d8d38a9dfdf76c935f6f040ef86cd02 := by
  decide +kernel

/-! ### Housekeeping -/

theorem test_nop_ends_ok :
    statusWord (after .nop { State.reset with err := .overlap, vok := true }) = 0x00000000 := by decide +kernel

/-- V19 rows 8 and 10. -/
theorem test_bufWipe_region :
    (after .bufWipe (withDst 4095 1 (withMem 4094 [7, 7] State.reset))).dmem = [(4094, 7)]
      ∧ statusWord (after .bufWipe (withDst 0xffffffff 2 State.reset)) = 0x00000800 := by decide +kernel

/-- Rule R82. -/
theorem test_wipeAll_keeps_const :
    let t := after .wipeAll { staged keyUp 24 nonce40 with const := #v[1, 2, 3, 4] }
    t.key = #v[0, 0, 0, 0, 0, 0, 0, 0] ∧ t.nonce = #v[0, 0, 0, 0, 0, 0] ∧ t.const = #v[1, 2, 3, 4] ∧ t.klen = 32 := by
  decide +kernel

/-! ### KS -/

/-- V3: the nonce of ALG 1, all twelve bytes. -/
theorem test_ksInitChacha20Ietf :
    let t := after .ksInitChacha20Ietf (staged keyUp 12 0x000000090000004a00000000)
    t.ks.nonce.toList = hex 12 0x000000090000004a00000000 ∧ statusWord t = 0x00000002 := by decide +kernel

/-- V4 with V19 row 32's rule: ALG 0 takes 8 nonce bytes. -/
theorem test_ksInitChacha20 :
    let t := after .ksInitChacha20 (staged keyUp 8 0x0001020304050607)
    t.ks.nonce.toList = hex 12 0x000102030405060700000000 ∧ t.ks.ctr = 0
      ∧ statusWord (after .ksInitChacha20 (staged keyUp 12 0)) = 0x0002ff01 := by decide +kernel

/-- V5. -/
theorem test_ksInitXchacha20 :
    let t := after .ksInitXchacha20 (staged key1 24 nonce40)
    bytesOfWords t.ks.key.toList = hex 32 0x4a8ac0c0296222bafe959faabe06a45b89a3cee444fef6e3d77659a53f49ee32
      ∧ t.ks.nonce.toList = hex 12 0x505152535455565700000000 := by decide +kernel

/-- V6: the staged counter of ALG 3. -/
theorem test_ksInitSalsa20 :
    let t := after .ksInitSalsa20 (staged (0x80 * 2 ^ 248) 16 0x00000000000000000300000000000000)
    t.ks.ctr = 3 ∧ t.ks.off = 64 := by decide +kernel

/-- V8. -/
theorem test_ksInitXsalsa20 :
    let t := after .ksInitXsalsa20
      (staged 0x1b27556473e985d462cd51197a9a46c76009549eac6474f206c4ee0844f68389 24
        0x69696ee955b62b73cd62bda875fc73d68219e0036b7a0b37)
    bytesOfWords t.ks.key.toList = hex 32 0xdc908dda0b9344a953629b733820778880f3ceb421bb61b91cbd4c3e66256ce4 := by
  decide +kernel

/-- A unit keyed as in V9, at counter `c`. -/
def ksV9 (c : Nat) : State :=
  let s := after .ksInitChacha20Ietf (staged keyUp 12 0x000000000000004a00000000)
  { s with ks := { s.ks with ctr := BitVec.ofNat 64 c } }

/-- P1: an IETF counter above 2^32. -/
theorem test_ksSeek :
    statusWord (after .ksSeek { ksV9 0 with ctrHi := 1 }) = 0x00000a02
      ∧ (after .ksSeek { ksV9 9 with ctrLo := 0xffffffff }).ks.ctr = 0xffffffff := by decide +kernel

/-- V9: the keystream of blocks 1 and 2. -/
theorem test_ksStream :
    let t := after .ksStream (withDst 3 80 (ksV9 1))
    t.dmem.readBytes 3 80
        = hex 80 0x224f51f3401bd9e12fde276fb8631ded8c131f823d2c06e27e4fcaec9ef3cf788a3b0aa372600a92b57974cded2b9334794cba40c63e34cdea212c4cf07d41b769a6749f3f630f4122cafe28ec4dc47e
      ∧ t.ks.ctr = 3 ∧ t.ks.off = 16 := by decide +kernel

/-- V19 rows 36 and 40. -/
theorem test_ksStream_exhausts :
    (after .ksStream (withDst 64 64 (ksV9 (2 ^ 32 - 1)))).ks.wrap = true
      ∧ statusWord (after .ksStream (withDst 64 65 (ksV9 (2 ^ 32 - 1)))) = 0x0004ff01 := by decide +kernel

/-- V9, its first 20 bytes, in place at an odd offset. -/
theorem test_ksXor :
    (after .ksXor (withDst 5 20 (withSrc 5 20 (withMem 5 (hex 20 0x4c616469657320616e642047656e746c656d656e) (ksV9 1))))).dmem.readBytes 5 20
      = hex 20 0x6e2e359a2568f98041ba0728dd0d6981e97e7aec := by decide +kernel

/-- V19 rows 16 and 17, P6. -/
theorem test_ksXor_events :
    statusWord (after .ksXor (withDst 5000 16 (withSrc 0 32 (ksV9 0)))) = 0x00000302
      ∧ statusWord (after .ksXor (withDst 5000 32 (withSrc 0 32 (ksV9 0)))) = 0x00000802
      ∧ statusWord (after .ksXor (withDst 4 12 (withSrc 0 12 (ksV9 0)))) = 0x00000902 := by decide +kernel

theorem test_ksWipe : statusWord (after .ksWipe (ksV9 1)) = 0x00000000 := by decide +kernel

/-! ### SKD -/

/-- V7. -/
theorem test_derive_xchacha20 :
    (after .deriveXchacha20 (withDst 0 32 (staged keyUp 16 0x000000090000004a0000000031415927))).dmem.readBytes 0 32
      = hex 32 0x82413b4227b27bfed30e42508a877d73a0f9e4d58a74a853c12ec41326d3ecdc := by decide +kernel

/-- V19 rows 12 and 13: the nonce before the constant. -/
theorem test_derive_rejections :
    let s := { staged keyUp 15 0 with const := sigmaWords.set 0 0x61707864 }
    statusWord (after .deriveXchacha20 s) = 0x00000500
      ∧ statusWord (after .deriveXchacha20 { s with nlen := 16 }) = 0x00000600 := by decide +kernel

/-- V8. -/
theorem test_derive_xsalsa20 :
    (after .deriveXsalsa20 (withDst 0 32 (staged keyUp 16 0x000000090000004a0000000031415927))).dmem.readBytes 0 32
      = hex 32 0x5d0d6cdafa367060701f5394cee5c80b5f9e3a573409b45592cf2c258680f9ae := by decide +kernel

/-! ### MAC -/

/-- The MAC unit keyed as in V10. -/
def macV10 : State := after .macInit (staged keyV10 8 0)

/-- V10. -/
theorem test_macInit : macV10.mac.r = 0x806d5400e52447c036d555408bed685 ∧ macV10.mac.s = 0x1bf54941aff6bf4afdb20dfb8a800301 := by
  decide +kernel

/-- V12: the first 20 bytes of the message. -/
theorem test_macWrite :
    let t := after .macWrite (withSrc 1 20 (withMem 1 msgV10 macV10))
    t.mac.h = 0x2c88c77849d64ae9147ddeb88e69c83fc ∧ t.mac.blen = 4 ∧ t.mac.buf.toList.take 4 = hex 4 0x72756d20
      ∧ statusWord t = 0x00000018 := by decide +kernel

/-- The unit of V10 given the whole message. -/
def macGiven : State := after .macWrite (withSrc 0 34 (withMem 0 msgV10 macV10))

/-- V10, V12. -/
theorem test_macSum :
    let t := after .macSum (withDst 64 16 macGiven)
    t.dmem.readBytes 64 16 = hex 16 0xa8061dc1305136c6c22b8baf0c0127a9 ∧ statusWord t = 0x00000038 := by decide +kernel

/-- V11: the corner where `h = p` must read 0. -/
theorem test_poly_canonical :
    macFinal (macWrite (macKeyed (1 :: zeros 31))
        (List.replicate 16 0xff ++ [0xfb] ++ List.replicate 15 0xfe ++ List.replicate 16 0x01)) = zeros 16 := by decide +kernel

/-- V12: the right tag, and a tag with one bit changed. -/
theorem test_macVerify :
    statusWord (after .macVerify (withTag 64 (withMem 64 (hex 16 0xa8061dc1305136c6c22b8baf0c0127a9) macGiven))) = 0x00000078
      ∧ statusWord (after .macVerify (withTag 64 (withMem 64 (hex 16 0xa8061dc1305136c6c22b8baf0c0127a8) macGiven)))
          = 0x00000038 := by decide +kernel

/-- V19 rows 42, 43 and 45. -/
theorem test_mac_misuse :
    statusWord (after .macSum State.reset) = 0x0005ff01 ∧ statusWord (after .macVerify macV10) = 0x0006ff01
      ∧ statusWord (after .macWrite (after .macSum (withDst 64 16 macGiven))) = 0x0005ff01 := by decide +kernel

theorem test_macWipe : statusWord (after .macWipe macGiven) = 0x00000000 := by decide +kernel

/-! ### AFC (P6: AD `50515253c0c1c2c3c4c5c6c7` at 0, plaintext "Ladies and" at 0x20, key `80..9f`) -/

def aeadAd : List Byte := hex 12 0x50515253c0c1c2c3c4c5c6c7

def aeadPt : List Byte := hex 10 0x4c616469657320616e64

/-- The staging of P6, a nonce of `n` bytes. -/
def aeadStaged (n nonce : Nat) : State := withAd 0 12 (withMem 0 aeadAd (staged key1 n nonce))

def nonceClassic : Nat := 0x4041424344454647

def nonceIetf : Nat := 0x070000004041424344454647

/-- Ciphertext and tag of P6 for each construction. -/
def p6Chacha20 : List Byte := hex 26 0xa479cb54628946d6f40411f99141bb196f9bb2b172acc37ff18c

def p6Ietf : List Byte := hex 26 0xd31a8d34648e60db7b86b66d308fcf9afe630023338ced2b7e8b

def p6Xchacha20 : List Byte := hex 26 0xbd6d179d3e83d43b9576406a5c156d707f4ff710ad00c2a3f8dd

def p6Xsalsa20 : List Byte := hex 26 0x60779c35e39f91b373dd77038af2c6786cfd1a4fd2d1470bf10c

def sealIn (n nonce : Nat) : State := withDst 0x40 26 (withSrc 0x20 10 (withMem 0x20 aeadPt (aeadStaged n nonce)))

def sealDetIn (n nonce : Nat) : State :=
  withTag 0xa0 (withDst 0x80 10 (withSrc 0x20 10 (withMem 0x20 aeadPt (aeadStaged n nonce))))

def openIn (n nonce : Nat) (box : List Byte) : State :=
  withDst 0x60 10 (withSrc 0x40 26 (withMem 0x40 box (aeadStaged n nonce)))

def openDetIn (n nonce : Nat) (box : List Byte) : State :=
  withTag 0xa0 (withDst 0x80 10 (withSrc 0x80 10 (withMem 0xa0 (box.drop 10) (withMem 0x80 (box.take 10) (aeadStaged n nonce)))))

theorem test_seal_chacha20 : (after .aeadSealChacha20 (sealIn 8 nonceClassic)).dmem.readBytes 0x40 26 = p6Chacha20 := by
  decide +kernel

theorem test_seal_ietf : (after .aeadSealChacha20Ietf (sealIn 12 nonceIetf)).dmem.readBytes 0x40 26 = p6Ietf := by
  decide +kernel

theorem test_seal_xchacha20 : (after .aeadSealXchacha20 (sealIn 24 nonce40)).dmem.readBytes 0x40 26 = p6Xchacha20 := by
  decide +kernel

theorem test_seal_xsalsa20 : (after .aeadSealXsalsa20 (sealIn 24 nonce40)).dmem.readBytes 0x40 26 = p6Xsalsa20 := by
  decide +kernel

/-- V18, `interleaved`: AEAD_SEAL.CHACHA20 of one zero byte with no associated data. -/
theorem test_seal_interleaved :
    (after .aeadSealChacha20
        { withDst 0 17 (withSrc 0 1 (staged key1 8 nonceClassic)) with cfg := ⟨4096, .interleaved⟩ }).dmem.readBytes 0 17
      = hex 17 0xe8ee89af4ae7a850afcb6addd5b1b741be := by decide +kernel

theorem test_sealDet_chacha20 :
    let t := after .aeadSealDetChacha20 (sealDetIn 8 nonceClassic)
    t.dmem.readBytes 0x80 10 ++ t.dmem.readBytes 0xa0 16 = p6Chacha20 := by decide +kernel

theorem test_sealDet_ietf :
    let t := after .aeadSealDetChacha20Ietf (sealDetIn 12 nonceIetf)
    t.dmem.readBytes 0x80 10 ++ t.dmem.readBytes 0xa0 16 = p6Ietf := by decide +kernel

theorem test_sealDet_xchacha20 :
    let t := after .aeadSealDetXchacha20 (sealDetIn 24 nonce40)
    t.dmem.readBytes 0x80 10 ++ t.dmem.readBytes 0xa0 16 = p6Xchacha20 := by decide +kernel

theorem test_sealDet_xsalsa20 :
    let t := after .aeadSealDetXsalsa20 (sealDetIn 24 nonce40)
    t.dmem.readBytes 0x80 10 ++ t.dmem.readBytes 0xa0 16 = p6Xsalsa20 := by decide +kernel

theorem test_open_chacha20 :
    let t := after .aeadOpenChacha20 (openIn 8 nonceClassic p6Chacha20)
    t.dmem.readBytes 0x60 10 = aeadPt ∧ statusWord t = 0x00000040 := by decide +kernel

theorem test_open_ietf :
    let t := after .aeadOpenChacha20Ietf (openIn 12 nonceIetf p6Ietf)
    t.dmem.readBytes 0x60 10 = aeadPt ∧ statusWord t = 0x00000040 := by decide +kernel

theorem test_open_xchacha20 :
    let t := after .aeadOpenXchacha20 (openIn 24 nonce40 p6Xchacha20)
    t.dmem.readBytes 0x60 10 = aeadPt ∧ statusWord t = 0x00000040 := by decide +kernel

theorem test_open_xsalsa20 :
    let t := after .aeadOpenXsalsa20 (openIn 24 nonce40 p6Xsalsa20)
    t.dmem.readBytes 0x60 10 = aeadPt ∧ statusWord t = 0x00000040 := by decide +kernel

/-- P2: one bit of the ciphertext changed. -/
theorem test_open_forged :
    let s := openIn 12 nonceIetf (0xd2 :: p6Ietf.drop 1)
    statusWord (after .aeadOpenChacha20Ietf s) = 0x00000100 ∧ (after .aeadOpenChacha20Ietf s).dmem = s.dmem := by decide +kernel

theorem test_openDet_chacha20 :
    let t := after .aeadOpenDetChacha20 (openDetIn 8 nonceClassic p6Chacha20)
    t.dmem.readBytes 0x80 10 = aeadPt ∧ statusWord t = 0x00000040 := by decide +kernel

theorem test_openDet_ietf :
    let t := after .aeadOpenDetChacha20Ietf (openDetIn 12 nonceIetf p6Ietf)
    t.dmem.readBytes 0x80 10 = aeadPt ∧ statusWord t = 0x00000040 := by decide +kernel

theorem test_openDet_xchacha20 :
    let t := after .aeadOpenDetXchacha20 (openDetIn 24 nonce40 p6Xchacha20)
    t.dmem.readBytes 0x80 10 = aeadPt ∧ statusWord t = 0x00000040 := by decide +kernel

theorem test_openDet_xsalsa20 :
    let t := after .aeadOpenDetXsalsa20 (openDetIn 24 nonce40 p6Xsalsa20)
    t.dmem.readBytes 0x80 10 = aeadPt ∧ statusWord t = 0x00000040 := by decide +kernel

/-- P6: one bit of the tag changed. -/
theorem test_openDet_forged :
    statusWord (after .aeadOpenDetXsalsa20 (openDetIn 24 nonce40 (p6Xsalsa20.take 10 ++ 0x76 :: p6Xsalsa20.drop 11)))
      = 0x00000100 := by decide +kernel

/-! ### Host interface, reset and the fatal state -/

theorem test_read_id : (stepped (served [.read32 0x000] State.reset)).answers = [0x4C474331] := by decide +kernel

theorem test_read_key_is_zero :
    (stepped (served [.read32 0x040] (staged keyUp 8 0))).answers = [0]
      ∧ (stepped (served [.read32 0x080] State.reset)).answers = [0x61707865] := by decide +kernel

theorem test_dmem_window :
    (stepped (served [.write32 0x1FFC 0x04030201] State.reset)).dmem = [(4092, 1), (4093, 2), (4094, 3), (4095, 4)]
      ∧ (stepped (served [.write32 0x2000 0x04030201] State.reset)).dmem = [] := by decide +kernel

/-- V19 rows 34, 48 and 49. -/
theorem test_fatal_state :
    statusWord fatalState = 0x0003ff01
      ∧ statusWord (stepped (served [.write32 0x00C 0x52535420] fatalState)) = 0x0003ff01
      ∧ statusWord (stepped (served [.write32 0x00C 0x52535421] fatalState)) = 0x00000000 := by decide +kernel

theorem test_illegal_command : statusWord (stepped (served [.write32 0x004 0x00001010] State.reset)) = 0x00000700 := by
  decide +kernel

/-- Rule R23: another value written to `RESET` outside the fatal state is ignored. -/
theorem test_reset_magic_only :
    (stepped (served [.write32 0x00C 0x52535420] (ksV9 1))).ks.keyed = true
      ∧ (stepped (served [.write32 0x00C 0x52535421] (ksV9 1))).ks.keyed = false := by decide +kernel

theorem test_misaligned_is_refused :
    step (served [.read32 0x001] State.reset) = .refused (.misalignedAccess 0x001)
      ∧ step (served [.otherWidth 0x000 1] State.reset) = .refused (.otherWidthAccess 0x000 1) := ⟨rfl, rfl⟩

/-! ### SecretStream -/

/-- V20 after init. -/
def ssV20 : SsState :=
  ⟨vecOfList 32 0 (hex 32 0x001b38f1bc654a0470f0172049103eccb67d8bb16b11d2a468db66a2dd53d47d), 1,
    vecOfList 8 0 (hex 8 0x5051525354555657), 0, .ready⟩

theorem test_ss_init : (ssInit (hex 32 keyUp) (hex 24 nonce40)).toOption = some ssV20 := by decide +kernel

/-- V20 chunk 1. -/
theorem test_ss_push :
    (ssPush .default (hex 3 0x616263) [] ssTagMessage ssV20).toOption
      = some (hex 20 0x0d62034c9e616d7b20552185ff142d81975308ef,
          { ssV20 with ctr := 2, inonce := vecOfList 8 0 (hex 8 0xce303f28740077d2) }) := by decide +kernel

/-- V22: the counter wraps, so a MESSAGE chunk rekeys. -/
theorem test_ss_counter_wrap :
    (ssPush .default [0x78] [] ssTagMessage { ssV20 with ctr := 0xffffffff }).toOption
      = some (hex 18 0x947b8928ecc2aa8e604115ed062b24b9244a,
          ⟨vecOfList 32 0 (hex 32 0x597a00b7ba0aad4bbb369fd6ed9a4c2588da33b2e95503996945590b76281939), 1,
            vecOfList 8 0 (hex 8 0xd364b61a2a0826b2), 1, .ready⟩) := by decide +kernel

/-- The buffers of P4. -/
def layP4 : SsLayout := ⟨0x40, 0x20, 0x40, 0x80⟩

/-- Chunk 1 of V20. -/
def chunkV20 : List Byte := hex 20 0x0d62034c9e616d7b20552185ff142d81975308ef

/-- V20 chunk 2 and V21, on LGC: the chunk, the ratcheted record, and (rule R187 (d)) the staged key zero, the unit wiped. -/
theorem test_ss_rekey_on_lgc :
    let ss : SsState := { ssV20 with ctr := 2, inonce := vecOfList 8 0 (hex 8 0xce303f28740077d2) }
    let run := ssPushOn layP4 [] [] ssTagRekey ss State.reset
    run.result.toOption = some (hex 17 0xe0971e5dce922ee5e6bdd438cf02e419d5)
      ∧ run.ss = ⟨vecOfList 32 0 (hex 32 0x8d809e5865dc86a567a26fe8331255a255fbc81d5bc6e9fc8e94958492280955), 1,
          vecOfList 8 0 (hex 8 0x36026ad51a6fff89), 1, .ready⟩
      ∧ keyB run.lgc = zeros 32 ∧ run.lgc.ks = KsState.wiped ∧ run.lgc.dmem.readBytes 0x80 40 = zeros 40 := by decide +kernel

/-- V20 chunk 1 pulled on LGC (V22: the payload, the tag byte, the pusher's record). -/
theorem test_ss_pull_on_lgc :
    let run := ssPullOn layP4 chunkV20 [] ssV20 State.reset
    run.result.toOption = some (hex 3 0x616263, ssTagMessage)
      ∧ run.ss = { ssV20 with ctr := 2, inonce := vecOfList 8 0 (hex 8 0xce303f28740077d2) } := by decide +kernel

/-! ### Witnesses: for each statement with hypotheses, a state and operands that meet them, clause by clause -/

/-- A `CMD` write of `w` is the next transaction, outside the fatal state. -/
theorem cmd_pending (w : Word) :
    (served [.write32 0x004 w] State.reset).fatal = false
      ∧ (served [.write32 0x004 w] State.reset).host = .write32 0x004 w :: [] := ⟨rfl, rfl⟩

theorem witness_CmdWriteExecutesLegalWordsAndReportsIllegalOnes :
    ((0x443 : Word).toNat / 4096 = 0 ∧ (0x443 : Word).toNat % 256 ∈ [0x40, 0x41, 0x42, 0x43]
        ∧ (0x443 : Word).toNat / 256 % 16 ∈ [0, 1, 2, 4])
      ∧ ((0x020 : Word).toNat % 256 = 0x20 ∧ (0x020 : Word).toNat / 256 % 16 ∉ [2, 4])
      ∧ (0x00100000 : Word).toNat / 4096 ≠ 0
      ∧ ∀ w : Word, ∃ s : State, s.fatal = false ∧ s.host = .write32 0x004 w :: [] :=
  ⟨by decide, by decide, by decide, fun w => ⟨_, cmd_pending w⟩⟩

theorem witness_StepRunsTheDecodedCommand :
    (served [.write32 0x004 0x443, .reset] State.reset).host = .write32 0x004 0x443 :: [.reset]
      ∧ decode 0x443 = .ok .aeadOpenDetXsalsa20 := by decide +kernel

theorem witness_QueuedTransactionsAreServedInOrder :
    ∃ t, runScript [.read32 0x008, .write32 0x010 7, .reset] State.reset = .next t := ⟨_, rfl⟩

theorem witness_RegisterWritesStoreTheirWord : State.reset.fatal = false := rfl

theorem witness_HostReadsDoNotDependOnSecrets :
    let ks := { KsState.wiped with key := Vector.replicate 8 1, ctr := 5, buf := Vector.replicate 64 9, off := 3 }
    let mac := { MacState.wiped with r := 1, s := 2, h := 3 }
    ks.keyed = State.reset.ks.keyed ∧ ks.wrap = State.reset.ks.wrap ∧ mac.keyed = State.reset.mac.keyed
      ∧ mac.written = State.reset.mac.written ∧ mac.consumed = State.reset.mac.consumed ∧ 0x040 % 4 = 0 := by decide +kernel

theorem witness_DmemWindowReadsAndWritesFourBytes :
    State.reset.MemOk ∧ fatalState.MemOk ∧ 4092 % 4 = 0 ∧ 4092 + 4 ≤ State.reset.cfg.dmemBytes
      ∧ 4092 + 4 ≤ fatalState.cfg.dmemBytes ∧ State.reset.fatal = false ∧ fatalState.fatal = true := by decide +kernel

theorem witness_UnmappedAccessesReadZeroAndIgnoreWrites :
    (∀ off ∈ [0x03C, 0x078, 0x07C, 0x090, 0xFFC, 0x2000, 0x004, 0x00C, 0x040, 0x05C, 0x000, 0x008], off % 4 = 0)
      ∧ (0x090 ≤ 0x090 ∧ 0x090 ≤ 0xFFC) ∧ (0x090 ≤ 0xFFC ∧ 0xFFC ≤ 0xFFC)
      ∧ 0x1000 + State.reset.cfg.dmemBytes ≤ 0x2000 ∧ (0x040 ≤ 0x05C ∧ 0x05C ≤ 0x05C) := by decide +kernel

theorem witness_ResetGivesEveryElementItsResetValue : (0x52535420 : Word) ≠ 0x52535421 := by decide

theorem witness_FatalStateIgnoresEveryWriteButReset :
    fatalState.fatal = true ∧ 0x00C % 4 = 0 ∧ ¬ (0x00C = 0x00C ∧ (0x52535420 : Word) = 0x52535421) := by decide +kernel

theorem witness_OnlyResetLeavesTheFatalState :
    fatalState.fatal = true ∧ (∃ t, step fatalState = .next t)
      ∧ ∃ t, step (served [.reset] fatalState) = .next t := ⟨by decide +kernel, ⟨_, rfl⟩, ⟨_, rfl⟩⟩

theorem witness_FatalEntryZeroesSecretsAndKeepsMemory :
    State.reset.fatal = false ∧ exec .ksStream State.reset = .next (after .ksStream State.reset)
      ∧ (after .ksStream State.reset).fatal = true := ⟨rfl, exec_after .., by decide +kernel⟩

theorem witness_NonFatalErrorsChangeOnlyErrAndVok :
    let s := withDst 4095 2 State.reset
    s.fatal = false ∧ exec .bufWipe s = .next (after .bufWipe s) ∧ (after .bufWipe s).fatal = false
      ∧ (after .bufWipe s).err ≠ .ok ∧ (after .bufWipe s).err ≠ .forgedOrCorrupted :=
  ⟨rfl, exec_after .., by decide +kernel⟩

/-- A combined input of 16 zero bytes: no ciphertext, and a wrong tag. -/
def emptyBox : State := withSrc 0 16 (staged 0 12 0)

theorem witness_ForgeryChangesNothingButTheUnits :
    emptyBox.fatal = false ∧ exec .aeadOpenChacha20Ietf emptyBox = .next (after .aeadOpenChacha20Ietf emptyBox)
      ∧ (after .aeadOpenChacha20Ietf emptyBox).err = .forgedOrCorrupted := ⟨rfl, exec_after .., by decide +kernel⟩

theorem witness_CommandsRaiseOnlyTheEventsOfTheTable :
    State.reset.fatal = false ∧ exec .macSum State.reset = .next (after .macSum State.reset) := ⟨rfl, exec_after ..⟩

/-- A MAC unit keyed with zeros and given no byte; its tag is `0^16` (V12). -/
def macZero : State := after .macWrite (after .macInit (staged 0 8 0))

theorem witness_VokIsSetOnlyByVerifyAndOpen :
    macZero.fatal = false ∧ exec .macVerify macZero = .next (after .macVerify macZero) ∧ (after .macVerify macZero).vok = true :=
  ⟨by decide +kernel, exec_after .., by decide +kernel⟩

theorem witness_ResetStateMeetsTheInvariant :
    Config.legal ⟨256, .interleaved⟩ = true ∧ Config.legal ⟨2 ^ 24, .trailing⟩ = true := by decide +kernel

theorem reset_inv : State.reset.Inv := by
  refine ⟨rfl, rfl, ?_, ?_, ?_⟩
  · simp only [State.reset, State.resetWith]; decide +kernel
  · simp only [State.reset, State.resetWith]; decide +kernel
  · simp [State.reset, State.resetWith, State.ResultInv]

theorem witness_EveryStepKeepsTheInvariant :
    State.reset.Inv ∧ ∃ t, step (served [.write32 0x004 0x010] State.reset) = .next t := ⟨reset_inv, ⟨_, rfl⟩⟩

theorem witness_CommandsLeaveOperandAndStagingRegisters :
    exec .nop State.reset = .next (after .nop State.reset) ∧ (after .nop State.reset).fatal = false
      ∧ exec .nop fatalState = .next (after .nop fatalState) ∧ fatalState.fatal = true :=
  ⟨exec_after .., by decide +kernel, exec_after .., by decide +kernel⟩

theorem witness_MacFlagsFollowTheLifeCycle :
    let spent := after .macSum (withDst 0 16 macZero)
    let keyed := after .macInit (staged 0 8 0)
    (spent.fatal = false ∧ exec .macWrite spent = .next (after .macWrite spent) ∧ spent.mac.consumed = true)
      ∧ (keyed.fatal = false ∧ exec .macSum keyed = .next (after .macSum keyed) ∧ keyed.mac.keyed = true
          ∧ keyed.mac.consumed = false ∧ keyed.mac.written = false)
      ∧ (exec .macWipe spent = .next (after .macWipe spent) ∧ (after .macWipe spent).fatal = false
          ∧ (after .macWipe spent).err = .ok)
      ∧ (after .aeadOpenChacha20Ietf emptyBox).fatal = false :=
  ⟨⟨by decide +kernel, exec_after .., by decide +kernel⟩, ⟨by decide +kernel, exec_after .., by decide +kernel⟩,
    ⟨exec_after .., by decide +kernel⟩, by decide +kernel⟩

theorem witness_NopAndWipesComplete : State.reset.fatal = false ∧ fatalState.fatal = true := ⟨rfl, by decide +kernel⟩

theorem witness_BufWipeZeroesExactlyItsRegion :
    State.reset.fatal = false ∧ State.reset.MemOk ∧ Fits State.reset 4095 1 ∧ ¬ Fits State.reset 4095 2
      ∧ Fits State.reset 0xffffffff 0 := by decide +kernel

theorem witness_KsInitLoadsStagedKeyAndNonce :
    (State.reset.fatal = false ∧ State.reset.klen.toNat ≠ 32)
      ∧ ((staged 0 13 0).fatal = false ∧ (staged 0 13 0).klen.toNat = 32 ∧ ∀ n ∈ [8, 12, 24, 16], (staged 0 13 0).nlen.toNat ≠ n)
      ∧ ∀ n ∈ [8, 12, 16], (staged 0 n 0).fatal = false ∧ (staged 0 n 0).klen.toNat = 32 ∧ (staged 0 n 0).nlen.toNat = n := by
  decide +kernel

theorem witness_KsInitExtendedVariantsDeriveTheirKey :
    (staged 0 24 0).fatal = false ∧ (staged 0 24 0).klen.toNat = 32 ∧ (staged 0 24 0).nlen.toNat = 24 := by decide +kernel

theorem witness_KsSeekRepositionsTheCounter :
    let classic := after .ksInitChacha20 (staged 0 8 0)
    State.reset.fatal = false ∧ State.reset.ks.keyed = false
      ∧ ((ksV9 0).fatal = false ∧ (ksV9 0).ks.keyed = true ∧ (ksV9 0).ks.alg = .chacha20Ietf ∧ (1 : Word) ≠ 0)
      ∧ (classic.fatal = false ∧ classic.ks.keyed = true ∧ classic.ks.alg ≠ .chacha20Ietf) ∧ (ksV9 0).ctrHi = 0 := by
  decide +kernel

theorem witness_ConsumeReturnsTheNextStreamBytes :
    let ks := (ksV9 (2 ^ 32 - 1)).ks
    KsAt ks ks (2 ^ 32 - 1) 0 ∧ 2 ^ 32 - 1 + (0 + 64 + 63) / 64 ≤ ks.alg.ctrMax
      ∧ KsAt ks (consume 64 ks).2 (2 ^ 32 - 1) 64 ∧ 2 ^ 32 - 1 + (64 + 0 + 63) / 64 ≤ ks.alg.ctrMax
      ∧ KsAt ks (consume 1 ks).2 (2 ^ 32 - 1) 1 := by decide +kernel

theorem witness_KsStreamWritesKeystream :
    let ready := withDst 64 64 (ksV9 (2 ^ 32 - 1))
    State.reset.fatal = false ∧ State.reset.MemOk ∧ State.reset.ks.keyed = false
      ∧ ready.fatal = false ∧ ready.MemOk ∧ ready.ks.keyed = true ∧ Fits ready 64 64
      ∧ blocksNeeded ready.ks 64 ≤ blocksLeft ready.ks ∧ ¬ blocksNeeded ready.ks 65 ≤ blocksLeft ready.ks
      ∧ ¬ Fits ready 4095 2 := by decide +kernel

theorem witness_KsXorWritesSourceXorKeystream :
    let s := ksV9 (2 ^ 32 - 1)
    State.reset.fatal = false ∧ State.reset.MemOk ∧ State.reset.ks.keyed = false
      ∧ s.fatal = false ∧ s.MemOk ∧ s.ks.keyed = true
      ∧ (15 : Word).toNat < (16 : Word).toNat
      ∧ ((16 : Word).toNat ≤ (16 : Word).toNat ∧ ¬ (Fits s 0 16 ∧ Fits s 4081 16))
      ∧ (Fits s 0 16 ∧ Fits s 4080 16)
      ∧ (¬ ((0 : Word) = 15 ∨ Apart 0 16 15 16) ∧ Fits s 15 16)
      ∧ Apart 0 16 16 16
      ∧ (blocksNeeded s.ks 64 ≤ blocksLeft s.ks ∧ ¬ blocksNeeded s.ks 65 ≤ blocksLeft s.ks) := by decide +kernel

theorem witness_ExhaustionCheckCountsTheBlocksLeft :
    KsAt (ksV9 (2 ^ 32 - 1)).ks (ksV9 (2 ^ 32 - 1)).ks (2 ^ 32 - 1) 0 := by decide +kernel

/-- An in-place KS_XOR of 20 bytes at offset 5. -/
def xorIn : State := withDst 5 20 (withSrc 5 20 (ksV9 1))

theorem witness_KsXorSplitsIntoConsecutiveParts :
    xorIn.fatal = false ∧ xorIn.cfg.legal = true ∧ xorIn.MemOk ∧ xorIn.ks.off ≤ 64
      ∧ xorIn.len.toNat = (20 : Word).toNat + (0 : Word).toNat ∧ exec .ksXor xorIn = .next (after .ksXor xorIn)
      ∧ (after .ksXor xorIn).err = .ok :=
  ⟨by decide +kernel, by decide +kernel, by decide +kernel, by decide +kernel, by decide +kernel, exec_after ..,
    by decide +kernel⟩

theorem witness_XchachaBlocksAreIetfBlocksBelow2to32 :
    (ksLoad .xchacha20 (Vector.replicate 8 0) []).alg = .xchacha20 ∧ 2 ^ 32 - 1 < 2 ^ 32 := by decide +kernel

theorem witness_BlocksDependOnVariantKeyNonceAndCounter :
    (ksV9 1).ks.alg = (ksV9 7).ks.alg ∧ (ksV9 1).ks.key = (ksV9 7).ks.key ∧ (ksV9 1).ks.nonce = (ksV9 7).ks.nonce
      ∧ (ksV9 1).ks ≠ (ksV9 7).ks := by decide +kernel

theorem witness_DeriveWritesTheSubkey :
    let s := staged 0 16 0
    s.fatal = false ∧ s.MemOk ∧ (31 : Word).toNat ≠ 32 ∧ s.klen.toNat = 32 ∧ (15 : Word).toNat < 16 ∧ 16 ≤ s.nlen.toNat
      ∧ sigmaWords.set 0 0x61707864 ≠ #v[0x61707865, 0x3320646e, 0x79622d32, 0x6b206574]
      ∧ s.const = #v[0x61707865, 0x3320646e, 0x79622d32, 0x6b206574]
      ∧ (31 : Word).toNat < 32 ∧ 32 ≤ (32 : Word).toNat ∧ ¬ Fits s 4065 32 ∧ Fits s 4064 32 := by decide +kernel

theorem witness_DeriveDependsOnlyOnKeyAndPrefix :
    let s := withDst 0 32 (staged keyUp 16 0x404142434445464748494a4b4c4d4e4f)
    let s' := withDst 64 40 (withMem 64 [1, 2] (staged keyUp 24 nonce40))
    s.fatal = false ∧ s'.fatal = false ∧ s.MemOk ∧ s'.MemOk ∧ s.key = s'.key ∧ (∀ j : Fin 4, s.nonce[j] = s'.nonce[j])
      ∧ exec .deriveXsalsa20 s = .next (after .deriveXsalsa20 s)
      ∧ exec .deriveXsalsa20 s' = .next (after .deriveXsalsa20 s')
      ∧ (after .deriveXsalsa20 s).err = .ok ∧ (after .deriveXsalsa20 s').err = .ok :=
  ⟨by decide +kernel, by decide +kernel, by decide +kernel, by decide +kernel, by decide +kernel, by decide +kernel,
    exec_after .., exec_after .., by decide +kernel⟩

theorem witness_KsInitKeysTheUnitWithTheDerivedSubkey :
    let s := withDst 4064 32 (staged keyUp 24 nonce40)
    s.fatal = false ∧ s.MemOk ∧ exec .deriveXchacha20 s = .next (after .deriveXchacha20 s)
      ∧ (after .deriveXchacha20 s).err = .ok ∧ exec .ksInitXchacha20 s = .next (after .ksInitXchacha20 s)
      ∧ (after .ksInitXchacha20 s).err = .ok :=
  ⟨by decide +kernel, by decide +kernel, exec_after .., by decide +kernel, exec_after .., by decide +kernel⟩

theorem witness_MacInitKeysTheUnit :
    State.reset.fatal = false ∧ State.reset.klen.toNat ≠ 32 ∧ (staged 0 8 0).fatal = false ∧ (staged 0 8 0).klen.toNat = 32 := by
  decide +kernel

theorem witness_MacWriteAppendsItsData :
    State.reset.fatal = false ∧ ¬ (State.reset.mac.keyed = true ∧ State.reset.mac.consumed = false)
      ∧ macV10.fatal = false ∧ macV10.mac.keyed = true ∧ macV10.mac.consumed = false ∧ ¬ Fits macV10 4095 2 ∧ Fits macV10 4095 1
      ∧ MacHolds macV10.mac macV10.mac.r macV10.mac.s [] := by decide +kernel

theorem witness_MacSumWritesThePolyTag :
    let keyed := after .macInit (staged 0 8 0)
    State.reset.fatal = false ∧ State.reset.MemOk ∧ ¬ (State.reset.mac.keyed = true ∧ State.reset.mac.consumed = false)
      ∧ (keyed.fatal = false ∧ keyed.mac.keyed = true ∧ keyed.mac.consumed = false ∧ keyed.mac.written = false)
      ∧ (macZero.fatal = false ∧ macZero.MemOk ∧ macZero.mac.keyed = true ∧ macZero.mac.consumed = false
          ∧ macZero.mac.written = true)
      ∧ ((15 : Word).toNat < 16 ∧ 16 ≤ (16 : Word).toNat ∧ ¬ Fits macZero 4081 16 ∧ Fits macZero 4080 16)
      ∧ MacHolds macZero.mac 0 0 [] := by decide +kernel

theorem witness_MacVerifyComparesThePolyTag :
    let keyed := after .macInit (staged 0 8 0)
    State.reset.fatal = false ∧ ¬ (State.reset.mac.keyed = true ∧ State.reset.mac.consumed = false)
      ∧ (keyed.fatal = false ∧ keyed.mac.keyed = true ∧ keyed.mac.consumed = false ∧ keyed.mac.written = false)
      ∧ (macZero.fatal = false ∧ macZero.mac.keyed = true ∧ macZero.mac.consumed = false ∧ macZero.mac.written = true)
      ∧ (¬ Fits macZero 4081 16 ∧ Fits macZero 4080 16) ∧ MacHolds macZero.mac 0 0 [] := by decide +kernel

theorem witness_MacWriteSplitsIntoConsecutiveParts :
    let s := withSrc 0 34 macV10
    s.fatal = false ∧ s.cfg.legal = true ∧ s.len.toNat = (16 : Word).toNat + (18 : Word).toNat
      ∧ exec .macWrite s = .next (after .macWrite s) ∧ (after .macWrite s).err = .ok :=
  ⟨by decide +kernel, by decide +kernel, by decide +kernel, exec_after .., by decide +kernel⟩

/-- In-place sealing of 10 bytes up to the end of DMEM, the tag of a detached seal at 200. -/
def sealReady (n : Nat) : State := withTag 200 (withAd 100 12 (withDst 4070 26 (withSrc 4070 10 (staged 0 n 0))))

theorem witness_AeadSealWritesCiphertextAndTag :
    ∀ f ∈ aeadForms,
      let s := sealReady f.2.1
      s.fatal = false ∧ s.cfg.legal = true ∧ s.MemOk ∧ s.klen.toNat = 32 ∧ s.nlen.toNat = f.2.1
        ∧ s.len.toNat + 16 ≤ s.dcap.toNat ∧ Fits s s.src.toNat s.len.toNat ∧ Fits s s.ad.toNat s.adlen.toNat
        ∧ Fits s s.dst.toNat s.dcap.toNat
        ∧ (s.src = s.dst ∨ Apart s.src.toNat s.len.toNat s.dst.toNat (s.len.toNat + 16))
        ∧ Apart s.ad.toNat s.adlen.toNat s.dst.toNat (s.len.toNat + 16) := by decide +kernel

theorem witness_AeadSealDetWritesCiphertextAndTagApart :
    ∀ f ∈ aeadForms,
      let s := sealReady f.2.1
      s.fatal = false ∧ s.cfg.legal = true ∧ s.MemOk ∧ s.klen.toNat = 32 ∧ s.nlen.toNat = f.2.1
        ∧ s.len.toNat ≤ s.dcap.toNat ∧ Fits s s.src.toNat s.len.toNat ∧ Fits s s.ad.toNat s.adlen.toNat
        ∧ Fits s s.dst.toNat s.dcap.toNat ∧ Fits s s.tag.toNat 16
        ∧ (s.src = s.dst ∨ Apart s.src.toNat s.len.toNat s.dst.toNat s.len.toNat)
        ∧ Apart s.ad.toNat s.adlen.toNat s.dst.toNat s.len.toNat ∧ Apart s.src.toNat s.len.toNat s.tag.toNat 16
        ∧ Apart s.ad.toNat s.adlen.toNat s.tag.toNat 16 ∧ Apart s.dst.toNat s.len.toNat s.tag.toNat 16 := by decide +kernel

/-- A box of the tag alone: the tag AEAD_SEAL.CHACHA20_IETF gives an empty message (V18: key `K1`, no associated data). -/
def tagBox : State :=
  withTag 0 (withSrc 0 16 (withMem 0 (hex 16 0xa0784d7a4716f3feb4f64e7f4b39bf04) (staged key1 12 nonceIetf)))

theorem witness_AeadOpenVerifiesThenDecrypts :
    (∀ s ∈ [tagBox, emptyBox],
        s.fatal = false ∧ s.cfg.legal = true ∧ s.MemOk ∧ s.klen.toNat = 32 ∧ s.nlen.toNat = 12 ∧ 16 ≤ s.len.toNat
          ∧ s.len.toNat - 16 ≤ s.dcap.toNat ∧ Fits s s.src.toNat s.len.toNat ∧ Fits s s.ad.toNat s.adlen.toNat
          ∧ Fits s s.dst.toNat s.dcap.toNat
          ∧ (s.src = s.dst ∨ Apart s.src.toNat s.len.toNat s.dst.toNat (s.len.toNat - 16))
          ∧ Apart s.ad.toNat s.adlen.toNat s.dst.toNat (s.len.toNat - 16))
      ∧ tagBox.dmem.readBytes 0 16 = aeadTagOf tagBox.cfg .chacha20Ietf tagBox.key (nonceB tagBox) [] []
      ∧ emptyBox.dmem.readBytes 0 16 ≠ aeadTagOf emptyBox.cfg .chacha20Ietf emptyBox.key (nonceB emptyBox) [] [] := by
  decide +kernel

theorem witness_AeadOpenDetVerifiesThenDecrypts :
    (∀ s ∈ [withSrc 0 0 tagBox, withSrc 0 0 emptyBox],
        s.fatal = false ∧ s.cfg.legal = true ∧ s.MemOk ∧ s.klen.toNat = 32 ∧ s.nlen.toNat = 12
          ∧ s.len.toNat ≤ s.dcap.toNat ∧ Fits s s.src.toNat s.len.toNat ∧ Fits s s.ad.toNat s.adlen.toNat
          ∧ Fits s s.tag.toNat 16 ∧ Fits s s.dst.toNat s.dcap.toNat
          ∧ (s.src = s.dst ∨ Apart s.src.toNat s.len.toNat s.dst.toNat s.len.toNat)
          ∧ Apart s.ad.toNat s.adlen.toNat s.dst.toNat s.len.toNat ∧ Apart s.tag.toNat 16 s.dst.toNat s.len.toNat)
      ∧ tagBox.dmem.readBytes 0 16 = aeadTagOf tagBox.cfg .chacha20Ietf tagBox.key (nonceB tagBox) [] []
      ∧ emptyBox.dmem.readBytes 0 16 ≠ aeadTagOf emptyBox.cfg .chacha20Ietf emptyBox.key (nonceB emptyBox) [] [] := by
  decide +kernel

theorem witness_AeadCommandsCheckTheirOperandsInOrder :
    let s := staged 0 12 0
    s.fatal = false ∧ State.reset.klen.toNat ≠ 32 ∧ s.klen.toNat = 32 ∧ (8 : Nat) ≠ 12 ∧ s.nlen.toNat = 12
      ∧ (25 : Word).toNat < (10 : Word).toNat + 16 ∧ (10 : Word).toNat + 16 ≤ (26 : Word).toNat
      ∧ (Fits s 0 10 ∧ Fits s 100 12 ∧ ¬ Fits s 4071 26) ∧ (Fits s 4070 26 ∧ Fits s 4080 16 ∧ ¬ Fits s 4081 16)
      ∧ ¬ ((0 : Word) = 1 ∨ Apart 0 10 1 26) ∧ Apart 0 10 10 26 ∧ ¬ Apart 100 12 75 26 ∧ Apart 100 12 74 26
      ∧ (9 : Word).toNat < (10 : Word).toNat ∧ ¬ Apart 0 10 9 16 ∧ ¬ Apart 9 16 0 10
      ∧ (15 : Word).toNat < 16 ∧ 16 ≤ (17 : Word).toNat ∧ (0 : Word).toNat < (17 : Word).toNat - 16
      ∧ (17 : Word).toNat - 16 ≤ (1 : Word).toNat ∧ ¬ ((0 : Word) = 16 ∨ Apart 0 17 16 1) := by decide +kernel

/-- Sealing an empty message. -/
def sealEmpty : State := withTag 100 (withDst 0 16 (staged key1 12 nonceIetf))

theorem witness_OpenOfSealGivesThePlaintextBack :
    let t := after .aeadSealChacha20Ietf sealEmpty
    let u := { t with src := sealEmpty.dst, len := sealEmpty.len + 16, dst := 200, dcap := 0 }
    sealEmpty.fatal = false ∧ sealEmpty.cfg.legal = true ∧ sealEmpty.MemOk
      ∧ exec .aeadSealChacha20Ietf sealEmpty = .next t ∧ t.err = .ok
      ∧ exec .aeadOpenChacha20Ietf u = .next (after .aeadOpenChacha20Ietf u) ∧ (after .aeadOpenChacha20Ietf u).err = .ok :=
  ⟨by decide +kernel, by decide +kernel, by decide +kernel, exec_after .., by decide +kernel, exec_after .., by decide +kernel⟩

theorem witness_DetachedSealIsCombinedSealSplit :
    sealEmpty.fatal = false ∧ sealEmpty.MemOk
      ∧ exec .aeadSealChacha20Ietf sealEmpty = .next (after .aeadSealChacha20Ietf sealEmpty)
      ∧ (after .aeadSealChacha20Ietf sealEmpty).err = .ok
      ∧ exec .aeadSealDetChacha20Ietf sealEmpty = .next (after .aeadSealDetChacha20Ietf sealEmpty)
      ∧ (after .aeadSealDetChacha20Ietf sealEmpty).err = .ok :=
  ⟨by decide +kernel, by decide +kernel, exec_after .., by decide +kernel, exec_after .., by decide +kernel⟩

theorem witness_AeadCommandsIgnoreEarlierUnitState :
    sealEmpty.fatal = false ∧ exec .aeadSealChacha20Ietf sealEmpty = .next (after .aeadSealChacha20Ietf sealEmpty)
      ∧ (after .aeadSealChacha20Ietf sealEmpty).err = .ok ∧ (after .aeadOpenChacha20Ietf emptyBox).err = .forgedOrCorrupted :=
  ⟨by decide +kernel, exec_after .., by decide +kernel, by decide +kernel⟩

theorem witness_MacInputIsFramedAsSpecified :
    Config.default.origLenPlacement = .trailing ∧ (⟨4096, .interleaved⟩ : Config).origLenPlacement = .interleaved := ⟨rfl, rfl⟩

theorem witness_PullUndoesPush : ∃ p, ssPush .default [] [] ssTagFinal ssV20 = .ok p := ⟨_, rfl⟩

theorem witness_ChunkCounterIsNeverLeftAtZero :
    ssV20.ctr ≠ 0 ∧ (∃ ss, ssInit (hex 32 keyUp) (hex 24 nonce40) = .ok ss) ∧ (∃ p, ssPush .default [] [] 0 ssV20 = .ok p)
      ∧ (ssPull .default (hex 20 0x0d62034c9e616d7b20552185ff142d81975308ef) [] ssV20).toOption.isSome = true :=
  ⟨by decide +kernel, ⟨_, rfl⟩, ⟨_, rfl⟩, by decide +kernel⟩

theorem witness_InitOnLgcComputesTheProtocolState :
    State.reset.Inv ∧ State.reset.fatal = false ∧ State.reset.const = sigmaWords ∧ (hex 32 keyUp).length = 32
      ∧ (hex 24 nonce40).length = 24 ∧ 4064 + 32 ≤ State.reset.cfg.dmemBytes :=
  ⟨reset_inv, rfl, rfl, by decide +kernel, by decide +kernel, by decide +kernel⟩

/-- A layout that ends on the last byte of DMEM: input and output at the end of it, scratch too, and the associated data (none in
these witnesses) past it. -/
def layEdge : SsLayout := ⟨4076, 0xffffffff, 4076, 4056⟩

/-- The error of a failed operation. -/
def errorOf {α : Type} (r : Except SsError α) : Option SsError :=
  match r with
  | .ok _ => none
  | .error e => some e

theorem witness_ForgedPullLeavesTheRecord :
    errorOf (ssPullOn layP4 (zeros 17) [] ssV20 State.reset).result = some .forgedOrCorrupted
      ∧ State.reset.Inv ∧ State.reset.fatal = false ∧ ssV20.phase = .ready ∧ 17 ≤ (zeros 17).length
      ∧ layEdge.Sound State.reset 17 0 1
      ∧ (zeros 17).drop 1 ≠ aeadTagOf .default .chacha20Ietf (keyWords ssV20.k.toList) (ssNonce ssV20) [] ((zeros 17).take 1) :=
  ⟨by decide +kernel, reset_inv, rfl, rfl, by decide, by decide, by decide +kernel⟩

theorem witness_PushAndPullOnLgcComputeTheProtocol :
    State.reset.Inv ∧ State.reset.fatal = false
      ∧ (errorOf (ssPush .default [] [] 4 ssV20) = some .badTag ∧ errorOf (ssPush .default [] [] 0 .wiped) = some .notReady)
      ∧ (layEdge.Sound State.reset (1 + 0) 0 (0 + 17) ∧ ∃ p, ssPush State.reset.cfg [] [] ssTagRekey ssV20 = .ok p)
      ∧ (errorOf (ssPull .default (zeros 16) [] ssV20) = some .cipherTooShort
          ∧ errorOf (ssPull .default (zeros 17) [] .wiped) = some .notReady)
      ∧ layEdge.Sound State.reset chunkV20.length 0 (chunkV20.length - 16)
      ∧ (ssPull State.reset.cfg chunkV20 [] ssV20).toOption.isSome = true :=
  ⟨reset_inv, rfl, by decide +kernel, ⟨by decide, _, rfl⟩, by decide +kernel, by decide, by decide +kernel⟩

theorem witness_ReKeyOnLgcRatchetsAndClearsTheOldKey :
    State.reset.Inv ∧ State.reset.fatal = false ∧ layEdge.scratch + 40 = State.reset.cfg.dmemBytes := ⟨reset_inv, rfl, rfl⟩

end Sys2Proof.Tests
end

section
/-! PROOFS. The host interface and `STATUS`: what a read and a write at each port do in one step (10_state.md section 2). -/

namespace Sys2Proof.Machine

/-! ### Reads -/

/-- A read at a word offset adds its answer and takes itself off the queue (rules R41, R52). -/
theorem step_read32 (s : State) (off : Nat) (rest : List HostOp) (ho : off % 4 = 0) :
    step { s with host := .read32 off :: rest }
      = .next { s with host := rest, answers := readPort (portAt s.cfg off) s :: s.answers } := by
  have hp : ∀ p, readPort p { s with host := rest } = readPort p s := by intro p; cases p <;> rfl
  rw [step_of_host rfl, transact, if_pos ho, hostRead, hp]

/-- A read of a register of the register page. -/
theorem step_readPort (s : State) (rest : List HostOp) (p : Port) (hp : ∀ a, p ≠ .dmem a) :
    step { s with host := .read32 (portOffset p) :: rest }
      = .next { s with host := rest, answers := readPort p s :: s.answers } := by
  have h := step_read32 s (portOffset p) rest (portOffset_aligned p fun a ha => absurd ha (hp a))
  rwa [portAt_portOffset s.cfg p fun a ha => absurd ha (hp a)] at h

/-- Settles O8: each conjunct is the read of one named port. -/
theorem registerReadsReturnTheMap : Obligations.RegisterReadsReturnTheMap := by
  intro s rest
  have r := step_readPort s rest
  exact ⟨r .id (by simp), r .cmd (by simp), r .status (by simp), r .reset (by simp), r .src (by simp), r .len (by simp),
    r .dst (by simp), r .dcap (by simp), r .ad (by simp), r .adlen (by simp), r .tag (by simp), r .klen (by simp),
    r .nlen (by simp), r .ctrLo (by simp), r .ctrHi (by simp), fun i => r (.key i) (by simp),
    fun i => r (.nonce i) (by simp), fun i => r (.const i) (by simp)⟩

/-- `STATUS` shows five flags of the units and nothing else of them. -/
theorem statusWord_congr {s : State} {key : Vector Word 8} {ks : KsState} {mac : MacState}
    (hk : ks.keyed = s.ks.keyed) (hw : ks.wrap = s.ks.wrap) (hmk : mac.keyed = s.mac.keyed)
    (hmw : mac.written = s.mac.written) (hmc : mac.consumed = s.mac.consumed) :
    statusWord { s with key := key, ks := ks, mac := mac } = statusWord s := by
  simp only [statusWord, statusFlags, hk, hw, hmk, hmw, hmc]

/-- Settles O10: of all ports only `STATUS` looks at a unit, and there at its flags. -/
theorem hostReadsDoNotDependOnSecrets : Obligations.HostReadsDoNotDependOnSecrets := by
  intro s key ks mac off rest hk hw hmk hmw hmc ho
  have hread : ∀ p, readPort p { s with key := key, ks := ks, mac := mac } = readPort p s := by
    intro p
    cases p
    case status => exact statusWord_congr hk hw hmk hmw hmc
    all_goals rfl
  refine ⟨readPort (portAt s.cfg off) s, step_read32 s off rest ho, ?_⟩
  rw [← hread]
  exact step_read32 { s with key := key, ks := ks, mac := mac } off rest ho

/-! ### `STATUS` -/

/-- `STATUS` as a number: three byte fields side by side. -/
theorem statusWord_toNat (s : State) :
    (statusWord s).toNat = s.fcode.code.toNat * 2 ^ 16 + s.err.code.toNat * 2 ^ 8 + (statusFlags s).toNat := by
  have hf := (statusFlags s).isLt
  have he := s.err.code.isLt
  simp only [statusWord, BitVec.toNat_append, BitVec.toNat_ofNat, Nat.zero_mod, Nat.zero_shiftLeft, Nat.zero_or]
  rw [← Nat.shiftLeft_add_eq_or_of_lt he, ← Nat.shiftLeft_add_eq_or_of_lt hf]
  simp only [Nat.shiftLeft_eq]
  omega

/-- The eight low bits of `STATUS` are its flags. -/
theorem statusWord_getLsbD_low (s : State) {i : Nat} (hi : i < 8) :
    (statusWord s).getLsbD i = (statusFlags s).getLsbD i := by
  simp only [statusWord, BitVec.getLsbD_append, hi, if_true]

/-- Settles O9: the flags bit by bit, the code fields by arithmetic on the three bytes. -/
theorem statusWordHasTheLayoutOfR17 : Obligations.StatusWordHasTheLayoutOfR17 := by
  intro s
  have hf := (statusFlags s).isLt
  have he := s.err.code.isLt
  have hc := s.fcode.code.isLt
  have herr : (statusWord s).toNat / 2 ^ 8 % 256 = s.err.code.toNat := by rw [statusWord_toNat]; omega
  have hfcode : (statusWord s).toNat / 2 ^ 16 % 256 = s.fcode.code.toNat := by rw [statusWord_toNat]; omega
  have htop : (statusWord s).toNat / 2 ^ 24 = 0 := by rw [statusWord_toNat]; omega
  refine ⟨?_, ?_, ?_, ?_, ?_, ?_, ?_, ?_, ?_, ?_, htop⟩
  case refine_9 => rw [herr]; cases s.err <;> rfl
  case refine_10 => rw [hfcode]; cases s.fcode <;> rfl
  all_goals
    rw [statusWord_getLsbD_low s (by decide)]
    simp only [statusFlags, BitVec.getLsbD_append]
    simp

/-! ### Writes -/

/-- The operand registers and the words of the staging files: the ports where a write stores its word (rules R12, R13). -/
def Port.isRegister : Port → Bool
  | .src | .len | .dst | .dcap | .ad | .adlen | .tag | .klen | .nlen | .ctrLo | .ctrHi => true
  | .key _ | .nonce _ | .const _ => true
  | .id | .cmd | .status | .reset | .dmem _ | .reserved => false

/-- Outside the fatal state a write to a register stores its word. -/
theorem step_storePort {s : State} (hf : s.fatal = false) (v : Word) (rest : List HostOp) (p : Port)
    (hp : p.isRegister = true) :
    step { s with host := .write32 (portOffset p) v :: rest } = .next (storePort p v { s with host := rest }) := by
  have hd : ∀ a, p ≠ .dmem a := by rintro a rfl; cases hp
  have ho := portOffset_aligned p fun a ha => absurd ha (hd a)
  have hat := portAt_portOffset s.cfg p fun a ha => absurd ha (hd a)
  rw [step_of_host rfl, transact, if_pos ho, hat]
  rcases writePort_cases p v { s with host := rest } with ⟨rfl, -⟩ | ⟨rfl, -⟩ | ⟨-, -, h⟩
  · cases hp
  · cases hp
  · rw [h, if_neg (by simp [hf])]

/-- Settles O7: each conjunct is the store at one named port. -/
theorem registerWritesStoreTheirWord : Obligations.RegisterWritesStoreTheirWord := by
  intro s v rest hf
  have w := step_storePort hf v rest
  exact ⟨w .src rfl, w .len rfl, w .dst rfl, w .dcap rfl, w .ad rfl, w .adlen rfl, w .tag rfl, w .klen rfl, w .nlen rfl,
    w .ctrLo rfl, w .ctrHi rfl, fun i => w (.key i) rfl, fun i => w (.nonce i) rfl, fun i => w (.const i) rfl⟩

/-- Settles O4: offset 4 is `CMD`, and a write there runs what its word decodes to. -/
theorem stepRunsTheDecodedCommand : Obligations.StepRunsTheDecodedCommand := by
  intro s w rest i hhost hdec
  have hport : transact (.write32 0x004 w) { s with host := rest } = writeCmd w { s with host := rest } := rfl
  rw [step_of_host hhost, hport, writeCmd, hdec]

/-! ### Reset -/

/-- A write to `RESET` is served in every state. -/
theorem step_writeReset (s : State) (v : Word) (rest : List HostOp) :
    step { s with host := .write32 0x00C v :: rest }
      = .next (if v = 0x52535421 then resetBlock { s with host := rest } else { s with host := rest }) := rfl

/-- Settles O13: both causes are `resetBlock`, whose value is R27's table; no other value written does anything. -/
theorem resetGivesEveryElementItsResetValue : Obligations.ResetGivesEveryElementItsResetValue := by
  intro s rest
  refine ⟨rfl, ?_, ?_, fun _ => rfl, fun _ => rfl, fun v hv => ?_⟩
  · rw [step_writeReset, if_pos rfl]
    rfl
  · simp only [statusWord, statusFlags]
    decide
  · rw [step_writeReset, if_neg hv]

end Sys2Proof.Machine
end

section
/-! PROOFS. What a command leaves of `VOK` and of the register page (10_state.md section 2), and the stream the KS unit is read
from (rule R20). -/

namespace Sys2Proof.Machine

/-! ### `VOK` and the register page after a command -/

/-- The open commands are those of R160 and R161 in the table of constructions. -/
theorem isOpen_iff (i : Instr) : isOpen i = true ↔ ∃ f ∈ aeadForms, i = f.2.2.2.2.1 ∨ i = f.2.2.2.2.2 := by
  cases i <;> simp [isOpen, aeadForms]

@[simp] theorem takeEvent_vok (e : Event) (s : State) : (takeEvent e s).vok = false := by cases e <;> rfl

/-- Settles O20: an event clears `VOK`, and of the effects only those of MAC_VERIFY and the open commands set it. -/
theorem vokIsSetOnlyByVerifyAndOpen : Obligations.VokIsSetOnlyByVerifyAndOpen := by
  intro i s t hf hexec hvok
  rcases exec_cases hexec with ⟨h, -⟩ | ⟨-, e, -, rfl⟩ | ⟨-, -, rfl⟩
  · simp [hf] at h
  · simp at hvok
  · rcases effectOf_result i s with ⟨hok, hset⟩ | ⟨-, hforged⟩
    · exact ⟨hok, (hset hvok).imp_right (isOpen_iff i).1⟩
    · simp [hforged] at hvok

/-- Settles O23: of the three ends of a command only a fatal error writes the register page beside WIPE_ALL's effect. -/
theorem commandsLeaveOperandAndStagingRegisters : Obligations.CommandsLeaveOperandAndStagingRegisters := by
  intro i s t hexec hfatal
  rcases exec_cases hexec with ⟨-, rfl⟩ | ⟨hf, e, -, rfl⟩ | ⟨-, -, rfl⟩
  · simp [State.SameOperands]
  · cases e with
    | error c => simp [State.SameOperands]
    | fatal f => simp [hf] at hfatal
  · obtain ⟨hops, hcfg, -, -, hhost, hans, hkey⟩ := effectOf_frame i s
    exact ⟨hops, hkey, hcfg, hhost, hans⟩

/-! ### Consuming keystream -/

/-- The first byte consumed, and the unit from which the rest is. -/
theorem KsAt.consume_first {base ks : KsState} {c n : Nat} (h : KsAt base ks c n)
    (hroom : c + (n + 1 + 63) / 64 ≤ base.alg.ctrMax) :
    ∃ ks', KsAt base ks' c (n + 1)
      ∧ ∀ m, consume (m + 1) ks = (streamByte base c n :: (consume m ks').1, (consume m ks').2) := by
  obtain ⟨hkeyed, halg, hkey, hnonce, hc, hctr, hbuf⟩ := h
  rcases hbuf with ⟨hn, hoff⟩ | ⟨hn, hoff, hbuf⟩
  · -- nothing is buffered: the byte opens block `c + n / 64`
    obtain ⟨hctr, hwrap⟩ : ks.ctr.toNat = c + n / 64 ∧ ks.wrap = false := by
      rcases hctr with ⟨-, hctr, hwrap⟩ | ⟨hlast, -, -⟩
      · exact ⟨by omega, hwrap⟩
      · omega
    have hblock : ksBlock ks = blockOf base (c + n / 64) :=
      ksBlock_congr halg hkey hnonce (BitVec.eq_of_toNat_eq (by simp [← hctr]))
    refine ⟨{ ksAdvance ks with buf := vecOfList 64 0 (ksBlock ks), off := 1 }, ?_, fun m => ?_⟩
    · rw [ksAdvance_eq]
      refine ⟨hkeyed, halg, hkey, hnonce, hc, ?_, .inr ⟨by omega, by simp only; omega, ?_⟩⟩
      · rcases ksAdvance_ctr ks (by rw [halg]; omega) with ⟨hlt, hnext, hw⟩ | ⟨heq, hzero, hw⟩
        · exact .inl ⟨by rw [halg] at hlt; omega, by simp only; omega, hw.trans hwrap⟩
        · exact .inr ⟨by rw [halg] at heq; omega, hzero, hw⟩
      · rw [vecOfList_toList 64 0 _ (by simp), hblock]
        simp [blockOf, show (n + 1) / 64 = n / 64 by omega]
    · rw [consume_succ_empty m hoff, hblock, streamByte, hn]
  · -- a block is partly used: the byte stands in it
    refine ⟨{ ks with off := ks.off + 1 }, ⟨hkeyed, halg, hkey, hnonce, hc, ?_, ?_⟩, fun m => ?_⟩
    · rwa [show (n + 1 + 63) / 64 = (n + 63) / 64 by omega]
    · by_cases hlast : (n + 1) % 64 = 0
      · exact .inl ⟨hlast, by simp only; omega⟩
      · exact .inr ⟨hlast, by simp only; omega, by rw [hbuf, show (n + 1) / 64 = n / 64 by omega]⟩
    · rw [consume_succ_buffered m (by omega), hbuf, hoff, streamByte]

/-- Settles O30, byte by byte. -/
theorem consumeReturnsTheNextStreamBytes : Obligations.ConsumeReturnsTheNextStreamBytes := by
  intro base ks c n m
  induction m generalizing ks n with
  | zero => exact fun h _ => ⟨rfl, h⟩
  | succ m ih =>
    intro h hroom
    obtain ⟨ks', h', hfirst⟩ := h.consume_first (by omega)
    obtain ⟨hbytes, hat⟩ := ih ks' (n + 1) h' (by omega)
    rw [hfirst]
    refine ⟨?_, by rwa [show n + (m + 1) = n + 1 + m by omega]⟩
    rw [hbytes, List.range_succ_eq_map]
    simp [Function.comp_def, Nat.add_assoc, Nat.add_comm 1]

end Sys2Proof.Machine
end

section
/-! PROOFS. The invariant of the two units: each operation on a unit keeps it (10_state.md rules R19, R22). -/

namespace Sys2Proof.Machine

/-! ### The KS unit -/

theorem KsState.inv_wiped : KsState.wiped.Inv := by decide +kernel

/-- The counter is one of the variant's counter values, and 0 once the last has been passed (rule R97). -/
def KsState.CtrOk (ks : KsState) : Prop := ks.ctr.toNat < ks.alg.ctrMax ∧ (ks.wrap = true → ks.ctr = 0)

theorem Alg.ctrMax_of_ne {alg : Alg} (h : alg ≠ .chacha20Ietf) : alg.ctrMax = 2 ^ 64 := by
  cases alg
  case chacha20Ietf => exact absurd rfl h
  all_goals rfl

/-- A keyed unit meets its invariant when its counter, buffer position and nonce tail do. -/
theorem KsState.inv_of_keyed {ks : KsState} (hkeyed : ks.keyed = true) (hctr : ks.CtrOk) (hoff : ks.off ≤ 64)
    (hnonce : ks.alg ≠ .chacha20Ietf → ks.nonce.toList.drop 8 = zeros 4) : ks.Inv :=
  ⟨hoff, fun h => by simp [hkeyed] at h, fun h => by simpa [h, Alg.ctrMax] using hctr.1, hnonce, hctr.2⟩

theorem KsState.Inv.ctrOk {ks : KsState} (h : ks.Inv) : ks.CtrOk := by
  obtain ⟨-, -, hietf, -, hwrap⟩ := h
  refine ⟨?_, hwrap⟩
  by_cases ha : ks.alg = .chacha20Ietf
  · simpa [ha, Alg.ctrMax] using hietf ha
  · rw [Alg.ctrMax_of_ne ha]
    exact ks.ctr.isLt

/-- A nonce of at most 8 bytes leaves the last four nonce bytes 0. -/
theorem drop_eight_nonce (n : List Byte) (h : n.length ≤ 8) : (vecOfList 12 (0 : Byte) n).toList.drop 8 = zeros 4 := by
  rw [vecOfList_toList 12 0 n (by omega), List.drop_append, List.drop_eq_nil_of_le h, List.drop_replicate, zeros,
    List.nil_append]
  congr 1
  omega

/-- Loading keeps the invariant (rules R104 to R108). -/
theorem ksLoad_inv (alg : Alg) (key : Vector Word 8) (n : List Byte) : (ksLoad alg key n).Inv := by
  obtain ⟨hkeyed, halg, hoff, hwrap, -, hctr⟩ := ksLoad_fresh alg key n
  refine KsState.inv_of_keyed hkeyed ⟨?_, by simp [hwrap]⟩ hoff.le ?_
  · rw [halg]
    by_cases ha : alg = .salsa20
    · rw [ha]
      exact (ksLoad .salsa20 key n).ctr.isLt
    · rw [hctr ha]
      cases alg <;> decide
  · rw [halg]
    intro ha
    cases alg
    case chacha20Ietf => exact absurd rfl ha
    all_goals exact drop_eight_nonce _ (by simp)

/-- A counter operand the range check admits is one of the variant's counter values (rule R99). -/
theorem counterOperand_lt {s : State} (h : s.ks.alg ≠ .chacha20Ietf ∨ s.ctrHi = 0) :
    (counterOperand s).toNat < s.ks.alg.ctrMax := by
  by_cases ha : s.ks.alg = .chacha20Ietf
  · have hzero : s.ctrHi = 0 := h.resolve_left (by simp [ha])
    have hlow : (counterOperand s).toNat = s.ctrLo.toNat := by
      simp only [counterOperand, hzero, BitVec.toNat_append]
      simp
    rw [hlow, ha]
    exact s.ctrLo.isLt
  · rw [Alg.ctrMax_of_ne ha]
    exact (counterOperand s).isLt

/-- Seeking keeps the invariant, an IETF counter being below 2^32 (rule R99). -/
theorem ksSeekTo_inv {ks : KsState} (h : ks.Inv) (hkeyed : ks.keyed = true) {c : BitVec 64}
    (hc : c.toNat < ks.alg.ctrMax) : (ksSeekTo c ks).Inv := by
  obtain ⟨-, -, -, hnonce, -⟩ := h
  exact KsState.inv_of_keyed hkeyed ⟨hc, by simp [ksSeekTo]⟩ le_rfl hnonce

/-- Generating a block takes one of the blocks left. -/
theorem blocksLeft_ksAdvance {ks : KsState} (h : ks.ctr.toNat < ks.alg.ctrMax) (hw : ks.wrap = false) :
    blocksLeft (ksAdvance ks) + 1 = blocksLeft ks := by
  have halg : (ksAdvance ks).alg = ks.alg := by rw [ksAdvance_eq]
  have hleft : blocksLeft ks = ks.alg.ctrMax - ks.ctr.toNat := by simp [blocksLeft, hw]
  rw [hleft, blocksLeft, halg]
  rcases ksAdvance_ctr ks h with ⟨hlt, hctr, hwrap⟩ | ⟨heq, -, hwrap⟩
  · rw [hwrap, hw, if_neg (by simp), hctr]
    omega
  · rw [hwrap, if_pos rfl]
    omega

theorem ksAdvance_ctrOk {ks : KsState} (h : ks.ctr.toNat < ks.alg.ctrMax) (hw : ks.wrap = false) :
    (ksAdvance ks).CtrOk := by
  have halg : (ksAdvance ks).alg = ks.alg := by rw [ksAdvance_eq]
  rw [KsState.CtrOk, halg]
  rcases ksAdvance_ctr ks h with ⟨hlt, hctr, hwrap⟩ | ⟨-, hctr, -⟩
  · exact ⟨hctr ▸ hlt, fun hw' => by simp [hwrap, hw] at hw'⟩
  · exact ⟨by rw [hctr]; exact (Nat.zero_le _).trans_lt h, fun _ => hctr⟩

/-- Consuming bytes the exhaustion check admits keeps the counter inside its range (rule R109). -/
theorem consume_ctrOk (n : Nat) {ks : KsState} (hoff : ks.off ≤ 64) (h : ks.CtrOk)
    (hroom : blocksNeeded ks n ≤ blocksLeft ks) : (consume n ks).2.CtrOk := by
  induction n generalizing ks with
  | zero => exact h
  | succ n ih =>
    rw [blocksNeeded_eq] at hroom
    by_cases h64 : ks.off = 64
    · have hneed : n / 64 + 1 ≤ blocksLeft ks := by rw [h64, if_neg (by omega)] at hroom; omega
      have hw : ks.wrap = false := by
        rw [blocksLeft] at hneed
        split at hneed
        · omega
        next hw => simpa using hw
      have hleft := blocksLeft_ksAdvance h.1 hw
      rw [consume_succ_empty n h64]
      refine ih (by simp) (ksAdvance_ctrOk h.1 hw) ?_
      change _ ≤ blocksLeft (ksAdvance ks)
      simp only [blocksNeeded_eq]
      split <;> omega
    · rw [consume_succ_buffered n (by omega)]
      refine ih (by simp only; omega) h ?_
      change _ ≤ blocksLeft ks
      simp only [blocksNeeded_eq]
      split at hroom <;> split <;> omega

/-- Consuming bytes the exhaustion check admits keeps the invariant. -/
theorem consume_inv {n : Nat} {ks : KsState} (h : ks.Inv) (hkeyed : ks.keyed = true)
    (hroom : blocksNeeded ks n ≤ blocksLeft ks) : (consume n ks).2.Inv := by
  obtain ⟨hk, ha, -, hn, hoff⟩ := consume_keeps n ks
  have hctr := consume_ctrOk n h.1 h.ctrOk hroom
  obtain ⟨hoff64, -, -, hnonce, -⟩ := h
  exact KsState.inv_of_keyed (hk.trans hkeyed) hctr (hoff hoff64) (by rwa [ha, hn])

/-! ### The MAC unit -/

theorem MacState.inv_wiped : MacState.wiped.Inv := by decide +kernel

/-- Keying clamps `R` (rules R131, R137). -/
theorem macKeyed_inv (k : List Byte) : (macKeyed k).Inv :=
  ⟨polyP_pos, Nat.zero_le _, by simp [macKeyed, BitVec.and_assoc], by simp [macKeyed], by simp [macKeyed]⟩

/-- Writing to a usable unit keeps the invariant. -/
theorem macWrite_inv {m : MacState} (h : m.Inv) (hk : m.keyed = true) (hc : m.consumed = false) (d : List Byte) :
    MacState.Inv { macWrite m d with written := true } := by
  obtain ⟨hh, hb, hr, -, -⟩ := h
  obtain ⟨hh', hb'⟩ := macWrite_bounds m d hh hb
  refine ⟨hh', hb', ?_, ?_, ?_⟩
  all_goals rw [macWrite_eq]
  · exact hr
  · simp [hk]
  · simp [hc]

/-- A spent unit keeps only its flags (rules R139, R140). -/
theorem macSpend_inv {m : MacState} (hk : m.keyed = true) (hw : m.written = true) : (macSpend m).Inv :=
  ⟨polyP_pos, Nat.zero_le _, by simp [macSpend], by simp [macSpend, hk], by simp [macSpend, hk, hw, MacState.wiped]⟩

end Sys2Proof.Machine
end

section
/-! PROOFS. The invariant of the whole machine: it holds at reset, and every step keeps it (10_state.md, 60_exceptions.md
section 2). -/

namespace Sys2Proof.Machine

/-! ### What an effect does to the units -/

/-- An AEAD command leaves both units wiped (rule R152). -/
@[simp] theorem sealEffect_ks (alg : Alg) (s : State) : (sealEffect alg s).ks = KsState.wiped := by rw [sealEffect_frame]

@[simp] theorem sealEffect_mac (alg : Alg) (s : State) : (sealEffect alg s).mac = MacState.wiped := by
  rw [sealEffect_frame]

@[simp] theorem sealDetEffect_ks (alg : Alg) (s : State) : (sealDetEffect alg s).ks = KsState.wiped := by
  rw [sealDetEffect_frame]

@[simp] theorem sealDetEffect_mac (alg : Alg) (s : State) : (sealDetEffect alg s).mac = MacState.wiped := by
  rw [sealDetEffect_frame]

@[simp] theorem finishOpen_ks (pt : Option (List Byte)) (s : State) : (finishOpen pt s).ks = KsState.wiped := by
  rw [finishOpen_frame]

@[simp] theorem finishOpen_mac (pt : Option (List Byte)) (s : State) : (finishOpen pt s).mac = MacState.wiped := by
  rw [finishOpen_frame]

/-- What an effect leaves in the KS unit. -/
theorem effectOf_ks (i : Instr) (s : State) :
    (effectOf i s).ks = s.ks ∨ (effectOf i s).ks = KsState.wiped
      ∨ (∃ alg, (effectOf i s).ks = ksLoad alg s.key (nonceB s))
      ∨ (i = .ksSeek ∧ (effectOf i s).ks = ksSeekTo (counterOperand s) s.ks)
      ∨ (i = .ksStream ∧ (effectOf i s).ks = (consume s.dcap.toNat s.ks).2)
      ∨ (i = .ksXor ∧ (effectOf i s).ks = (consume s.len.toNat s.ks).2) := by
  cases i
  case ksInitChacha20 | ksInitChacha20Ietf | ksInitXchacha20 | ksInitSalsa20 | ksInitXsalsa20 =>
    simp only [effectOf, ksInitEffect_def, finish_ks]
    exact .inr (.inr (.inl ⟨_, rfl⟩))
  all_goals simp [effectOf]

/-- What an effect leaves in the MAC unit. -/
theorem effectOf_mac (i : Instr) (s : State) :
    (effectOf i s).mac = s.mac ∨ (effectOf i s).mac = MacState.wiped
      ∨ (effectOf i s).mac = macKeyed (keyB s)
      ∨ (i = .macWrite
          ∧ (effectOf i s).mac = { macWrite s.mac (readRegion (srcRegion s) s) with written := true })
      ∨ ((i = .macSum ∨ i = .macVerify) ∧ (effectOf i s).mac = macSpend s.mac) := by
  cases i <;> simp [effectOf]

/-- An admitted command keeps the KS unit's invariant. -/
theorem effectOf_ks_inv {i : Instr} {s : State} (h : s.ks.Inv) (hc : ∀ c ∈ checksOf i s, c.holds = true) :
    (effectOf i s).ks.Inv := by
  rcases effectOf_ks i s with he | he | ⟨alg, he⟩ | ⟨rfl, he⟩ | ⟨rfl, he⟩ | ⟨rfl, he⟩ <;> rw [he]
  · exact h
  · exact KsState.inv_wiped
  · exact ksLoad_inv alg _ _
  · simp only [checksOf, List.forall_mem_cons, checkKsKeyed_holds, checkCounterRange_holds] at hc
    obtain ⟨hkeyed, hrange, -⟩ := hc
    exact ksSeekTo_inv h hkeyed (counterOperand_lt hrange)
  · simp only [checksOf, List.forall_mem_cons, checkKsKeyed_holds, checkBlocks_holds] at hc
    obtain ⟨hkeyed, -, hroom, -⟩ := hc
    exact consume_inv h hkeyed hroom
  · simp only [checksOf, List.forall_mem_cons, checkKsKeyed_holds, checkBlocks_holds] at hc
    obtain ⟨hkeyed, -, -, -, hroom, -⟩ := hc
    exact consume_inv h hkeyed hroom

/-- An admitted command keeps the MAC unit's invariant. -/
theorem effectOf_mac_inv {i : Instr} {s : State} (h : s.mac.Inv) (hc : ∀ c ∈ checksOf i s, c.holds = true) :
    (effectOf i s).mac.Inv := by
  rcases effectOf_mac i s with he | he | he | ⟨rfl, he⟩ | ⟨rfl | rfl, he⟩ <;> rw [he]
  · exact h
  · exact MacState.inv_wiped
  · exact macKeyed_inv _
  · simp only [checksOf, List.forall_mem_cons, checkMacUsable_holds] at hc
    obtain ⟨⟨hkeyed, hfresh⟩, -⟩ := hc
    exact macWrite_inv h hkeyed hfresh _
  all_goals
    simp only [checksOf, List.forall_mem_cons, checkMacUsable_holds, checkMacWritten_holds] at hc
    obtain ⟨⟨hkeyed, -⟩, hwritten, -⟩ := hc
    exact macSpend_inv hkeyed hwritten

/-! ### What an effect does to DMEM -/

@[simp] theorem aeadCrypt_length (ks : KsState) (x : List Byte) : (aeadCrypt ks x).length = x.length := by
  simp [aeadCrypt]

/-- A ciphertext is as long as its plaintext. -/
@[simp] theorem sealed_ct_length (alg : Alg) (s : State) : (sealed alg s).1.length = s.len.toNat := by
  simp [sealed, sealStaged, aeadSealBytes]

@[simp] theorem sealed_tag_length (alg : Alg) (s : State) : (sealed alg s).2.length = 16 := by
  simp [sealed, sealStaged, aeadSealBytes]

/-- What an open releases is as long as the ciphertext. -/
theorem openStaged_length {alg : Alg} {s : State} {ad ct given pt : List Byte}
    (h : openStaged alg s ad ct given = some pt) : pt.length = ct.length := by
  simp only [openStaged, aeadOpenBytes] at h
  split at h
  · rw [← Option.some.inj h, aeadCrypt_length]
  · cases h

/-- A write into a region in range keeps the canonical form of DMEM. -/
theorem wf_writeBytes_of_fits {s : State} {m : Memory} {a n : Nat} {v : List Byte}
    (hm : Memory.wf s.cfg.dmemBytes m = true) (hfit : Fits s a n) (hv : v.length ≤ n) :
    Memory.wf s.cfg.dmemBytes (m.writeBytes a v) = true := by
  refine Memory.wf_writeBytes ?_ hm
  rcases hfit with rfl | hfit
  · exact .inl (List.eq_nil_of_length_eq_zero (by omega))
  · exact .inr (by omega)

theorem sealEffect_wf {alg : Alg} {s : State} (hm : s.MemOk) (hc : ∀ c ∈ sealChecks alg s, c.holds = true) :
    Memory.wf s.cfg.dmemBytes (sealEffect alg s).dmem = true := by
  simp only [sealChecks, List.forall_mem_cons, checkCapacity_holds, checkRange_holds, tagBytes, dstRegion_off,
    dstRegion_len] at hc
  obtain ⟨-, -, hcap, ⟨-, -, hdst, -⟩, -⟩ := hc
  rw [sealEffect_dmem]
  have hct := wf_writeBytes_of_fits hm hdst (v := (sealed alg s).1) (by simp; omega)
  exact wf_writeBytes_of_fits (n := 16) hct (.inr (by rcases hdst with h | h <;> omega)) (by simp)

theorem sealDetEffect_wf {alg : Alg} {s : State} (hm : s.MemOk) (hc : ∀ c ∈ sealDetChecks alg s, c.holds = true) :
    Memory.wf s.cfg.dmemBytes (sealDetEffect alg s).dmem = true := by
  simp only [sealDetChecks, List.forall_mem_cons, checkCapacity_holds, checkRange_holds, dstRegion_off, dstRegion_len,
    tagRegion_off, tagRegion_len] at hc
  obtain ⟨-, -, hcap, ⟨-, -, hdst, htag, -⟩, -⟩ := hc
  rw [sealDetEffect_dmem]
  exact wf_writeBytes_of_fits (wf_writeBytes_of_fits hm hdst (by simp; omega)) htag (by simp)

/-- The end of an open command keeps DMEM's form when what it releases fits at `DST`. -/
theorem finishOpen_wf {pt : Option (List Byte)} {s : State} (hm : s.MemOk) (hdst : Fits s s.dst.toNat s.dcap.toNat)
    (hlen : ∀ p, pt = some p → p.length ≤ s.dcap.toNat) :
    Memory.wf s.cfg.dmemBytes (finishOpen pt s).dmem = true := by
  rw [finishOpen_dmem]
  cases pt with
  | none => exact hm
  | some p => exact wf_writeBytes_of_fits hm hdst (hlen p rfl)

theorem open_wf {alg : Alg} {s : State} (hm : s.MemOk) (hc : ∀ c ∈ openChecks alg s, c.holds = true) :
    Memory.wf s.cfg.dmemBytes (finishOpen (opened alg s) s).dmem = true := by
  simp only [openChecks, List.forall_mem_cons, checkCapacity_holds, checkRange_holds, dstRegion_off, dstRegion_len] at hc
  obtain ⟨-, -, -, hcap, ⟨-, -, hdst, -⟩, -⟩ := hc
  refine finishOpen_wf hm hdst fun p hp => ?_
  have hlen := openStaged_length hp
  simp at hlen
  omega

theorem openDet_wf {alg : Alg} {s : State} (hm : s.MemOk) (hc : ∀ c ∈ openDetChecks alg s, c.holds = true) :
    Memory.wf s.cfg.dmemBytes (finishOpen (openedDet alg s) s).dmem = true := by
  simp only [openDetChecks, List.forall_mem_cons, checkCapacity_holds, checkRange_holds, dstRegion_off,
    dstRegion_len] at hc
  obtain ⟨-, -, hcap, ⟨-, -, -, hdst, -⟩, -⟩ := hc
  refine finishOpen_wf hm hdst fun p hp => ?_
  have hlen := openStaged_length hp
  simp at hlen
  omega

theorem deriveEffect_wf {h : List Byte → List Byte → List Byte → List Byte} (hh : ∀ k n c, (h k n c).length = 32)
    {s : State} (hm : s.MemOk) (hc : ∀ c ∈ deriveChecks s, c.holds = true) :
    Memory.wf s.cfg.dmemBytes (deriveEffect h s).dmem = true := by
  simp only [deriveChecks, List.forall_mem_cons, checkCapacity_holds, checkRange_holds, dstRegion_off, dstRegion_len] at hc
  obtain ⟨-, -, -, hcap, ⟨hdst, -⟩, -⟩ := hc
  rw [deriveEffect_dmem]
  exact wf_writeBytes_of_fits hm hdst (by rw [hh]; exact hcap)

/-- An admitted command keeps DMEM's canonical form and its bounds (rule R26). -/
theorem effectOf_wf {i : Instr} {s : State} (hm : s.MemOk) (hc : ∀ c ∈ checksOf i s, c.holds = true) :
    Memory.wf s.cfg.dmemBytes (effectOf i s).dmem = true := by
  cases i
  case bufWipe =>
    simp only [checksOf, List.forall_mem_cons, checkRange_holds] at hc
    obtain ⟨⟨hdst, -⟩, -⟩ := hc
    simp only [effectOf, finish_dmem, writeAt_dmem]
    exact wf_writeBytes_of_fits hm hdst (by simp)
  case ksStream =>
    simp only [checksOf, List.forall_mem_cons, checkRange_holds] at hc
    obtain ⟨-, ⟨hdst, -⟩, -⟩ := hc
    simp only [effectOf, finish_dmem, writeAt_dmem]
    exact wf_writeBytes_of_fits hm hdst (by simp)
  case ksXor =>
    simp only [checksOf, List.forall_mem_cons, checkCapacity_holds, checkRange_holds] at hc
    obtain ⟨-, hcap, ⟨-, hdst, -⟩, -⟩ := hc
    simp only [effectOf, finish_dmem, writeAt_dmem]
    exact wf_writeBytes_of_fits hm hdst (by simpa using hcap)
  case macSum =>
    simp only [checksOf, List.forall_mem_cons, checkCapacity_holds, checkRange_holds] at hc
    obtain ⟨-, -, hcap, ⟨hdst, -⟩, -⟩ := hc
    simp only [effectOf, finish_dmem, writeAt_dmem]
    exact wf_writeBytes_of_fits hm hdst (by simpa [tagBytes] using hcap)
  case deriveXchacha20 => exact deriveEffect_wf hchacha20_length hm hc
  case deriveXsalsa20 => exact deriveEffect_wf hsalsa20_length hm hc
  case aeadSealChacha20 | aeadSealChacha20Ietf | aeadSealXchacha20 | aeadSealXsalsa20 => exact sealEffect_wf hm hc
  case aeadSealDetChacha20 | aeadSealDetChacha20Ietf | aeadSealDetXchacha20 | aeadSealDetXsalsa20 =>
    exact sealDetEffect_wf hm hc
  case aeadOpenChacha20 | aeadOpenChacha20Ietf | aeadOpenXchacha20 | aeadOpenXsalsa20 => exact open_wf hm hc
  case aeadOpenDetChacha20 | aeadOpenDetChacha20Ietf | aeadOpenDetXchacha20 | aeadOpenDetXsalsa20 =>
    exact openDet_wf hm hc
  all_goals exact hm

/-! ### The ends of a command -/

/-- Outside the fatal state the result fields are sound when `ERR` is neither marker nor reserved code, `VOK` comes with `OK`
alone and there is no fatal code. -/
theorem State.resultInv_of_not_fatal {s : State} (hf : s.fatal = false) (hcode : s.fcode = .none)
    (hmark : s.err ≠ .fatalMarker) (hres : s.err ≠ .invalidPoint) (hvok : s.vok = true → s.err = .ok) : s.ResultInv :=
  ⟨fun h => by simp [hf] at h, fun _ => ⟨hmark, hcode⟩, hvok, hres⟩

/-- Outside the fatal state there is no fatal code. -/
theorem State.Inv.fcode {s : State} (h : s.Inv) (hf : s.fatal = false) : s.fcode = .none := by
  obtain ⟨-, -, -, -, -, hnf, -⟩ := h
  exact (hnf hf).2

theorem raiseError_inv {s : State} (h : s.Inv) (hf : s.fatal = false) {c : ErrCode} (hmark : c ≠ .fatalMarker)
    (hres : c ≠ .invalidPoint) : (raiseError c s).Inv := by
  have hcode := h.fcode hf
  obtain ⟨hcfg, hmem, hks, hmac, -⟩ := h
  exact ⟨hcfg, hmem, hks, hmac, State.resultInv_of_not_fatal hf hcode hmark hres (by simp)⟩

theorem raiseFatal_inv {s : State} (h : s.Inv) {f : FatalCode} (hcode : f ≠ .none) : (raiseFatal f s).Inv := by
  obtain ⟨hcfg, hmem, -, -, -⟩ := h
  exact ⟨hcfg, hmem, KsState.inv_wiped, MacState.inv_wiped, by simp [State.ResultInv, State.OperandsZero, hcode]⟩

/-- Taking an event of R212's table keeps the invariant. -/
theorem takeEvent_inv {i : Instr} {e : Event} {s : State} (h : s.Inv) (hf : s.fatal = false) (he : e ∈ eventsOf i) :
    (takeEvent e s).Inv := by
  obtain ⟨-, hmark, hres, hnone⟩ := eventsOf_codes (i := i)
  cases e with
  | error c => exact raiseError_inv h hf (by rintro rfl; exact hmark he) (by rintro rfl; exact hres he)
  | fatal f => exact raiseFatal_inv h (by rintro rfl; exact hnone he)

/-- The effect of an admitted command keeps the invariant. -/
theorem effectOf_inv {i : Instr} {s : State} (h : s.Inv) (hf : s.fatal = false)
    (hc : ∀ c ∈ checksOf i s, c.holds = true) : (effectOf i s).Inv := by
  have hcode := h.fcode hf
  obtain ⟨hcfg, hmem, hks, hmac, -⟩ := h
  obtain ⟨-, hcfg', hf', hcode', -, -, -⟩ := effectOf_frame i s
  rw [← hcfg'] at hcfg
  refine ⟨hcfg, by rw [hcfg']; exact effectOf_wf hmem hc, effectOf_ks_inv hks hc, effectOf_mac_inv hmac hc, ?_⟩
  rw [← hf'] at hf
  rw [← hcode'] at hcode
  rcases effectOf_result i s with ⟨hok, -⟩ | ⟨-, hforged⟩
  · exact State.resultInv_of_not_fatal hf hcode (by simp [hok]) (by simp [hok]) fun _ => hok
  · exact State.resultInv_of_not_fatal hf hcode (by simp [hforged]) (by simp [hforged]) (by simp [hforged])

/-- Every command keeps the invariant. -/
theorem exec_inv {i : Instr} {s t : State} (h : s.Inv) (hexec : exec i s = .next t) : t.Inv := by
  rcases exec_cases hexec with ⟨-, rfl⟩ | ⟨hf, e, he, rfl⟩ | ⟨hf, hc, rfl⟩
  · exact h
  · exact takeEvent_inv h hf (checksOf_event he).1
  · exact effectOf_inv h hf ((firstFailure_none_iff _).1 hc)

/-! ### Reset and the host's accesses -/

theorem resetWith_inv {cfg : Config} (h : cfg.legal = true) : (State.resetWith cfg).Inv :=
  ⟨h, rfl, KsState.inv_wiped, MacState.inv_wiped, State.resultInv_of_not_fatal rfl rfl nofun nofun nofun⟩

/-- Settles O21. -/
theorem resetStateMeetsTheInvariant : Obligations.ResetStateMeetsTheInvariant :=
  ⟨resetWith_inv (by decide), fun _ h => resetWith_inv h⟩

/-- A plain store touches neither the parameters, nor a unit, nor a result field. -/
theorem storePort_keeps (p : Port) (v : Word) (s : State) :
    (storePort p v s).cfg = s.cfg ∧ (storePort p v s).ks = s.ks ∧ (storePort p v s).mac = s.mac
      ∧ (storePort p v s).err = s.err ∧ (storePort p v s).vok = s.vok ∧ (storePort p v s).fatal = s.fatal
      ∧ (storePort p v s).fcode = s.fcode := by
  cases p <;> simp [storePort]

/-- A plain store into the DMEM window keeps DMEM's form; any other leaves DMEM alone. -/
theorem storePort_wf {p : Port} {v : Word} {s : State} (hm : s.MemOk)
    (hd : ∀ a, p = .dmem a → a + 4 ≤ s.cfg.dmemBytes) : Memory.wf s.cfg.dmemBytes (storePort p v s).dmem = true := by
  cases p
  case dmem a => exact Memory.wf_writeBytes (.inr (by simpa using hd a rfl)) hm
  all_goals exact hm

/-- A plain store outside the fatal state keeps the invariant. -/
theorem storePort_inv {p : Port} {v : Word} {s : State} (h : s.Inv) (hf : s.fatal = false)
    (hd : ∀ a, p = .dmem a → a + 4 ≤ s.cfg.dmemBytes) : (storePort p v s).Inv := by
  have hcode := h.fcode hf
  obtain ⟨hcfg, hmem, hks, hmac, -, hnf, hvok, hres⟩ := h
  obtain ⟨ecfg, eks, emac, eerr, evok, efatal, efcode⟩ := storePort_keeps p v s
  refine ⟨by rwa [ecfg], by rw [ecfg]; exact storePort_wf hmem hd, by rwa [eks], by rwa [emac], ?_⟩
  exact State.resultInv_of_not_fatal (efatal.trans hf) (efcode.trans hcode) (by rw [eerr]; exact (hnf hf).1)
    (by rwa [eerr]) (by rwa [eerr, evok])

/-- A write at an offset of the host window keeps the invariant. -/
theorem writePort_inv {s t : State} (h : s.Inv) {off : Nat} {v : Word}
    (hw : writePort (portAt s.cfg off) v s = .next t) : t.Inv := by
  obtain ⟨-, -, hd⟩ := portAt_cases s.cfg off
  rcases writePort_cases (portAt s.cfg off) v s with ⟨-, ⟨i, -, h'⟩ | ⟨-, h'⟩⟩ | ⟨-, h'⟩ | ⟨-, -, h'⟩ <;> rw [h'] at hw
  · exact exec_inv h hw
  · cases hw
    split
    · exact h
    next hf => exact raiseError_inv h (by simpa using hf) nofun nofun
  · cases hw
    split
    · exact resetWith_inv h.1
    · exact h
  · cases hw
    split
    · exact h
    next hf => exact storePort_inv h (by simpa using hf) fun a ha => (hd a ha).2

/-- Every transaction of the host keeps the invariant. -/
theorem transact_inv {op : HostOp} {s t : State} (h : s.Inv) (ht : transact op s = .next t) : t.Inv := by
  rcases transact_cases op s with ⟨off, -, -, h'⟩ | ⟨off, v, -, -, h'⟩ | ⟨-, h'⟩ | ⟨off, -, -, h'⟩ | ⟨off, n, -, h'⟩ <;>
    rw [h'] at ht
  · cases ht
    exact h
  · exact writePort_inv h ht
  · cases ht
    exact resetWith_inv h.1
  · cases ht
  · cases ht

/-- Settles O22: a step is idle or serves one transaction. -/
theorem everyStepKeepsTheInvariant : Obligations.EveryStepKeepsTheInvariant := by
  intro s t h hstep
  cases hhost : s.host with
  | nil =>
    rw [step_idle hhost] at hstep
    cases hstep
    exact h
  | cons op rest =>
    rw [step_of_host hhost] at hstep
    exact transact_inv (s := { s with host := rest }) h hstep

end Sys2Proof.Machine
end

section
/-! PROOFS. The host interface as 20_memory.md has it: the DMEM window (rule R42), the offsets with nothing to read or to write
(rule R51), the accesses that stop the machine (rule R41), and a queue served in order (rule R47). -/

namespace Sys2Proof.Machine

/-! ### Writes at any word offset -/

/-- A write at a word offset is served at the port that stands there, itself off the queue first. -/
theorem step_write32 (s : State) (off : Nat) (v : Word) (rest : List HostOp) (ho : off % 4 = 0) :
    step { s with host := .write32 off v :: rest } = writePort (portAt s.cfg off) v { s with host := rest } := by
  rw [step_of_host rfl, transact, if_pos ho]

/-- At every port but `CMD` and `RESET` a write is a plain store, ignored in the fatal state (rule R209). -/
theorem writePort_store {p : Port} (hc : p ≠ .cmd) (hr : p ≠ .reset) (v : Word) (s : State) :
    writePort p v s = .next (if s.fatal then s else storePort p v s) := by
  rcases writePort_cases p v s with ⟨h, -⟩ | ⟨h, -⟩ | ⟨-, -, h⟩
  · exact absurd h hc
  · exact absurd h hr
  · exact h

/-! ### The DMEM window (rule R42) -/

/-- The word at a DMEM offset, from its four bytes. -/
theorem le32_readBytes (m : Memory) (a : Nat) :
    le32 (m.readBytes a 4)
      = BitVec.ofNat 32
          ((m.read a).toNat + 2 ^ 8 * (m.read (a + 1)).toNat + 2 ^ 16 * (m.read (a + 2)).toNat
            + 2 ^ 24 * (m.read (a + 3)).toNat) := by
  have hbytes : m.readBytes a 4 = [m.read a, m.read (a + 1), m.read (a + 2), m.read (a + 3)] := rfl
  rw [le32, hbytes]
  simp only [lenum_cons, lenum_nil]
  congr 1
  omega

/-- The bytes of a word, least significant first. -/
theorem toLe32_eq (v : Word) :
    toLe32 v = [v.extractLsb' 0 8, v.extractLsb' 8 8, v.extractLsb' 16 8, v.extractLsb' 24 8] := by
  simp only [toLe32, toLe, BitVec.extractLsb', Nat.shiftRight_eq_div_pow, Nat.div_div_eq_div_mul]
  norm_num

/-- Settles O11: the window's words are the `dmem` ports, read as four bytes and written as four bytes. -/
theorem dmemWindowReadsAndWritesFourBytes : Obligations.DmemWindowReadsAndWritesFourBytes := by
  intro s a v rest hm ha hfit
  have ho : (0x1000 + a) % 4 = 0 := by omega
  have hport := portAt_dmem s.cfg a hfit
  have hwrite : step { s with host := .write32 (0x1000 + a) v :: rest }
      = .next (if s.fatal then { s with host := rest } else writeAt a (toLe32 v) { s with host := rest }) := by
    rw [step_write32 s _ v rest ho, hport, writePort_store (by simp) (by simp)]
    rfl
  refine ⟨?_, fun hf => ?_, fun hf => ⟨writeAt a (toLe32 v) { s with host := rest }, ?_, rfl, ?_⟩⟩
  · rw [step_read32 s _ rest ho, hport, readPort, le32_readBytes]
    rfl
  · rw [hwrite, if_pos hf]
  · rw [hwrite, if_neg (by simp [hf])]
  · rw [← toLe32_eq]
    exact writesExactly_writeBytes hm rfl

/-! ### Offsets with nothing to read or to write (rule R51) -/

/-- At `ID`, `STATUS` and the reserved offsets a write is ignored, in every state. -/
theorem step_write32_ignored {s : State} {off : Nat} (v : Word) (rest : List HostOp) (ho : off % 4 = 0)
    (hp : portAt s.cfg off = .id ∨ portAt s.cfg off = .status ∨ portAt s.cfg off = .reserved) :
    step { s with host := .write32 off v :: rest } = .next { s with host := rest } := by
  rw [step_write32 s off v rest ho]
  rcases hp with hp | hp | hp <;> rw [hp, writePort_store (by simp) (by simp)] <;> exact congrArg _ (ite_self _)

/-- The word offsets of the `KEY` file. -/
theorem portAt_key_range (cfg : Config) {off : Nat} (ho : off % 4 = 0) (hoff : 0x040 ≤ off ∧ off ≤ 0x05C) :
    ∃ i, portAt cfg off = .key i := by
  obtain ⟨k, rfl⟩ : ∃ k, off = 0x040 + 4 * k := ⟨(off - 0x040) / 4, by omega⟩
  exact ⟨⟨k, by omega⟩, portAt_key cfg ⟨k, by omega⟩⟩

/-- Settles O12: these offsets hold ports whose read is 0, and ports whose store does nothing. -/
theorem unmappedAccessesReadZeroAndIgnoreWrites : Obligations.UnmappedAccessesReadZeroAndIgnoreWrites := by
  intro s off v rest ho reserved writeOnly readOnly
  have hreserved : reserved → portAt s.cfg off = .reserved := by
    rintro (h | h | h | h | h)
    · exact portAt_reserved s.cfg off (.inl h)
    · exact portAt_reserved s.cfg off (.inr (.inl h))
    · exact portAt_reserved s.cfg off (.inr (.inr (.inl h)))
    · exact portAt_reserved s.cfg off (.inr (.inr (.inr h)))
    · exact portAt_beyond s.cfg off h
  constructor
  · intro h
    have hzero : readPort (portAt s.cfg off) s = 0 := by
      rcases h with h | rfl | rfl | h
      · rw [hreserved h]
        rfl
      · rfl
      · rfl
      · obtain ⟨i, hi⟩ := portAt_key_range s.cfg ho h
        rw [hi]
        rfl
    rw [step_read32 s off rest ho, hzero]
  · intro h
    refine step_write32_ignored v rest ho ?_
    rcases h with h | rfl | rfl
    · exact .inr (.inr (hreserved h))
    · exact .inl rfl
    · exact .inr (.inl rfl)

/-! ### What stops the machine (rule R41) -/

/-- Settles O6: of the transactions only the two kinds that do not exist are refused. -/
theorem onlyImpossibleAccessesStopTheMachine : Obligations.OnlyImpossibleAccessesStopTheMachine := by
  refine ⟨exec_next, fun s => ?_⟩
  cases hhost : s.host with
  | nil => exact .inl ⟨s, step_idle hhost⟩
  | cons op rest =>
    rw [step_of_host hhost]
    rcases transact_cases op { s with host := rest } with
      ⟨off, -, -, h⟩ | ⟨off, v, -, -, h⟩ | ⟨-, h⟩ | ⟨off, hoff, rfl | ⟨v, rfl⟩, h⟩ | ⟨off, n, rfl, h⟩
    · exact .inl ⟨_, h⟩
    · obtain ⟨t, ht⟩ := writePort_next (portAt s.cfg off) v { s with host := rest }
      exact .inl ⟨t, h.trans ht⟩
    · exact .inl ⟨_, h⟩
    · exact .inr (.inl ⟨off, rest, rfl, hoff, h⟩)
    · exact .inr (.inr (.inl ⟨off, v, rest, rfl, hoff, h⟩))
    · exact .inr (.inr (.inr ⟨off, n, rest, rfl, h⟩))

/-! ### No transaction looks at the queue behind it (rule R47)

Each operation commutes with exchanging the queue `host` for another queue `q`; what only reads the state does not see it. -/

theorem checksOf_host (i : Instr) (s : State) (q : List HostOp) : checksOf i { s with host := q } = checksOf i s := by
  cases i <;> rfl

theorem finishOpen_host (pt : Option (List Byte)) (s : State) (q : List HostOp) :
    finishOpen pt { s with host := q } = { finishOpen pt s with host := q } := by
  cases pt <;> rfl

theorem takeEvent_host (e : Event) (s : State) (q : List HostOp) :
    takeEvent e { s with host := q } = { takeEvent e s with host := q } := by
  cases e <;> rfl

theorem storePort_host (p : Port) (v : Word) (s : State) (q : List HostOp) :
    storePort p v { s with host := q } = { storePort p v s with host := q } := by
  cases p <;> rfl

theorem readPort_host (p : Port) (s : State) (q : List HostOp) : readPort p { s with host := q } = readPort p s := by
  cases p <;> rfl

theorem sealed_host (alg : Alg) (s : State) (q : List HostOp) : sealed alg { s with host := q } = sealed alg s := rfl

theorem sealEffect_host (alg : Alg) (s : State) (q : List HostOp) :
    sealEffect alg { s with host := q } = { sealEffect alg s with host := q } := by
  rw [sealEffect, sealEffect, sealed_host]
  generalize sealed alg s = p
  rfl

theorem sealDetEffect_host (alg : Alg) (s : State) (q : List HostOp) :
    sealDetEffect alg { s with host := q } = { sealDetEffect alg s with host := q } := by
  rw [sealDetEffect, sealDetEffect, sealed_host]
  generalize sealed alg s = p
  rfl

theorem deriveEffect_host (h : List Byte → List Byte → List Byte → List Byte) (s : State) (q : List HostOp) :
    deriveEffect h { s with host := q } = { deriveEffect h s with host := q } := by
  rw [deriveEffect, deriveEffect]
  rfl

/-- DERIVE and the AEAD effects by the lemmas above, whatever function or variant the command selects; every other effect is
one update of the state. -/
theorem effectOf_host (i : Instr) (s : State) (q : List HostOp) :
    effectOf i { s with host := q } = { effectOf i s with host := q } := by
  cases i
  case deriveXchacha20 | deriveXsalsa20 => exact deriveEffect_host _ s q
  case aeadSealChacha20 | aeadSealChacha20Ietf | aeadSealXchacha20 | aeadSealXsalsa20 => exact sealEffect_host _ s q
  case aeadSealDetChacha20 | aeadSealDetChacha20Ietf | aeadSealDetXchacha20 | aeadSealDetXsalsa20 =>
    exact sealDetEffect_host _ s q
  case aeadOpenChacha20 | aeadOpenChacha20Ietf | aeadOpenXchacha20 | aeadOpenXsalsa20 =>
    exact finishOpen_host (opened _ s) s q
  case aeadOpenDetChacha20 | aeadOpenDetChacha20Ietf | aeadOpenDetXchacha20 | aeadOpenDetXsalsa20 =>
    exact finishOpen_host (openedDet _ s) s q
  all_goals rfl

/-- A command of these checks does the same whatever stands in the queue, if its effect does. -/
theorem runCommand_host {cs : List Check} {f : State → State} {s t : State} {q : List HostOp}
    (hf : f { s with host := q } = { f s with host := q }) (h : runCommand cs f s = .next t) :
    runCommand cs f { s with host := q } = .next { t with host := q } := by
  rcases runCommand_cases h with ⟨hfatal, rfl⟩ | ⟨hfatal, e, he, rfl⟩ | ⟨hfatal, hc, rfl⟩
  · exact runCommand_fatal (s := { t with host := q }) hfatal cs f
  · rw [← takeEvent_host]
    exact runCommand_fail (s := { s with host := q }) hfatal he f
  · rw [← hf]
    exact runCommand_pass (s := { s with host := q }) hfatal hc f

theorem exec_host {i : Instr} {s t : State} (h : exec i s = .next t) (q : List HostOp) :
    exec i { s with host := q } = .next { t with host := q } := by
  rw [exec_eq] at h ⊢
  rw [checksOf_host]
  exact runCommand_host (effectOf_host i s q) h

theorem writePort_host {p : Port} {v : Word} {s t : State} (h : writePort p v s = .next t) (q : List HostOp) :
    writePort p v { s with host := q } = .next { t with host := q } := by
  by_cases hcmd : p = .cmd
  · subst hcmd
    rw [writePort, writeCmd] at h ⊢
    cases hd : decode v with
    | ok i =>
      rw [hd] at h
      exact exec_host h q
    | error e =>
      rw [hd] at h
      exact runCommand_host rfl h
  by_cases hreset : p = .reset
  · subst hreset
    cases h
    rw [writePort, writeReset, writeReset]
    split <;> rfl
  · rw [writePort_store hcmd hreset] at h ⊢
    cases h
    rw [storePort_host]
    split <;> rfl

/-- A transaction served beside one queue is served the same beside any other, which it leaves as it is. -/
theorem transact_host {op : HostOp} {s t : State} (h : transact op s = .next t) (q : List HostOp) :
    transact op { s with host := q } = .next { t with host := q } := by
  rcases transact_cases op s with
    ⟨off, rfl, ho, h'⟩ | ⟨off, v, rfl, ho, h'⟩ | ⟨rfl, h'⟩ | ⟨off, -, -, h'⟩ | ⟨off, n, -, h'⟩ <;> rw [h'] at h
  · cases h
    rw [transact, if_pos ho, hostRead, readPort_host]
    rfl
  · rw [transact, if_pos ho]
    exact writePort_host h q
  · cases h
    rfl
  · cases h
  · cases h

/-- A script served to its end is its first transaction, then the rest. -/
theorem runScript_cons_next {op : HostOp} {ops : List HostOp} {s t : State} (h : runScript (op :: ops) s = .next t) :
    ∃ u, transact op s = .next u ∧ runScript ops u = .next t := by
  rw [runScript] at h
  split at h
  next u hu => exact ⟨u, hu, h⟩
  next => cases h
  next => cases h

/-- One more step of the machine. -/
theorem core_run_succ {s u : State} (h : step s = .next u) (k : Nat) : core.run (k + 1) s = core.run k u := by
  have hcore : core.step s = .next u := h
  simp only [Host.Core.run, hcore]

/-- Settles O5, by induction on the queue: each step serves the head, which does not see what stands behind it. -/
theorem queuedTransactionsAreServedInOrder : Obligations.QueuedTransactionsAreServedInOrder := by
  intro ops rest s t h
  induction ops generalizing s with
  | nil =>
    cases h
    rfl
  | cons op ops ih =>
    obtain ⟨u, hu, hrest⟩ := runScript_cons_next h
    have hstep : step { s with host := op :: (ops ++ rest) } = .next { u with host := ops ++ rest } :=
      (step_of_host (s := { s with host := op :: (ops ++ rest) }) rfl).trans (transact_host hu _)
    exact (core_run_succ hstep ops.length).trans (ih u hrest)

end Sys2Proof.Machine
end

section
/-! PROOFS. Command words (30_encoding.md): the decoder and the encoder agree (rules R60, R63, R71), and a `CMD` write of a word
runs its command or reports that it has none (rule R63). -/

namespace Sys2Proof

/-! ### The fields of a word (rule R60) -/

theorem CmdFields.ofWord_op (w : Word) : (CmdFields.ofWord w).op.toNat = w.toNat % 256 := by
  simp [CmdFields.ofWord]

theorem CmdFields.ofWord_alg (w : Word) : (CmdFields.ofWord w).alg.toNat = w.toNat / 256 % 16 := by
  simp [CmdFields.ofWord, Nat.shiftRight_eq_div_pow]

theorem CmdFields.ofWord_zero (w : Word) : (CmdFields.ofWord w).zero.toNat = w.toNat / 4096 := by
  have hw := w.isLt
  simp only [CmdFields.ofWord, BitVec.extractLsb'_toNat, Nat.shiftRight_eq_div_pow]
  omega

/-- Rule R71: a word with its `ZERO` field clear is `OP + 256 * ALG`. -/
theorem eq_cmdWord_of_zero {w : Word} (h : w.toNat / 4096 = 0) :
    w = cmdWord (w.toNat % 256) (w.toNat / 256 % 16) := by
  have hw := w.isLt
  apply BitVec.eq_of_toNat_eq
  rw [cmdWord, BitVec.toNat_ofNat]
  omega

/-! ### The opcode table (rules R64, R67) -/

/-- The encoder's word of each form in the decoder's table is made of the opcode and the ALG code the form stands under. -/
theorem encode_form : ∀ row ∈ opcodeTable, ∀ form ∈ row.forms, encode form.2 = cmdWord row.op form.1 := by
  decide

/-- What the decoder accepts: `ZERO` is clear, and the command is a form the table has for the opcode and the ALG code. -/
theorem decodeFields_ok {f : CmdFields} {i : Instr} (h : decodeFields f = .ok i) :
    f.zero = 0 ∧ ∃ row ∈ opcodeTable, ∃ form ∈ row.forms, row.op = f.op.toNat ∧ form.1 = f.alg.toNat ∧ form.2 = i := by
  rw [decodeFields] at h
  split at h
  · cases h
  next hzero =>
    split at h
    · cases h
    next row hrow =>
      split at h
      · cases h
      next form hform =>
        refine ⟨by simpa using hzero, row, List.mem_of_find?_eq_some hrow, form, List.mem_of_find?_eq_some hform, ?_, ?_, ?_⟩
        · simpa using List.find?_some hrow
        · simpa using List.find?_some hform
        · simpa using h

/-! ### Decoding and encoding -/

theorem decode_encode (i : Instr) : decode (encode i) = .ok i := by
  cases i <;> rfl

/-- A word that decodes is the word of the command it decodes to: the table's entry fixes its low twelve bits, and `ZERO` the
rest. -/
theorem eq_encode_of_decode {w : Word} {i : Instr} (h : decode w = .ok i) : w = encode i := by
  obtain ⟨hzero, row, hrow, form, hform, hop, halg, rfl⟩ := decodeFields_ok h
  rw [CmdFields.ofWord_op] at hop
  rw [CmdFields.ofWord_alg] at halg
  rw [encode_form row hrow form hform, hop, halg]
  exact eq_cmdWord_of_zero (by rw [← CmdFields.ofWord_zero, hzero]; rfl)

/-- Settles O1: the table the decoder searches has the encoder's words, so each undoes the other. -/
theorem commandDecodesExactlyFromItsWord : Obligations.CommandDecodesExactlyFromItsWord := by
  intro w i
  constructor
  · exact eq_encode_of_decode
  · rintro rfl
    exact decode_encode i

/-- Settles O2: each word is the encoder's word of its command. -/
theorem tableWordsDecodeToTheirCommands : Obligations.TableWordsDecodeToTheirCommands :=
  ⟨decode_encode .nop, decode_encode .wipeAll, decode_encode .ksInitChacha20Ietf, decode_encode .ksXor,
    decode_encode .deriveXsalsa20, decode_encode .macVerify, decode_encode .aeadSealDetXsalsa20,
    decode_encode .aeadOpenXchacha20⟩

/-! ### Legal words (rule R63) -/

/-- The three grounds of rule R63 all absent, with the sets of rules R64 and R67 written out apart from the decoder's table. -/
abbrev LegalWord (w : Word) : Prop :=
  w.toNat / 4096 = 0
    ∧ ((w.toNat % 256 ∈ [0x00, 0x01, 0x02, 0x11, 0x12, 0x13, 0x14, 0x30, 0x31, 0x32, 0x33, 0x34] ∧ w.toNat / 256 % 16 = 0)
      ∨ (w.toNat % 256 = 0x10 ∧ w.toNat / 256 % 16 ∈ [0, 1, 2, 3, 4])
      ∨ (w.toNat % 256 = 0x20 ∧ w.toNat / 256 % 16 ∈ [2, 4])
      ∨ (w.toNat % 256 ∈ [0x40, 0x41, 0x42, 0x43] ∧ w.toNat / 256 % 16 ∈ [0, 1, 2, 4]))

theorem legalWord_encode (i : Instr) : LegalWord (encode i) := by
  cases i <;> decide

/-- The opcode table has a form for the opcode and the ALG code. -/
abbrev TableHas (op alg : Nat) : Prop := ∃ row ∈ opcodeTable, ∃ form ∈ row.forms, row.op = op ∧ form.1 = alg

theorem exists_encode_of_tableHas {op alg : Nat} (h : TableHas op alg) : ∃ i, cmdWord op alg = encode i := by
  obtain ⟨row, hrow, form, hform, rfl, rfl⟩ := h
  exact ⟨form.2, (encode_form row hrow form hform).symm⟩

/-- The table has every opcode of rule R64 with every ALG code of its set. -/
theorem LegalWord.tableHas {w : Word} (h : LegalWord w) : TableHas (w.toNat % 256) (w.toNat / 256 % 16) := by
  have hnoAlg : ∀ op ∈ [0x00, 0x01, 0x02, 0x11, 0x12, 0x13, 0x14, 0x30, 0x31, 0x32, 0x33, 0x34], TableHas op 0 := by decide
  have hinit : ∀ alg ∈ [0, 1, 2, 3, 4], TableHas 0x10 alg := by decide
  have hderive : ∀ alg ∈ [2, 4], TableHas 0x20 alg := by decide
  have haead : ∀ op ∈ [0x40, 0x41, 0x42, 0x43], ∀ alg ∈ [0, 1, 2, 4], TableHas op alg := by decide
  obtain ⟨-, ⟨hop, halg⟩ | ⟨hop, halg⟩ | ⟨hop, halg⟩ | ⟨hop, halg⟩⟩ := h
  · rw [halg]
    exact hnoAlg _ hop
  · rw [hop]
    exact hinit _ halg
  · rw [hop]
    exact hderive _ halg
  · exact haead _ hop _ halg

/-- The legal words are the words of the commands. -/
theorem legalWord_iff (w : Word) : LegalWord w ↔ ∃ i, w = encode i := by
  constructor
  · intro h
    rw [eq_cmdWord_of_zero h.1]
    exact exists_encode_of_tableHas h.tableHas
  · rintro ⟨i, rfl⟩
    exact legalWord_encode i

namespace Machine

/-- Outside the fatal state a `CMD` write of a word that does not decode reports it. -/
theorem step_reportsIllegalWord {s : State} {w : Word} {rest : List HostOp} {e : DecodeError} (hf : s.fatal = false)
    (hhost : s.host = .write32 0x004 w :: rest) (hd : decode w = .error e) :
    step s = .next (raiseError .illegalCmd { s with host := rest }) := by
  have hport : transact (.write32 0x004 w) { s with host := rest } = writeCmd w { s with host := rest } := rfl
  rw [step_of_host hhost, hport, writeCmd, hd]
  exact runCommand_fail (s := { s with host := rest }) (e := .error .illegalCmd) hf rfl id

/-- Settles O3: the words that decode are the commands' words, which are the legal ones. -/
theorem cmdWriteExecutesLegalWordsAndReportsIllegalOnes :
    Obligations.CmdWriteExecutesLegalWordsAndReportsIllegalOnes := by
  intro s w rest hf hhost op alg legal
  have hlegal : legal ↔ ∃ i, w = encode i := legalWord_iff w
  constructor
  · intro hillegal
    cases hd : decode w with
    | ok i => exact absurd (hlegal.2 ⟨i, eq_encode_of_decode hd⟩) hillegal
    | error e => exact step_reportsIllegalWord hf hhost hd
  · intro h
    obtain ⟨i, rfl⟩ := hlegal.1 h
    exact ⟨i, rfl, stepRunsTheDecodedCommand s _ rest i hhost (decode_encode i)⟩

end Machine
end Sys2Proof
end

section
/-! PROOFS. Housekeeping and unit wipes (40_securebuffer_wipe.md): the four commands that always complete, and BUF_WIPE. -/

namespace Sys2Proof.Machine

/-! ### The three ways a command goes -/

/-- In the fatal state a command is ignored. -/
theorem exec_fatal {s : State} (hf : s.fatal = true) (i : Instr) : exec i s = .next s := by
  rw [exec_eq, runCommand_fatal hf]

/-- A command whose checks pass has its effect. -/
theorem exec_pass {s : State} {i : Instr} (hf : s.fatal = false) (hc : firstFailure (checksOf i s) = none) :
    exec i s = .next (effectOf i s) := by
  rw [exec_eq, runCommand_pass hf hc]

/-- A command with a failing check takes that check's event. -/
theorem exec_fail {s : State} {i : Instr} {e : Event} (hf : s.fatal = false)
    (hc : firstFailure (checksOf i s) = some e) : exec i s = .next (takeEvent e s) := by
  rw [exec_eq, runCommand_fail hf hc]

/-! ### The commands -/

/-- Settles O25: the four commands have no checks, and each one's effect is the update of the statement. -/
theorem nopAndWipesComplete : Obligations.NopAndWipesComplete := by
  refine ⟨decode_encode .nop, decode_encode .wipeAll, decode_encode .ksWipe, decode_encode .macWipe, fun s => ⟨?_, ?_⟩⟩
  · intro hf i _
    exact exec_fatal hf i
  · intro hf
    exact ⟨exec_pass hf rfl, exec_pass hf rfl, exec_pass hf rfl, exec_pass hf rfl⟩

/-- BUF_WIPE's only check is that `(DST, DCAP)` is in range (rule R81). -/
theorem bufWipe_check_holds (s : State) :
    (checkRange [dstRegion s] s).holds = true ↔ Fits s s.dst.toNat s.dcap.toNat := by
  simp

/-- Settles O26: the range check alone decides whether BUF_WIPE reports or writes zeros. -/
theorem bufWipeZeroesExactlyItsRegion : Obligations.BufWipeZeroesExactlyItsRegion := by
  refine ⟨decode_encode .bufWipe, fun s hf hm => ⟨fun hout => ?_, fun hin => ?_⟩⟩
  · have hcheck : (checkRange [dstRegion s] s).holds = false := by
      rwa [← bufWipe_check_holds, Bool.not_eq_true] at hout
    have hfail : firstFailure (checksOf .bufWipe s) = some (.error .dmemRange) := firstFailure_cons_fail hcheck []
    exact exec_fail hf hfail
  · have hpass : firstFailure (checksOf .bufWipe s) = none :=
      firstFailure_cons_pass ((bufWipe_check_holds s).2 hin) []
    exact ⟨effectOf .bufWipe s, exec_pass hf hpass, rfl, writesExactly_writeBytes hm rfl⟩

end Sys2Proof.Machine
end

section
/-! PROOFS. The KS unit (41_keystream.md): what a block depends on, the loading rules' byte strings, consumption in parts and the
room that is left for it. -/

namespace Sys2Proof.Machine

/-! ### Byte strings -/

theorem wordAt_take (a : List Byte) {i k : Nat} (h : 4 * i + 4 ≤ k) : wordAt (a.take k) i = wordAt a i := by
  rw [wordAt, wordAt, List.drop_take, List.take_take, Nat.min_eq_left (by omega)]

/-- Defaults written out after a list change nothing of the file. -/
theorem vecOfList_append_replicate {α : Type} (n k : Nat) (d : α) (xs : List α) :
    vecOfList n d (xs ++ List.replicate k d) = vecOfList n d xs := by
  refine Vector.ext fun i h => ?_
  rw [vecOfList_getElem _ _ _ _ h, vecOfList_getElem _ _ _ _ h]
  by_cases hi : i < xs.length
  · rw [List.getD_append _ _ _ _ hi]
  · rw [List.getD_append_right _ _ _ _ (by omega), List.getD_eq_default xs d (by omega), List.getD_eq_getElem?_getD,
      List.getElem?_replicate]
    split <;> rfl

theorem lenum_toLe32 (w : Word) : lenum (toLe32 w) = w.toNat := by
  rw [toLe32, lenum_toLe]
  exact Nat.mod_eq_of_lt w.isLt

theorem bytesOfWords_take (ws : List Word) (k : Nat) (hk : k ≤ ws.length) :
    (bytesOfWords ws).take (4 * k) = bytesOfWords (ws.take k) := by
  conv_lhs => rw [← List.take_append_drop k ws, bytesOfWords_append]
  exact List.take_left' (by simp [hk])

theorem bytesOfWords_drop (ws : List Word) (k : Nat) (hk : k ≤ ws.length) :
    (bytesOfWords ws).drop (4 * k) = bytesOfWords (ws.drop k) := by
  conv_lhs => rw [← List.take_append_drop k ws, bytesOfWords_append]
  exact List.drop_left' (by simp [hk])

/-! ### Blocks (rules R92, R96, R106) -/

theorem blockOf_congr {ks ks' : KsState} (ha : ks.alg = ks'.alg) (hk : ks.key = ks'.key) (hn : ks.nonce = ks'.nonce) (c : Nat) :
    blockOf ks c = blockOf ks' c :=
  ksBlock_congr ha hk hn rfl

/-- Settles O37: every block depends on variant, key, nonce and counter alone, and a stream is bytes of blocks. -/
theorem blocksDependOnVariantKeyNonceAndCounter : Obligations.BlocksDependOnVariantKeyNonceAndCounter := by
  intro ks ks' ha hk hn
  have hblock := blockOf_congr ha hk hn
  exact ⟨fun c => ⟨ksBlock_length _, hblock c⟩, fun c n =>
    List.map_congr_left fun i _ => by rw [streamByte, streamByte, hblock]⟩

/-- The nonce `0^4 ‖` 8 bytes of rule R106: word 0 is 0, and words 1 and 2 are the first two of the other nonce. -/
theorem ksNonceWord_paddedNonce {ks ks' : KsState}
    (hnonce : ks'.nonce = vecOfList 12 0 ([0, 0, 0, 0] ++ ks.nonce.toList.take 8)) :
    ksNonceWord ks' 0 = 0 ∧ ksNonceWord ks' 1 = ksNonceWord ks 0 ∧ ksNonceWord ks' 2 = ksNonceWord ks 1 := by
  have hlen : ([0, 0, 0, 0] ++ ks.nonce.toList.take 8).length = 12 := by simp
  have hlist : ks'.nonce.toList = [0, 0, 0, 0] ++ ks.nonce.toList.take 8 := by
    rw [hnonce, vecOfList_toList _ _ _ hlen.le, hlen, Nat.sub_self, List.replicate_zero, List.append_nil]
  simp only [ksNonceWord, hlist]
  refine ⟨wordAt_zero _ _ rfl, ?_, ?_⟩
  · rw [wordAt_succ _ _ _ rfl, wordAt_take _ (by omega)]
  · rw [wordAt_succ _ _ _ rfl, wordAt_take _ (by omega)]

theorem ksBlock_xchacha20 {ks : KsState} (h : ks.alg = .xchacha20) : ksBlock ks = chachaBlock (chachaMatrix64 ks) := by
  simp only [ksBlock, h]

theorem ksBlock_chacha20Ietf {ks : KsState} (h : ks.alg = .chacha20Ietf) :
    ksBlock ks = chachaBlock (chachaMatrix32 ks) := by
  simp only [ksBlock, h]

theorem ksCtrHigh_of_lt {ks : KsState} (h : ks.ctr.toNat < 2 ^ 32) : ksCtrHigh ks = 0 := by
  apply BitVec.eq_of_toNat_eq
  simp [ksCtrHigh, Nat.shiftRight_eq_div_pow]
  omega

/-- Below 2^32 the counter's high word is 0, which is what the padded nonce has in its place. -/
theorem ksBlock_xchacha20_eq_ietf {ks ks' : KsState} (halg : ks.alg = .xchacha20) (halg' : ks'.alg = .chacha20Ietf)
    (hkey : ks'.key = ks.key) (hctr : ks'.ctr = ks.ctr) (hlt : ks.ctr.toNat < 2 ^ 32)
    (hnonce : ks'.nonce = vecOfList 12 0 ([0, 0, 0, 0] ++ ks.nonce.toList.take 8)) : ksBlock ks = ksBlock ks' := by
  obtain ⟨h0, h1, h2⟩ := ksNonceWord_paddedNonce hnonce
  have hmatrix : chachaMatrix64 ks = chachaMatrix32 ks' := by
    simp only [chachaMatrix64, chachaMatrix32, ksCtrHigh_of_lt hlt, ksCtrLow, hkey, hctr, h0, h1, h2]
  rw [ksBlock_xchacha20 halg, ksBlock_chacha20Ietf halg', hmatrix]

/-- Settles O36, the counter of block `c` being `c`. -/
theorem xchachaBlocksAreIetfBlocksBelow2to32 : Obligations.XchachaBlocksAreIetfBlocksBelow2to32 := by
  intro ks c halg hc
  have hctr : (BitVec.ofNat 64 c).toNat < 2 ^ 32 := by rw [BitVec.toNat_ofNat]; omega
  exact ksBlock_xchacha20_eq_ietf halg rfl rfl rfl hctr rfl

/-! ### Consuming in parts (rules R100, R109) -/

/-- Settles O31, byte by byte of the first part. -/
theorem consumeSplitsAtAnyPoint : Obligations.ConsumeSplitsAtAnyPoint := by
  intro a b ks
  induction a generalizing ks with
  | zero => simp
  | succ a ih => rw [Nat.succ_add, consume_succ, ih, consume_succ a, List.cons_append]

/-- Settles O34: the blocks passed and the blocks left are the variant's counter values, and the blocks passed and the blocks
needed are those of `n + m` bytes. -/
theorem exhaustionCheckCountsTheBlocksLeft : Obligations.ExhaustionCheckCountsTheBlocksLeft := by
  intro base ks c n m h
  obtain ⟨-, halg, -, -, -, hctr, hbuf⟩ := h
  have hleft : c + (n + 63) / 64 + blocksLeft ks = base.alg.ctrMax := by
    rcases hctr with ⟨hlt, hctr, hwrap⟩ | ⟨hlast, -, hwrap⟩
    · rw [blocksLeft, hwrap, halg, hctr, if_neg (by simp)]
      omega
    · rw [blocksLeft, hwrap, if_pos rfl, hlast, Nat.add_zero]
  have hneed : (n + 63) / 64 + blocksNeeded ks m = (n + m + 63) / 64 := by
    rcases hbuf with ⟨hn, hoff⟩ | ⟨hn, hoff, -⟩ <;> rw [blocksNeeded_eq, hoff] <;> split <;> omega
  omega

theorem blocksNeeded_mono (ks : KsState) {m n : Nat} (h : m ≤ n) : blocksNeeded ks m ≤ blocksNeeded ks n := by
  rw [blocksNeeded_eq, blocksNeeded_eq]
  split <;> split <;> omega

/-- A unit that may generate a block has not passed its last counter value. -/
theorem of_blocksLeft_pos {ks : KsState} (h : 0 < blocksLeft ks) : ks.wrap = false ∧ ks.ctr.toNat < ks.alg.ctrMax := by
  rw [blocksLeft] at h
  split at h
  next => omega
  next hw => exact ⟨by simpa using hw, by omega⟩

/-- Room for `a + b` bytes leaves room for `b` after `a` of them. -/
theorem room_consume {b : Nat} (a : Nat) {ks : KsState} (hoff : ks.off ≤ 64)
    (hroom : blocksNeeded ks (a + b) ≤ blocksLeft ks) :
    blocksNeeded (consume a ks).2 b ≤ blocksLeft (consume a ks).2 := by
  induction a generalizing ks with
  | zero => simpa using hroom
  | succ a ih =>
    rw [blocksNeeded_eq] at hroom
    by_cases h64 : ks.off = 64
    · rw [h64, if_neg (by omega)] at hroom
      obtain ⟨hw, hlt⟩ := of_blocksLeft_pos (ks := ks) (by omega)
      have hleft := blocksLeft_ksAdvance hlt hw
      rw [consume_succ_empty a h64]
      refine ih (by simp) ?_
      change _ ≤ blocksLeft (ksAdvance ks)
      simp only [blocksNeeded_eq]
      split <;> omega
    · rw [consume_succ_buffered a (by omega)]
      refine ih (by simp only; omega) ?_
      change _ ≤ blocksLeft ks
      simp only [blocksNeeded_eq]
      split at hroom <;> split <;> omega

end Sys2Proof.Machine
end

section
/-! PROOFS. The KS commands (41_keystream.md rules R98, R99, R101, R102): which check
reports, and the next state when all hold. -/

namespace Sys2Proof.Machine

/-! ### Which check reports -/

/-- A command takes the event of its first failing check. -/
theorem exec_firstFailing {i : Instr} {s : State} (cs : List Check) (c : Check) {ds : List Check}
    (hf : s.fatal = false) (hchecks : checksOf i s = cs ++ c :: ds) (hpass : ∀ d ∈ cs, d.holds = true)
    (hfail : ¬ c.holds = true) :
    exec i s = .next (takeEvent c.event s) := by
  refine exec_fail hf ?_
  rw [hchecks]
  clear hchecks
  induction cs with
  | nil => exact firstFailure_cons_fail (Bool.eq_false_iff.2 hfail) ds
  | cons d cs ih =>
    obtain ⟨hd, hcs⟩ := List.forall_mem_cons.1 hpass
    rw [List.cons_append, firstFailure_cons_pass hd]
    exact ih hcs

/-- A command all of whose checks hold has its effect. -/
theorem exec_admitted {i : Instr} {s : State} (hf : s.fatal = false) (hc : ∀ c ∈ checksOf i s, c.holds = true) :
    exec i s = .next (effectOf i s) :=
  exec_pass hf ((firstFailure_none_iff _).2 hc)

/-! ### KS_INIT (rules R98, R104 to R108) -/

/-- KS_INIT's word of a variant. -/
def ksInitOf : Alg → Instr
  | .chacha20 => .ksInitChacha20
  | .chacha20Ietf => .ksInitChacha20Ietf
  | .xchacha20 => .ksInitXchacha20
  | .salsa20 => .ksInitSalsa20
  | .xsalsa20 => .ksInitXsalsa20

theorem checksOf_ksInitOf (alg : Alg) (s : State) :
    checksOf (ksInitOf alg) s = [checkKeyLength s, checkNonceLength alg s] := by
  cases alg <;> rfl

theorem effectOf_ksInitOf (alg : Alg) (s : State) :
    effectOf (ksInitOf alg) s = { s with ks := ksLoad alg s.key (nonceB s), err := .ok, vok := false } := by
  cases alg <;> rfl

theorem exec_ksInit_keyLength {s : State} (hf : s.fatal = false) (hk : s.klen.toNat ≠ 32) (alg : Alg) :
    exec (ksInitOf alg) s = .next (raiseFatal .keyLength s) :=
  exec_firstFailing [] (checkKeyLength s) hf (checksOf_ksInitOf alg s) (by simp) (by simpa using hk)

theorem exec_ksInit_nonceLength {s : State} (hf : s.fatal = false) (hk : s.klen.toNat = 32) {alg : Alg}
    (hn : s.nlen.toNat ≠ alg.nonceBytes) : exec (ksInitOf alg) s = .next (raiseFatal .nonceLength s) :=
  exec_firstFailing [checkKeyLength s] (checkNonceLength alg s) hf
    (checksOf_ksInitOf alg s) (by simpa using hk) (by simpa using hn)

theorem exec_ksInit {s : State} (hf : s.fatal = false) (hk : s.klen.toNat = 32) {alg : Alg}
    (hn : s.nlen.toNat = alg.nonceBytes) :
    exec (ksInitOf alg) s = .next { s with ks := ksLoad alg s.key (nonceB s), err := .ok, vok := false } := by
  rw [← effectOf_ksInitOf]
  exact exec_admitted hf (by simp [checksOf_ksInitOf, hk, hn])

/-- The counter SALSA20 is loaded with (rule R107): nonce bytes 8 to 15 are the third and the fourth staged word. -/
theorem salsaCounter_eq (s : State) :
    BitVec.ofNat 64 (lenum (((nonceB s).drop 8).take 8)) = s.nonce[3] ++ s.nonce[2] := by
  have hbytes : ((nonceB s).drop 8).take 8 = toLe32 s.nonce[2] ++ toLe32 s.nonce[3] := by
    have hwords : (s.nonce.toList.drop 2).take 2 = [s.nonce[2], s.nonce[3]] := by
      rw [List.drop_eq_getElem_cons (by simp), List.drop_eq_getElem_cons (by simp)]
      simp
    rw [nonceB, bytesOfWords_drop _ 2 (by simp), bytesOfWords_take _ 2 (by simp), hwords]
    simp
  apply BitVec.eq_of_toNat_eq
  rw [hbytes, lenum_append, lenum_toLe32, lenum_toLe32, toLe32_length, BitVec.toNat_append, BitVec.toNat_ofNat,
    ← Nat.shiftLeft_add_eq_or_of_lt s.nonce[2].isLt, Nat.shiftLeft_eq]
  omega

/-- Settles O27: the two checks in order, and what each loading rule puts in the unit. -/
theorem ksInitLoadsStagedKeyAndNonce : Obligations.KsInitLoadsStagedKeyAndNonce := by
  intro s hf fresh
  refine ⟨?_, fun hk hn => ?_, fun hk hn => ?_, fun hk hn => ?_⟩
  · have hchecks : ∀ alg, (s.klen.toNat ≠ 32 → exec (ksInitOf alg) s = .next (raiseFatal .keyLength s))
        ∧ (s.klen.toNat = 32 → s.nlen.toNat ≠ alg.nonceBytes →
          exec (ksInitOf alg) s = .next (raiseFatal .nonceLength s)) :=
      fun alg => ⟨fun hk => exec_ksInit_keyLength hf hk alg, fun hk hn => exec_ksInit_nonceLength hf hk hn⟩
    simp only [List.forall_mem_cons]
    exact ⟨hchecks .chacha20, hchecks .chacha20Ietf, hchecks .xchacha20, hchecks .salsa20, hchecks .xsalsa20, by simp⟩
  · refine (exec_ksInit (alg := .chacha20) hf hk hn).trans ?_
    have hnonce := vecOfList_append_replicate 12 4 0 ((nonceB s).take 8)
    simp only [fresh, ksLoad, ksFresh, ← hnonce]
    rfl
  · exact exec_ksInit (alg := .chacha20Ietf) hf hk hn
  · refine (exec_ksInit (alg := .salsa20) hf hk hn).trans ?_
    have hnonce := vecOfList_append_replicate 12 4 0 ((nonceB s).take 8)
    simp only [fresh, ksLoad, ksFresh, ← hnonce, salsaCounter_eq]
    rfl

/-- Settles O28: the subkey's words are its bytes, and the last 8 nonce bytes fill the file's first 8. -/
theorem ksInitExtendedVariantsDeriveTheirKey : Obligations.KsInitExtendedVariantsDeriveTheirKey := by
  intro s hf hk hn
  have hnonce : (vecOfList 12 0 (((nonceB s).drop 16).take 8)).toList = (nonceB s).drop 16 ++ [0, 0, 0, 0] := by
    have hlen : ((nonceB s).drop 16).length = 8 := by simp [nonceB_length]
    rw [List.take_of_length_le hlen.le, vecOfList_toList _ _ _ (by omega), hlen]
    rfl
  simp only [List.forall_mem_cons]
  refine ⟨⟨_, exec_ksInit (alg := .xchacha20) hf hk hn, rfl, bytesOfWords_keyWords _ (by simp), hnonce⟩,
    ⟨_, exec_ksInit (alg := .xsalsa20) hf hk hn, rfl, bytesOfWords_keyWords _ (by simp), hnonce⟩, by simp⟩

/-! ### KS_SEEK (rule R99) -/

theorem counterOperand_eq (s : State) : counterOperand s = BitVec.ofNat 64 (s.ctrHi.toNat * 2 ^ 32 + s.ctrLo.toNat) := by
  apply BitVec.eq_of_toNat_eq
  rw [counterOperand, BitVec.toNat_append, ← Nat.shiftLeft_add_eq_or_of_lt s.ctrLo.isLt, Nat.shiftLeft_eq,
    BitVec.toNat_ofNat]
  omega

/-- Settles O29: the two checks in order, and the effect. -/
theorem ksSeekRepositionsTheCounter : Obligations.KsSeekRepositionsTheCounter := by
  refine ⟨decode_encode .ksSeek, fun s hf => ⟨fun hk => ?_, fun hk ha hhi => ?_, fun hk hrange => ?_⟩⟩
  · exact exec_firstFailing [] (checkKsKeyed s) hf rfl (by simp) (by simp [hk])
  · exact exec_firstFailing [checkKsKeyed s] (checkCounterRange s) hf rfl (by simpa using hk)
      fun h => ((checkCounterRange_holds s).1 h).elim (· ha) hhi
  · rw [← counterOperand_eq]
    exact exec_admitted hf (by simpa [checksOf, hk] using hrange)

/-! ### KS_STREAM (rule R101) -/

/-- Settles O32: the three checks in order, and the effect. -/
theorem ksStreamWritesKeystream : Obligations.KsStreamWritesKeystream := by
  refine ⟨decode_encode .ksStream, fun s hf hm => ?_⟩
  intro n room
  refine ⟨fun hk => ?_, fun hk hout => ?_, fun hk hfits hroom => ?_, fun hk hfits hroom => ?_⟩
  · exact exec_firstFailing [] (checkKsKeyed s) hf rfl (by simp) (by simp [hk])
  · exact exec_firstFailing [checkKsKeyed s] (checkRange [dstRegion s] s) hf rfl (by simpa using hk) (by simpa using hout)
  · exact exec_firstFailing [checkKsKeyed s, checkRange [dstRegion s] s] (checkBlocks n s) hf rfl
      (by simpa [hk] using hfits) (mt (checkBlocks_holds n s).1 hroom)
  · have hchecks : ∀ c ∈ checksOf .ksStream s, c.holds = true := by
      simpa [checksOf, hk] using ⟨hfits, hroom⟩
    exact ⟨_, exec_admitted hf hchecks, rfl, consume_length .., writesExactly_writeBytes hm rfl⟩

/-! ### KS_XOR (rule R102) -/

/-- What the checks of KS_XOR ask, in their order. -/
structure State.KsXorAdmitted (s : State) : Prop where
  keyed : s.ks.keyed = true
  capacity : s.len.toNat ≤ s.dcap.toNat
  inRange : Fits s s.src.toNat s.len.toNat ∧ Fits s s.dst.toNat s.dcap.toNat
  apart : s.src = s.dst ∨ Apart s.src.toNat s.len.toNat s.dst.toNat s.len.toNat
  room : blocksNeeded s.ks s.len.toNat ≤ blocksLeft s.ks

theorem ksXor_overlap_holds (s : State) :
    (checkOverlap ⟨srcRegion s, [], dstExtent s.len.toNat s, []⟩).holds = true
      ↔ s.src = s.dst ∨ Apart s.src.toNat s.len.toNat s.dst.toNat s.len.toNat := by
  simp [Extents.allowed_iff, BitVec.toNat_inj]

theorem ksXor_range_holds (s : State) :
    (checkRange [srcRegion s, dstRegion s] s).holds = true
      ↔ Fits s s.src.toNat s.len.toNat ∧ Fits s s.dst.toNat s.dcap.toNat := by
  simp

theorem ksXor_checks_hold (s : State) : (∀ c ∈ checksOf .ksXor s, c.holds = true) ↔ s.KsXorAdmitted := by
  simp only [checksOf, List.forall_mem_cons, checkKsKeyed_holds, checkCapacity_holds, ksXor_range_holds,
    ksXor_overlap_holds, checkBlocks_holds]
  constructor
  · rintro ⟨hk, hcap, hrange, hapart, hroom, -⟩
    exact ⟨hk, hcap, hrange, hapart, hroom⟩
  · rintro ⟨hk, hcap, hrange, hapart, hroom⟩
    exact ⟨hk, hcap, hrange, hapart, hroom, by simp⟩

theorem exec_ksXor {s : State} (hf : s.fatal = false) (h : s.KsXorAdmitted) : exec .ksXor s = .next (effectOf .ksXor s) :=
  exec_admitted hf ((ksXor_checks_hold s).2 h)

/-- A source xor a keystream of its length, byte by byte. -/
theorem xorBytes_readBytes (m : Memory) (a : Nat) {n : Nat} {k : List Byte} (hk : k.length = n) :
    xorBytes (m.readBytes a n) k = (List.range n).map (fun i => m.read (a + i) ^^^ k.getD i 0) := by
  refine List.ext_getElem (by simp [hk]) fun i h1 h2 => ?_
  have hi : i < k.length := by simpa [hk] using h1
  simp [xorBytes, Memory.readBytes_getElem, List.getD, hi]

/-- Settles O33: the five checks in order, and the effect. -/
theorem ksXorWritesSourceXorKeystream : Obligations.KsXorWritesSourceXorKeystream := by
  refine ⟨decode_encode .ksXor, fun s hf hm => ?_⟩
  intro n inRange apart room
  let keyed := checkKsKeyed s
  let capacity := checkCapacity n s
  let range := checkRange [srcRegion s, dstRegion s] s
  let overlap := checkOverlap ⟨srcRegion s, [], dstExtent n s, []⟩
  have hrange : range.holds = true ↔ inRange := ksXor_range_holds s
  have hoverlap : overlap.holds = true ↔ apart := ksXor_overlap_holds s
  refine ⟨fun hk => ?_, fun hk hcap => ?_, fun hk hcap hout => ?_, fun hk hcap hin hlap => ?_,
    fun hk hcap hin hap hroom => ?_, fun hk hcap hin hap hroom => ?_⟩
  · exact exec_firstFailing [] (checkKsKeyed s) hf rfl (by simp) (by simp [hk])
  · exact exec_firstFailing [keyed] capacity hf rfl (by simpa [keyed] using hk) (by simpa [capacity] using hcap)
  · exact exec_firstFailing [keyed, capacity] range hf rfl (by simp [keyed, capacity, hk, hcap]) (mt hrange.1 hout)
  · exact exec_firstFailing [keyed, capacity, range] overlap hf rfl
      (by simpa [keyed, capacity, hk, hcap, hrange] using hin) (mt hoverlap.1 hlap)
  · exact exec_firstFailing [keyed, capacity, range, overlap] (checkBlocks n s) hf rfl
      (by simpa [keyed, capacity, hk, hcap, hrange, hoverlap] using ⟨hin, hap⟩)
      (mt (checkBlocks_holds n s).1 hroom)
  · refine ⟨_, exec_ksXor hf ⟨hk, hcap, hin, hap, hroom⟩, rfl, writesExactly_writeBytes hm ?_⟩
    exact congrArg (s.dmem.writeBytes s.dst.toNat) (xorBytes_readBytes s.dmem s.src.toNat (consume_length n s.ks))

end Sys2Proof.Machine
end

section
/-! PROOFS. KS_XOR in two parts (41_keystream.md rule R110): an admitted KS_XOR is two admitted ones over consecutive parts. -/

namespace Sys2Proof.Machine

/-! ### What KS_XOR writes -/

/-- DMEM with the `n` bytes at `src`, xor `k`, written at `dst`. -/
def Memory.xorAt (m : Memory) (src dst n : Nat) (k : List Byte) : Memory :=
  m.writeBytes dst (xorBytes (m.readBytes src n) k)

theorem effectOf_ksXor (s : State) :
    effectOf .ksXor s
      = { s with
          ks := (consume s.len.toNat s.ks).2
          dmem := s.dmem.xorAt s.src.toNat s.dst.toNat s.len.toNat (consume s.len.toNat s.ks).1
          err := .ok, vok := false } := rfl

/-- The first part's write leaves the second part's source as it was, in place or apart (rule R45). -/
theorem Memory.xorAt_add {m : Memory} (hm : m.Pairwise (fun p q => p.1 < q.1)) {src dst a b : Nat} {j : List Byte}
    (hj : j.length = a) (k : List Byte) (h : src = dst ∨ Apart src (a + b) dst (a + b)) :
    m.xorAt src dst (a + b) (j ++ k) = (m.xorAt src dst a j).xorAt (src + a) (dst + a) b k := by
  have hlen : (xorBytes (m.readBytes src a) j).length = a := by simp [hj]
  have hread : (m.xorAt src dst a j).readBytes (src + a) b = m.readBytes (src + a) b :=
    Memory.readBytes_writeBytes_apart _ _ _ _ hm (by omega)
  rw [Memory.xorAt, Memory.xorAt, hread, Memory.readBytes_add, xorBytes_append _ _ _ _ (by simp [hj]),
    Memory.writeBytes_append, hlen]
  rfl

/-! ### The two parts are admitted -/

/-- A KS_XOR that completes with `OK` was admitted. -/
theorem ksXorAdmitted_of_ok {s t : State} (hf : s.fatal = false) (hexec : exec .ksXor s = .next t) (hok : t.err = .ok) :
    s.KsXorAdmitted ∧ t = effectOf .ksXor s := by
  rcases exec_cases hexec with ⟨h, -⟩ | ⟨-, e, he, rfl⟩ | ⟨-, hc, ht⟩
  · simp [hf] at h
  · have hmem := (checksOf_event he).1
    cases e with
    | error c =>
      have hc : c = .ok := hok
      exact absurd (hc ▸ hmem) eventsOf_codes.1
    | fatal f => simp at hok
  · exact ⟨(ksXor_checks_hold s).1 ((firstFailure_none_iff _).1 hc), ht⟩

/-- A shorter KS_XOR from the same place is admitted too. -/
theorem State.KsXorAdmitted.shorten {s : State} (h : s.KsXorAdmitted) {a : Word} (ha : a.toNat ≤ s.len.toNat) :
    State.KsXorAdmitted { s with len := a } := by
  obtain ⟨hk, hcap, ⟨hsrc, hdst⟩, hapart, hroom⟩ := h
  refine ⟨hk, ha.trans hcap, ⟨?_, hdst⟩, hapart.imp_right ?_, (blocksNeeded_mono s.ks ha).trans hroom⟩
  · simp only [Fits] at hsrc ⊢
    omega
  · simp only [Apart]
    omega

/-- An offset inside a region in range does not wrap: DMEM has at most `2^24` bytes (rule R6). -/
theorem toNat_add_of_fits {s : State} (hcfg : s.cfg.legal = true) {x a : Word} {n : Nat} (hfits : Fits s x.toNat n)
    (ha : a.toNat ≤ n) : (x + a).toNat = x.toNat + a.toNat := by
  have hsize : s.cfg.dmemBytes ≤ 2 ^ 24 := by
    simp only [Config.legal, Bool.and_eq_true, decide_eq_true_eq] at hcfg
    exact hcfg.2
  have hx := x.isLt
  rw [BitVec.toNat_add]
  rcases hfits with hn | hn <;> omega

/-- The rest of a KS_XOR after its first `a` bytes, from where those end. -/
abbrev State.ksXorRest (s : State) (a b : Word) (t : State) : State :=
  { t with src := s.src + a, dst := s.dst + a, len := b, dcap := s.dcap - a }

theorem State.KsXorAdmitted.rest {s t : State} (h : s.KsXorAdmitted) (hcfg : s.cfg.legal = true) (hoff : s.ks.off ≤ 64)
    {a b : Word} (hlen : s.len.toNat = a.toNat + b.toNat) (htcfg : t.cfg = s.cfg)
    (htks : t.ks = (consume a.toNat s.ks).2) : (s.ksXorRest a b t).KsXorAdmitted := by
  obtain ⟨hk, hcap, ⟨hsrc, hdst⟩, hapart, hroom⟩ := h
  have hsrcAt : (s.src + a).toNat = s.src.toNat + a.toNat := toNat_add_of_fits hcfg hsrc (by omega)
  have hdstAt : (s.dst + a).toNat = s.dst.toNat + a.toNat := toNat_add_of_fits hcfg hdst (by omega)
  have hdcap : (s.dcap - a).toNat = s.dcap.toNat - a.toNat := BitVec.toNat_sub_of_le (BitVec.le_def.2 (by omega))
  refine ⟨?_, ?_, ⟨?_, ?_⟩, ?_, ?_⟩
  · simp only [htks, (consume_keeps _ _).1, hk]
  · simp only [hdcap]
    omega
  · simp only [Fits, hsrcAt, htcfg] at hsrc ⊢
    omega
  · simp only [Fits, hdstAt, hdcap, htcfg] at hdst ⊢
    omega
  · simp only [hsrcAt, hdstAt, Apart] at hapart ⊢
    exact hapart.imp (fun heq => by rw [heq]) (by omega)
  · simp only [htks]
    exact room_consume a.toNat hoff (hlen ▸ hroom)

/-- Settles O35: both parts are admitted, and the bytes and the unit of the whole are those of the parts one after the other. -/
theorem ksXorSplitsIntoConsecutiveParts : Obligations.KsXorSplitsIntoConsecutiveParts := by
  intro s t a b hf hcfg hm hoff hlen hexec hok
  obtain ⟨hadm, rfl⟩ := ksXorAdmitted_of_ok hf hexec hok
  obtain ⟨hsrc, hdst⟩ := hadm.inRange
  have hcap := hadm.capacity
  have hfirst : State.KsXorAdmitted { s with len := a } := hadm.shorten (by omega)
  let t1 := effectOf .ksXor { s with len := a }
  have hrest : (s.ksXorRest a b t1).KsXorAdmitted := hadm.rest hcfg hoff hlen rfl rfl
  have hconsume := consumeSplitsAtAnyPoint a.toNat b.toNat s.ks
  refine ⟨t1, effectOf .ksXor (s.ksXorRest a b t1), exec_ksXor hf hfirst, rfl, exec_ksXor hf hrest, rfl, ?_, ?_⟩
  · have hsplit := Memory.xorAt_add (Memory.wf_sorted hm) (consume_length a.toNat s.ks)
      (consume b.toNat (consume a.toNat s.ks).2).1 (src := s.src.toNat) (dst := s.dst.toNat) (b := b.toNat)
      (hadm.apart.imp (congrArg _) (hlen ▸ id))
    simp only [t1, effectOf_ksXor, hlen, hconsume, hsplit, toNat_add_of_fits hcfg hsrc (show a.toNat ≤ _ by omega),
      toNat_add_of_fits hcfg hdst (show a.toNat ≤ _ by omega)]
  · simp only [t1, effectOf_ksXor, hlen, hconsume]

end Sys2Proof.Machine
end

section
/-! PROOFS. DERIVE (42_subkey.md rules R121 to R125): which check reports, the subkey it writes, what the subkey depends on, and
KS_INIT's use of it. -/

namespace Sys2Proof.Machine

/-- A command that completes with `OK` was admitted: no check reports `OK`. -/
theorem admitted_of_ok {i : Instr} {s t : State} (hf : s.fatal = false) (hexec : exec i s = .next t) (hok : t.err = .ok) :
    (∀ c ∈ checksOf i s, c.holds = true) ∧ t = effectOf i s := by
  rcases exec_cases hexec with ⟨hfatal, -⟩ | ⟨-, e, he, rfl⟩ | ⟨-, hc, ht⟩
  · simp [hf] at hfatal
  · obtain ⟨hevent, -⟩ := checksOf_event he
    obtain ⟨hnotOk, -⟩ := eventsOf_codes (i := i)
    cases e with
    | error c =>
      obtain rfl : c = .ok := hok
      exact absurd hevent hnotOk
    | fatal c => simp at hok
  · exact ⟨(firstFailure_none_iff _).1 hc, ht⟩

/-! ### The two DERIVE words -/

/-- DERIVE's words, each with its subkey function (rule R123). -/
abbrev deriveForms : List (Instr × (List Byte → List Byte → List Byte → List Byte)) :=
  [(.deriveXchacha20, hchacha20), (.deriveXsalsa20, hsalsa20)]

section
variable {i : Instr} {h : List Byte → List Byte → List Byte → List Byte} (hform : (i, h) ∈ deriveForms)
include hform

theorem checksOf_derive (s : State) : checksOf i s = deriveChecks s := by
  rcases List.mem_pair.1 hform with ⟨rfl, -⟩ | ⟨rfl, -⟩ <;> rfl

theorem effectOf_derive (s : State) : effectOf i s = deriveEffect h s := by
  rcases List.mem_pair.1 hform with ⟨rfl, rfl⟩ | ⟨rfl, rfl⟩ <;> rfl

theorem subkey_length (k n c : List Byte) : (h k n c).length = 32 := by
  rcases List.mem_pair.1 hform with ⟨-, rfl⟩ | ⟨-, rfl⟩
  · exact hchacha20_length k n c
  · exact hsalsa20_length k n c

/-- What DERIVE writes where `SIGMA` is the staged constant. -/
theorem effectOf_derive_dmem {s : State} (hconst : s.const = sigmaWords) :
    (effectOf i s).dmem = s.dmem.writeBytes s.dst.toNat (h (keyB s) ((nonceB s).take 16) sigma) := by
  have hsigma : constB s = sigma := by rw [constB, hconst, sigma]
  rw [effectOf_derive hform, deriveEffect_dmem, hsigma]

/-- After a DERIVE that completes with `OK` the subkey stands at `DST`: its third check asked for `SIGMA`. -/
theorem readBytes_dst_of_derive_ok {s t : State} (hf : s.fatal = false) (hm : s.MemOk) (hexec : exec i s = .next t)
    (hok : t.err = .ok) : t.dmem.readBytes s.dst.toNat 32 = h (keyB s) ((nonceB s).take 16) sigma := by
  obtain ⟨hchecks, rfl⟩ := admitted_of_ok hf hexec hok
  simp only [checksOf_derive hform, deriveChecks, List.forall_mem_cons, checkConstant_holds] at hchecks
  obtain ⟨-, -, hconst, -⟩ := hchecks
  have hread := Memory.readBytes_writeBytes_same s.dst.toNat (h (keyB s) ((nonceB s).take 16) sigma) (Memory.wf_sorted hm)
  rwa [subkey_length hform, ← effectOf_derive_dmem hform hconst] at hread

end

/-! ### What DERIVE does (rule R123) -/

/-- Settles O38: the five checks in order, and the effect. -/
theorem deriveWritesTheSubkey : Obligations.DeriveWritesTheSubkey := by
  refine ⟨decode_encode .deriveXchacha20, decode_encode .deriveXsalsa20, ?_⟩
  rintro s hf hm ⟨i, h⟩ hform sigmaStaged
  have hchecks := checksOf_derive hform s
  have hsubkey := subkey_length hform (keyB s) ((nonceB s).take 16) sigma
  have hsigma : (checkConstant s).holds = true ↔ sigmaStaged := checkConstant_holds s
  have hrange : (checkRange [dstRegion s] s).holds = true ↔ Fits s s.dst.toNat s.dcap.toNat := by simp
  refine ⟨fun hk => ?_, fun hk hn => ?_, fun hk hn hc => ?_, fun hk hn hc hcap => ?_, fun hk hn hc hcap hout => ?_,
    fun hk hn hc hcap hin => ?_⟩
  · exact exec_firstFailing [] (checkKeyLength s) hf hchecks (by simp) (by simpa using hk)
  · exact exec_firstFailing [checkKeyLength s] (checkPrefixLength s) hf hchecks (by simpa using hk) (by simpa using hn)
  · exact exec_firstFailing [checkKeyLength s, checkPrefixLength s] (checkConstant s) hf hchecks (by simp [hk, hn])
      (mt hsigma.1 hc)
  · exact exec_firstFailing [checkKeyLength s, checkPrefixLength s, checkConstant s] (checkCapacity 32 s) hf hchecks
      (by simpa [hk, hn] using hsigma.2 hc) (by simpa using hcap)
  · exact exec_firstFailing [checkKeyLength s, checkPrefixLength s, checkConstant s, checkCapacity 32 s]
      (checkRange [dstRegion s] s) hf hchecks (by simpa [hk, hn, hcap] using hsigma.2 hc) (mt hrange.1 hout)
  · have hadmitted : ∀ c ∈ checksOf i s, c.holds = true := by
      rw [hchecks]
      simpa [deriveChecks, hk, hn, hcap] using ⟨hc, hin⟩
    refine ⟨_, exec_admitted hf hadmitted, ?_, hsubkey, writesExactly_writeBytes hm (effectOf_derive_dmem hform hc)⟩
    rw [effectOf_derive hform]
    exact deriveEffect_frame h s

/-! ### What the subkey depends on (rule R124) -/

/-- The first 16 staged nonce bytes are the first four words of `NONCE`. -/
theorem nonceB_take_congr {s s' : State} (h : ∀ j : Fin 4, s.nonce[j] = s'.nonce[j]) :
    (nonceB s).take 16 = (nonceB s').take 16 := by
  have hwords : s.nonce.toList.take 4 = s'.nonce.toList.take 4 := by
    refine List.ext_getElem (by simp) fun i hi _ => ?_
    have hi4 : i < 4 := by simpa using hi
    simpa using h ⟨i, hi4⟩
  rw [nonceB, nonceB, bytesOfWords_take _ 4 (by simp), bytesOfWords_take _ 4 (by simp), hwords]

/-- Settles O39: both runs write one function's value at the same key, the same nonce prefix and `SIGMA`. -/
theorem deriveDependsOnlyOnKeyAndPrefix : Obligations.DeriveDependsOnlyOnKeyAndPrefix := by
  intro i s s' t t' hi hf hf' hm hm' hkey hnonce hexec hexec' hok hok' j hj
  obtain ⟨h, hform⟩ : ∃ h, (i, h) ∈ deriveForms := by
    rcases hi with rfl | rfl
    · exact ⟨hchacha20, by simp⟩
    · exact ⟨hsalsa20, by simp⟩
  have hread := readBytes_dst_of_derive_ok hform hf hm hexec hok
  have hread' := readBytes_dst_of_derive_ok hform hf' hm' hexec' hok'
  have hsame : h (keyB s) ((nonceB s).take 16) sigma = h (keyB s') ((nonceB s').take 16) sigma := by
    rw [keyB, keyB, hkey, nonceB_take_congr hnonce]
  calc byteAt t (s.dst.toNat + j)
      = (t.dmem.readBytes s.dst.toNat 32).getD j 0 := (Memory.readBytes_getD _ _ _ _ hj).symm
    _ = (t'.dmem.readBytes s'.dst.toNat 32).getD j 0 := by rw [hread, hread', hsame]
    _ = byteAt t' (s'.dst.toNat + j) := Memory.readBytes_getD _ _ _ _ hj

/-! ### KS_INIT's use of the subkey (rule R125) -/

/-- A KS_INIT that loads a DERIVE word's subkey keys the unit with the bytes that DERIVE writes. -/
theorem ksInit_key_eq_derived {i : Instr} {h : List Byte → List Byte → List Byte → List Byte}
    (hform : (i, h) ∈ deriveForms) {alg : Alg}
    (hload : ∀ key n, (ksLoad alg key n).key = keyWords (h (bytesOfWords key.toList) (n.take 16) sigma))
    {s t u : State} (hf : s.fatal = false) (hm : s.MemOk) (hderive : exec i s = .next t) (htok : t.err = .ok)
    (hinit : exec (ksInitOf alg) s = .next u) (huok : u.err = .ok) :
    u.ks.keyed = true ∧ bytesOfWords u.ks.key.toList = t.dmem.readBytes s.dst.toNat 32 := by
  obtain ⟨-, rfl⟩ := admitted_of_ok hf hinit huok
  obtain ⟨hkeyed, -⟩ := ksLoad_fresh alg s.key (nonceB s)
  simp only [effectOf_ksInitOf]
  refine ⟨hkeyed, ?_⟩
  rw [hload, bytesOfWords_keyWords _ (subkey_length hform _ _ _), readBytes_dst_of_derive_ok hform hf hm hderive htok]
  rfl

/-- Settles O40: the loading rules of the two extended variants name DERIVE's two functions. -/
theorem ksInitKeysTheUnitWithTheDerivedSubkey : Obligations.KsInitKeysTheUnitWithTheDerivedSubkey := by
  simp only [Obligations.KsInitKeysTheUnitWithTheDerivedSubkey, List.forall_mem_cons]
  refine ⟨fun s t u hf hm => ?_, fun s t u hf hm => ?_, by simp⟩
  · exact ksInit_key_eq_derived (h := hchacha20) (alg := .xchacha20) (by simp) (fun _ _ => rfl) hf hm
  · exact ksInit_key_eq_derived (h := hsalsa20) (alg := .xsalsa20) (by simp) (fun _ _ => rfl) hf hm

end Sys2Proof.Machine
end

section
/-! PROOFS. Poly1305 (43_poly1305.md rules R131 to R136): the two halves of the key, what a unit holds after each byte given it,
and the tag of what it holds. -/

namespace Sys2Proof.Machine

/-! ### The key (rule R131) -/

theorem toNat_append_word {n : Nat} (x : BitVec n) (w : Word) : (x ++ w).toNat = w.toNat + 2 ^ 32 * x.toNat := by
  rw [BitVec.toNat_append, ← Nat.shiftLeft_add_eq_or_of_lt w.isLt, Nat.shiftLeft_eq]
  omega

/-- The number of four words' bytes is the four words side by side, the first one lowest. -/
theorem ofNat_lenum_bytesOfWords (a b c d : Word) :
    BitVec.ofNat 128 (lenum (bytesOfWords [a, b, c, d])) = d ++ c ++ b ++ a := by
  have hnum : lenum (bytesOfWords [a, b, c, d]) = (d ++ c ++ b ++ a).toNat := by
    simp only [bytesOfWords_cons, bytesOfWords_nil, List.append_nil, lenum_append, lenum_toLe32, toLe32_length,
      toNat_append_word]
  rw [hnum, BitVec.ofNat_toNat, BitVec.setWidth_eq]

/-- The staged key's first half is words 0 to 3, its second half words 4 to 7. -/
theorem macKeyed_keyB (s : State) :
    macKeyed (keyB s)
      = { keyed := true, written := false, consumed := false
          r := (s.key[3] ++ s.key[2] ++ s.key[1] ++ s.key[0]) &&& clampMask
          s := s.key[7] ++ s.key[6] ++ s.key[5] ++ s.key[4]
          h := 0, buf := Vector.replicate 16 0, blen := 0 } := by
  have hwords : s.key.toList
      = [s.key[0], s.key[1], s.key[2], s.key[3]] ++ [s.key[4], s.key[5], s.key[6], s.key[7]] :=
    List.ext_getElem (by simp) fun i hi _ => by
      have hi8 : i < 8 := by simpa using hi
      interval_cases i <;> simp
  rw [macKeyed, keyB, hwords, bytesOfWords_append, List.take_left' (by simp), List.drop_left' (by simp),
    List.take_of_length_le (by simp), ofNat_lenum_bytesOfWords, ofNat_lenum_bytesOfWords]

/-! ### The accumulator (rules R132, R133, R135) -/

/-- Full blocks of a message are full blocks of every message it begins. -/
theorem polyFull_append (r : Nat) (msg d : List Byte) {q : Nat} (hq : 16 * q ≤ msg.length) :
    polyFull r (msg ++ d) q = polyFull r msg q := by
  induction q with
  | zero => rfl
  | succ q ih =>
    have hblock : polyBlockAt (msg ++ d) q = polyBlockAt msg q := by
      rw [polyBlockAt, polyBlockAt, List.drop_append_of_le_length (by omega),
        List.take_append_of_le_length (by rw [List.length_drop]; omega)]
    rw [polyFull, polyFull, hblock, ih (by omega)]

/-- A byte stored behind the buffered ones. -/
theorem take_succ_toList_setIfInBounds (buf : Vector Byte 16) {n : Nat} (hn : n < 16) (x : Byte) :
    (buf.setIfInBounds n x).toList.take (n + 1) = buf.toList.take n ++ [x] := by
  rw [Vector.toList_setIfInBounds, List.take_succ_eq_append_getElem (by simpa using hn), List.take_set_of_le le_rfl,
    List.getElem_set_self]

/-- A unit given one more byte holds one more byte. -/
theorem macHolds_macByte {m : MacState} {r k : BitVec 128} {msg : List Byte} (h : MacHolds m r k msg) (x : Byte) :
    MacHolds (macByte m x) r k (msg ++ [x]) := by
  obtain ⟨hr, hk, hh, hlen, hbuf⟩ := h
  have hlt : m.blen < 16 := by omega
  have hstored := take_succ_toList_setIfInBounds m.buf hlt x
  rw [hbuf, ← List.drop_append_of_le_length (by omega)] at hstored
  have hnew : (msg ++ [x]).length = msg.length + 1 := by simp
  rw [macByte]
  split
  next hfull =>
    have hq : (msg ++ [x]).length / 16 = msg.length / 16 + 1 := by omega
    have hblock : (m.buf.setIfInBounds m.blen x).toList = polyBlockAt (msg ++ [x]) (msg.length / 16) := by
      rw [polyBlockAt, ← hstored, hfull, List.take_take, Nat.min_self, List.take_of_length_le (by simp)]
    refine ⟨hr, hk, ?_, by simp only; omega, ?_⟩
    · rw [hq, polyFull, polyFull_append _ _ _ (by omega), ← hblock, ← hh]
      simp only [absorb, fullBlock, polyP, hr, Nat.add_assoc]
    · rw [hq, List.drop_of_length_le (by omega), List.take_zero]
  next hpart =>
    have hq : (msg ++ [x]).length / 16 = msg.length / 16 := by omega
    refine ⟨hr, hk, ?_, by simp only; omega, ?_⟩
    · rw [hq, polyFull_append _ _ _ (by omega)]
      exact hh
    · rw [hq]
      exact hstored

/-- A unit given `d` after `msg` holds `msg ‖ d`. -/
theorem macHolds_macWrite {m : MacState} {r k : BitVec 128} {msg : List Byte} (h : MacHolds m r k msg) (d : List Byte) :
    MacHolds (macWrite m d) r k (msg ++ d) := by
  induction d generalizing m msg with
  | nil => simpa using h
  | cons x d ih => simpa [macWrite_cons] using ih (macHolds_macByte h x)

/-! ### The tag (rule R136) -/

/-- The tag of a unit is the tag of what it holds. -/
theorem macFinal_of_macHolds {m : MacState} {r k : BitVec 128} {msg : List Byte} (h : MacHolds m r k msg) :
    macFinal m = poly1305 r.toNat k.toNat msg := by
  obtain ⟨rfl, rfl, hh, hlen, hbuf⟩ := h
  rw [macFinal, poly1305, hbuf, hh, hlen]
  by_cases hpart : msg.length % 16 = 0
  · simp [hpart]
  · have hrest : (msg.drop (16 * (msg.length / 16))).length = msg.length % 16 := by
      rw [List.length_drop]
      omega
    rw [if_pos (by omega), if_neg hpart]
    simp only [absorb, polyP, partialBlock_eq, hrest, Nat.add_assoc]

end Sys2Proof.Machine
end

section
/-! PROOFS. The MAC commands (43_poly1305.md rules R137 to R144): which check reports, the next state when all hold, and the life
cycle of the unit. -/

namespace Sys2Proof.Machine

/-! ### A use in the wrong phase (rules R138 to R140, R144) -/

/-- A MAC_WRITE, MAC_SUM or MAC_VERIFY on a unit without a key, or with a spent one. -/
theorem exec_mac_notUsable {i : Instr} (hi : i ∈ [.macWrite, .macSum, .macVerify]) {s : State} (hf : s.fatal = false)
    (hu : ¬ (s.mac.keyed = true ∧ s.mac.consumed = false)) : exec i s = .next (raiseFatal .macKeyReuse s) := by
  obtain ⟨ds, hchecks⟩ : ∃ ds, checksOf i s = checkMacUsable s :: ds := by
    simp only [List.mem_cons, List.not_mem_nil, or_false] at hi
    rcases hi with rfl | rfl | rfl <;> exact ⟨_, rfl⟩
  exact exec_firstFailing [] (checkMacUsable s) hf hchecks (by simp) (mt (checkMacUsable_holds s).1 hu)

/-- A MAC_SUM or MAC_VERIFY on a usable unit that nothing was written to. -/
theorem exec_mac_notWritten {i : Instr} (hi : i ∈ [.macSum, .macVerify]) {s : State} (hf : s.fatal = false)
    (hu : s.mac.keyed = true ∧ s.mac.consumed = false) (hw : s.mac.written = false) :
    exec i s = .next (raiseFatal .macSumBeforeWrite s) := by
  obtain ⟨ds, hchecks⟩ : ∃ ds, checksOf i s = [checkMacUsable s] ++ checkMacWritten s :: ds := by
    rcases List.mem_pair.1 hi with rfl | rfl <;> exact ⟨_, rfl⟩
  exact exec_firstFailing [checkMacUsable s] (checkMacWritten s) hf hchecks (by simpa using hu) (by simp [hw])

/-! ### MAC_INIT (rule R137) -/

/-- Settles O41: the one check, and the staged key's words in the unit. -/
theorem macInitKeysTheUnit : Obligations.MacInitKeysTheUnit := by
  refine ⟨decode_encode .macInit, fun s hf => ⟨fun hk => ?_, fun hk => ?_⟩⟩
  · exact exec_firstFailing [] (checkKeyLength s) hf rfl (by simp) (by simpa using hk)
  · rw [exec_admitted hf (by simpa [checksOf] using hk), effectOf, macKeyed_keyB]
    rfl

/-! ### MAC_WRITE (rules R138, R143) -/

theorem macWrite_keeps_flags (m : MacState) (d : List Byte) :
    (macWrite m d).keyed = m.keyed ∧ (macWrite m d).written = m.written ∧ (macWrite m d).consumed = m.consumed := by
  rw [macWrite_eq]
  exact ⟨rfl, rfl, rfl⟩

/-- What MAC_WRITE's checks ask. -/
theorem macWrite_checks_hold (s : State) :
    (∀ c ∈ checksOf .macWrite s, c.holds = true)
      ↔ (s.mac.keyed = true ∧ s.mac.consumed = false) ∧ Fits s s.src.toNat s.len.toNat := by
  simp [checksOf]

theorem exec_macWrite {s : State} (hf : s.fatal = false) (hu : s.mac.keyed = true ∧ s.mac.consumed = false)
    (hfits : Fits s s.src.toNat s.len.toNat) : exec .macWrite s = .next (effectOf .macWrite s) :=
  exec_admitted hf ((macWrite_checks_hold s).2 ⟨hu, hfits⟩)

/-- Settles O42: the two checks in order, and the effect. -/
theorem macWriteAppendsItsData : Obligations.MacWriteAppendsItsData := by
  refine ⟨decode_encode .macWrite, fun s hf => ⟨fun hu => ?_, fun hk hc hout => ?_, fun hk hc hin => ?_⟩⟩
  · exact exec_mac_notUsable (by simp) hf hu
  · exact exec_firstFailing [checkMacUsable s] (checkRange [srcRegion s] s) hf rfl (by simp [hk, hc]) (by simpa using hout)
  · obtain ⟨hkeyed, -, hconsumed⟩ := macWrite_keeps_flags s.mac (readRegion (srcRegion s) s)
    refine ⟨_, exec_macWrite hf ⟨hk, hc⟩ hin, rfl, hkeyed.trans hk, rfl, hconsumed.trans hc, ?_⟩
    intro r k msg h
    exact macHolds_macWrite h _

/-- Two writes are one write of both byte strings. -/
theorem macWrite_twice (m : MacState) (a b : List Byte) :
    { macWrite { macWrite m a with written := true } b with written := true }
      = { macWrite m (a ++ b) with written := true } := by
  rw [macWrite_written, macWrite_append]

/-- Settles O45: both parts are admitted, and the unit is given the one part's bytes after the other's. -/
theorem macWriteSplitsIntoConsecutiveParts : Obligations.MacWriteSplitsIntoConsecutiveParts := by
  intro s t a b hf hcfg hlen hexec hok
  obtain ⟨hchecks, rfl⟩ := admitted_of_ok hf hexec hok
  obtain ⟨hu, hfits⟩ := (macWrite_checks_hold s).1 hchecks
  have hsrc : (s.src + a).toNat = s.src.toNat + a.toNat := toNat_add_of_fits hcfg hfits (by omega)
  let s1 : State := { s with len := a }
  let s2 : State := { effectOf .macWrite s1 with src := s.src + a, len := b }
  have hfits1 : Fits s1 s1.src.toNat s1.len.toNat := by
    simp only [Fits, s1] at hfits ⊢
    omega
  have hfits2 : Fits s2 s2.src.toNat s2.len.toNat := by
    change Fits s (s.src + a).toNat b.toNat
    simp only [Fits, hsrc] at hfits ⊢
    omega
  obtain ⟨hkeyed1, -, hconsumed1⟩ := macWrite_keeps_flags s.mac (readRegion (srcRegion s1) s1)
  have hu2 : s2.mac.keyed = true ∧ s2.mac.consumed = false := ⟨hkeyed1.trans hu.1, hconsumed1.trans hu.2⟩
  refine ⟨_, _, exec_macWrite hf hu hfits1, rfl, exec_macWrite hf hu2 hfits2, rfl, ?_⟩
  calc (effectOf .macWrite s2).mac
      = { macWrite { macWrite s.mac (s.dmem.readBytes s.src.toNat a.toNat) with written := true }
            (s.dmem.readBytes (s.src + a).toNat b.toNat) with written := true } := rfl
    _ = { macWrite s.mac (s.dmem.readBytes s.src.toNat (a.toNat + b.toNat)) with written := true } := by
        rw [macWrite_twice, hsrc, ← Memory.readBytes_add]
    _ = (effectOf .macWrite s).mac := by rw [← hlen]; rfl

/-! ### MAC_SUM (rule R139) -/

/-- A spent unit keeps no more than that it was used. -/
theorem macSpend_eq {m : MacState} (hk : m.keyed = true) (hw : m.written = true) :
    macSpend m
      = { keyed := true, written := true, consumed := true, r := 0, s := 0, h := 0, buf := Vector.replicate 16 0
          blen := 0 } := by
  rw [macSpend, hk, hw]

/-- MAC_SUM changes DMEM, the MAC unit, `ERR` and `VOK` only. -/
theorem effectOf_macSum (s : State) :
    effectOf .macSum s
      = { s with
          dmem := s.dmem.writeBytes s.dst.toNat (macFinal s.mac)
          mac := macSpend s.mac
          err := .ok, vok := false } := by
  simp only [effectOf]
  generalize macFinal s.mac = tag
  rfl

/-- Settles O43: the four checks in order, and the effect. -/
theorem macSumWritesThePolyTag : Obligations.MacSumWritesThePolyTag := by
  refine ⟨decode_encode .macSum, fun s hf hm => ?_⟩
  intro usable
  refine ⟨fun hu => ?_, fun hu hw => ?_, fun hu hw hcap => ?_, fun hu hw hcap hout => ?_, fun hu hw hcap hin => ?_⟩
  · exact exec_mac_notUsable (by simp) hf hu
  · exact exec_mac_notWritten (by simp) hf hu hw
  · exact exec_firstFailing [checkMacUsable s, checkMacWritten s] (checkCapacity tagBytes s) hf rfl
      (by simpa [hw] using hu) (by simpa [tagBytes] using hcap)
  · exact exec_firstFailing [checkMacUsable s, checkMacWritten s, checkCapacity tagBytes s]
      (checkRange [dstRegion s] s) hf rfl (by simpa [hw, tagBytes, hcap] using hu) (by simpa using hout)
  · have hchecks : ∀ c ∈ checksOf .macSum s, c.holds = true := by
      simpa [checksOf, hw, tagBytes, hcap] using ⟨hu, hin⟩
    have hexec := exec_admitted hf hchecks
    rw [effectOf_macSum, macSpend_eq hu.1 hw] at hexec
    generalize htag : macFinal s.mac = tag at hexec
    refine ⟨_, tag, hexec, rfl, htag ▸ macFinal_length _, writesExactly_writeBytes hm rfl, fun r k msg h => ?_⟩
    rw [← htag, macFinal_of_macHolds h]

/-! ### MAC_VERIFY (rules R140, R141) -/

/-- Settles O44: the three checks in order, and the effect. -/
theorem macVerifyComparesThePolyTag : Obligations.MacVerifyComparesThePolyTag := by
  refine ⟨decode_encode .macVerify, fun s hf => ?_⟩
  intro usable given
  refine ⟨fun hu => ?_, fun hu hw => ?_, fun hu hw hout => ?_, fun hu hw hin => ?_⟩
  · exact exec_mac_notUsable (by simp) hf hu
  · exact exec_mac_notWritten (by simp) hf hu hw
  · exact exec_firstFailing [checkMacUsable s, checkMacWritten s] (checkRange [tagRegion s] s) hf rfl
      (by simpa [hw] using hu) (by simpa using hout)
  · have hchecks : ∀ c ∈ checksOf .macVerify s, c.holds = true := by
      simpa [checksOf, hw] using ⟨hu, hin⟩
    refine ⟨tagsEqual (macFinal s.mac) given, ?_, fun r k msg h => ?_⟩
    · rw [exec_admitted hf hchecks, ← macSpend_eq hu.1 hw]
      rfl
    · rw [tagsEqual_iff, macFinal_of_macHolds h]

/-! ### The life cycle (rule R144) -/

/-- A command that ends without an event, or with a forgery, has had its effect. -/
theorem eq_effectOf_of_end {i : Instr} {s t : State} (hf : s.fatal = false) (hexec : exec i s = .next t)
    (hnf : t.fatal = false) (hend : t.err = .ok ∨ t.err = .forgedOrCorrupted) : t = effectOf i s := by
  rcases exec_cases hexec with ⟨hfatal, -⟩ | ⟨-, e, he, rfl⟩ | ⟨-, -, ht⟩
  · simp [hf] at hfatal
  · obtain ⟨hevent, hnotForged⟩ := checksOf_event he
    obtain ⟨hnotOk, -⟩ := eventsOf_codes (i := i)
    cases e with
    | error c =>
      rcases hend with hok | hforged
      · obtain rfl : c = .ok := hok
        exact absurd hevent hnotOk
      · exact absurd (congrArg Event.error hforged) hnotForged
    | fatal c => simp at hnf
  · exact ht

/-- Settles O24: the two wrong phases are the first two checks, and each effect's flags are the cycle's. -/
theorem macFlagsFollowTheLifeCycle : Obligations.MacFlagsFollowTheLifeCycle := by
  intro i s t hf hexec
  refine ⟨fun hi hphase => ?_, fun hi hk hc hw => ?_, fun hnf hend => ?_⟩
  · have hu : ¬ (s.mac.keyed = true ∧ s.mac.consumed = false) := by
      rcases hphase with h | h <;> simp [h]
    obtain rfl : raiseFatal .macKeyReuse s = t := by simpa [exec_mac_notUsable hi hf hu] using hexec
    exact ⟨rfl, rfl⟩
  · obtain rfl : raiseFatal .macSumBeforeWrite s = t := by simpa [exec_mac_notWritten hi hf ⟨hk, hc⟩ hw] using hexec
    exact ⟨rfl, rfl⟩
  · obtain rfl := eq_effectOf_of_end hf hexec hnf hend
    cases i
    case macWrite =>
      obtain ⟨hkeyed, -, hconsumed⟩ := macWrite_keeps_flags s.mac (readRegion (srcRegion s) s)
      simp [effectOf, hkeyed, hconsumed]
    case macInit | macSum | macVerify => simp [effectOf, macKeyed, macSpend]
    -- every other command wipes the unit or leaves it as it is
    all_goals simp [effectOf, MacState.wiped]

end Sys2Proof.Machine
end

section
/-! PROOFS. The AEAD constructions (44_aead.md rules R153 to R157, R162): the framing of the MAC input, and the
controller's cipher and tag as the stream from block 1 and the Poly1305 tag under block 0. -/

namespace Sys2Proof.Machine

/-! ### Framing (rules R155, R156) -/

theorem toLe_eq_map_range (n v : Nat) : toLe n v = (List.range n).map (fun i => BitVec.ofNat 8 (v / 256 ^ i)) := by
  induction n generalizing v with
  | zero => rfl
  | succ n ih =>
    rw [toLe, ih, List.range_succ_eq_map, List.map_cons, List.map_map, pow_zero, Nat.div_one]
    congr 1
    refine List.map_congr_left fun i _ => ?_
    rw [Nat.div_div_eq_div_mul, Function.comp_apply, Nat.pow_succ, Nat.mul_comm]

@[simp] theorem lengthBytes_length (b : List Byte) : (lengthBytes b).length = 8 := toLe_length ..

@[simp] theorem pad16_length (n : Nat) : (pad16 n).length = (16 - n % 16) % 16 := zeros_length _

/-- Padding fills each part up to a multiple of 16, and the two lengths take 16 bytes. -/
theorem macInputPadded_length_mod (ad ct : List Byte) : (macInputPadded ad ct).length % 16 = 0 := by
  simp only [macInputPadded, List.length_append, pad16_length, lengthBytes_length]
  omega

/-- Settles O46: the length bytes are those of `to_le64`; which framing a variant takes is a case of `aeadMacInput`. -/
theorem macInputIsFramedAsSpecified : Obligations.MacInputIsFramedAsSpecified := by
  intro cfg ad ct lenBytes pad
  have hlen : ∀ b, lenBytes b = lengthBytes b := fun b => (toLe_eq_map_range 8 b.length).symm
  simp only [hlen, List.forall_mem_cons]
  refine ⟨⟨⟨rfl, macInputPadded_length_mod ad ct⟩, ⟨rfl, macInputPadded_length_mod ad ct⟩,
    ⟨rfl, macInputPadded_length_mod ad ct⟩, by simp⟩, fun hp => ?_, fun hp => ?_⟩
  · simp only [aeadMacInput, macInputUnpadded, hp]
  · simp only [aeadMacInput, macInputUnpadded, hp]

/-! ### The cipher (rules R153, R154) -/

@[simp] theorem streamBytes_length (ks : KsState) (c n : Nat) : (streamBytes ks c n).length = n := by simp [streamBytes]

@[simp] theorem aeadCipherOf_length (alg : Alg) (key : Vector Word 8) (nonceBs x : List Byte) :
    (aeadCipherOf alg key nonceBs x).length = x.length := by
  simp [aeadCipherOf]

theorem aeadSetup_eq (alg : Alg) (key : Vector Word 8) (nonceBs : List Byte) :
    aeadSetup alg key nonceBs = ((ksBlock (ksLoad alg key nonceBs)).take 32, ksAdvance (ksLoad alg key nonceBs)) := rfl

/-- A unit loaded with counter 0 and advanced over block 0 is at block 1 of its stream, nothing buffered. -/
theorem ksAt_ksAdvance_ksLoad {alg : Alg} (halg : alg ≠ .salsa20) (key : Vector Word 8) (nonceBs : List Byte) :
    KsAt (ksLoad alg key nonceBs) (ksAdvance (ksLoad alg key nonceBs)) 1 0 := by
  obtain ⟨-, hloadAlg, hoff, hwrap, -, hctr⟩ := ksLoad_fresh alg key nonceBs
  have hctr : (ksLoad alg key nonceBs).ctr.toNat = 0 := by rw [hctr halg]; rfl
  have hmax : 1 < (ksLoad alg key nonceBs).alg.ctrMax := by rw [hloadAlg]; cases alg <;> decide
  rcases ksAdvance_ctr (ksLoad alg key nonceBs) (by omega) with ⟨-, hnext, hw⟩ | ⟨hlast, -, -⟩
  · rw [ksAdvance_eq]
    exact ⟨rfl, rfl, rfl, rfl, hmax, .inl ⟨hmax, by simp only; omega, hw.trans hwrap⟩, .inl ⟨rfl, hoff⟩⟩
  · omega

/-- The cipher of the setup's unit, for an input no longer than a region of DMEM can be. -/
theorem aeadCrypt_aeadSetup {alg : Alg} (halg : alg ≠ .salsa20) (key : Vector Word 8) (nonceBs : List Byte)
    {x : List Byte} (hx : x.length < 2 ^ 32) :
    aeadCrypt (aeadSetup alg key nonceBs).2 x = aeadCipherOf alg key nonceBs x := by
  have hmax : 2 ^ 32 ≤ (ksLoad alg key nonceBs).alg.ctrMax := by
    rw [(ksLoad_fresh alg key nonceBs).2.1]
    cases alg <;> decide
  obtain ⟨hbytes, -⟩ := consumeReturnsTheNextStreamBytes (ksLoad alg key nonceBs) (ksAdvance (ksLoad alg key nonceBs))
    1 0 x.length (ksAt_ksAdvance_ksLoad halg key nonceBs) (by omega)
  rw [aeadCrypt, aeadSetup_eq, aeadCipherOf, streamBytes, hbytes]
  simp only [Nat.zero_add]

/-- The cipher applied twice gives its input back (rule R163 (a)). -/
theorem aeadCrypt_aeadCrypt (ks : KsState) (x : List Byte) : aeadCrypt ks (aeadCrypt ks x) = x := by
  rw [aeadCrypt, aeadCrypt_length, aeadCrypt, xorBytes_xorBytes _ _ (by simp)]

/-! ### The tag (rules R153, R157) -/

/-- A unit just keyed holds the empty message. -/
theorem macHolds_macKeyed (k : List Byte) : MacHolds (macKeyed k) (macKeyed k).r (macKeyed k).s [] :=
  ⟨rfl, rfl, rfl, rfl, rfl⟩

theorem macKeyed_r (k : List Byte) : (macKeyed k).r = BitVec.ofNat 128 (lenum (k.take 16)) &&& clampMask := rfl

/-- The second half of a 32-byte key, as a number. -/
theorem macKeyed_s_toNat {k : List Byte} (hk : k.length = 32) : (macKeyed k).s.toNat = lenum (k.drop 16) := by
  have hlen : (k.drop 16).length = 16 := by rw [List.length_drop, hk]
  have hlt := lenum_lt (k.drop 16)
  rw [macKeyed, List.take_of_length_le hlen.le, BitVec.toNat_ofNat, Nat.mod_eq_of_lt (by simpa [hlen] using hlt)]

/-- The tag under a 32-byte one-time key is Poly1305 of the MAC input. -/
theorem aeadTag_eq_poly1305 (cfg : Config) (alg : Alg) {otk : List Byte} (hotk : otk.length = 32) (ad ct : List Byte) :
    aeadTag cfg alg otk ad ct
      = poly1305 (BitVec.ofNat 128 (lenum (otk.take 16)) &&& clampMask).toNat (lenum (otk.drop 16))
          (aeadMacInput cfg alg ad ct) := by
  have hholds := macHolds_macWrite (macHolds_macKeyed otk) (aeadMacInput cfg alg ad ct)
  rw [aeadTag, macFinal_of_macHolds hholds, macKeyed_s_toNat hotk, macKeyed_r, List.nil_append]

/-- The setup's key is the first half of block 0. -/
theorem aeadSetup_fst {alg : Alg} (halg : alg ≠ .salsa20) (key : Vector Word 8) (nonceBs : List Byte) :
    (aeadSetup alg key nonceBs).1 = (blockOf (ksLoad alg key nonceBs) 0).take 32 := by
  obtain ⟨-, -, -, -, -, hctr⟩ := ksLoad_fresh alg key nonceBs
  have hblock : ksBlock (ksLoad alg key nonceBs) = blockOf (ksLoad alg key nonceBs) 0 :=
    ksBlock_congr rfl rfl rfl (hctr halg)
  rw [aeadSetup_eq, hblock]

theorem aeadTag_aeadSetup {alg : Alg} (halg : alg ≠ .salsa20) (cfg : Config) (key : Vector Word 8)
    (nonceBs ad ct : List Byte) :
    aeadTag cfg alg (aeadSetup alg key nonceBs).1 ad ct = aeadTagOf cfg alg key nonceBs ad ct := by
  rw [aeadTag_eq_poly1305 cfg alg (by simp [aeadSetup_eq]), aeadSetup_fst halg]
  rfl

@[simp] theorem aeadTagOf_length (cfg : Config) (alg : Alg) (key : Vector Word 8) (nonceBs ad ct : List Byte) :
    (aeadTagOf cfg alg key nonceBs ad ct).length = 16 := toLe_length ..

/-! ### Seal and open (rules R162, R163) -/

theorem aeadSealBytes_eq (cfg : Config) (alg : Alg) (key : Vector Word 8) (nonceBs ad pt : List Byte) :
    aeadSealBytes cfg alg key nonceBs ad pt
      = (aeadCrypt (aeadSetup alg key nonceBs).2 pt,
        aeadTag cfg alg (aeadSetup alg key nonceBs).1 ad (aeadCrypt (aeadSetup alg key nonceBs).2 pt)) := rfl

theorem aeadOpenBytes_eq (cfg : Config) (alg : Alg) (key : Vector Word 8) (nonceBs ad ct given : List Byte) :
    aeadOpenBytes cfg alg key nonceBs ad ct given
      = if given = aeadTag cfg alg (aeadSetup alg key nonceBs).1 ad ct then
          some (aeadCrypt (aeadSetup alg key nonceBs).2 ct)
        else none := by
  simp only [aeadOpenBytes, tagsEqual_iff, eq_comm (b := given)]

/-- What is sealed opens to its plaintext. -/
theorem aeadOpenBytes_aeadSealBytes (cfg : Config) (alg : Alg) (key : Vector Word 8) (nonceBs ad pt : List Byte) :
    aeadOpenBytes cfg alg key nonceBs ad (aeadSealBytes cfg alg key nonceBs ad pt).1
      (aeadSealBytes cfg alg key nonceBs ad pt).2 = some pt := by
  rw [aeadSealBytes_eq, aeadOpenBytes_eq, if_pos rfl, aeadCrypt_aeadCrypt]

/-- The bytes a seal command computes, in the terms of the units. -/
theorem sealed_eq {alg : Alg} (halg : alg ≠ .salsa20) (s : State) :
    let pt := s.dmem.readBytes s.src.toNat s.len.toNat
    let ad := s.dmem.readBytes s.ad.toNat s.adlen.toNat
    let ct := aeadCipherOf alg s.key (nonceB s) pt
    sealed alg s = (ct, aeadTagOf s.cfg alg s.key (nonceB s) ad ct) := by
  intro pt ad ct
  have hct : aeadCrypt (aeadSetup alg s.key (nonceB s)).2 pt = ct :=
    aeadCrypt_aeadSetup halg _ _ (by simp [pt, s.len.isLt])
  change aeadSealBytes s.cfg alg s.key (nonceB s) ad pt = _
  rw [aeadSealBytes_eq, hct, aeadTag_aeadSetup halg]

/-- What an open command releases, in the terms of the units. -/
theorem openStaged_eq {alg : Alg} (halg : alg ≠ .salsa20) (s : State) (ad given : List Byte) {ct : List Byte}
    (hct : ct.length < 2 ^ 32) :
    openStaged alg s ad ct given
      = if given = aeadTagOf s.cfg alg s.key (nonceB s) ad ct then some (aeadCipherOf alg s.key (nonceB s) ct)
        else none := by
  rw [openStaged, aeadOpenBytes_eq, aeadTag_aeadSetup halg, aeadCrypt_aeadSetup halg _ _ hct]

end Sys2Proof.Machine
end

section
/-! PROOFS. The AEAD commands (44_aead.md rules R158 to R161, R211): their checks in the terms of the statements, which check
reports, and the next state when all hold. -/

namespace Sys2Proof.Machine

/-! ### The four constructions -/

/-- A row of the table of constructions: variant, nonce length, and the seal, detached seal, open and detached open
commands. -/
abbrev AeadForm := Alg × Nat × Instr × Instr × Instr × Instr

/-- What a row's commands are: the checks and the effects of its variant, which is an AEAD one (rule R67) with the row's
nonce length. -/
structure AeadRow (f : AeadForm) : Prop where
  notSalsa20 : f.1 ≠ .salsa20
  nonceBytes : f.1.nonceBytes = f.2.1
  checks_seal : ∀ s, checksOf f.2.2.1 s = sealChecks f.1 s
  checks_sealDet : ∀ s, checksOf f.2.2.2.1 s = sealDetChecks f.1 s
  checks_open : ∀ s, checksOf f.2.2.2.2.1 s = openChecks f.1 s
  checks_openDet : ∀ s, checksOf f.2.2.2.2.2 s = openDetChecks f.1 s
  effect_seal : ∀ s, effectOf f.2.2.1 s = sealEffect f.1 s
  effect_sealDet : ∀ s, effectOf f.2.2.2.1 s = sealDetEffect f.1 s
  effect_open : ∀ s, effectOf f.2.2.2.2.1 s = finishOpen (opened f.1 s) s
  effect_openDet : ∀ s, effectOf f.2.2.2.2.2 s = finishOpen (openedDet f.1 s) s

theorem aeadRow_of_mem {f : AeadForm} (h : f ∈ aeadForms) : AeadRow f := by
  simp only [aeadForms, List.mem_cons, List.not_mem_nil, or_false] at h
  rcases h with rfl | rfl | rfl | rfl <;>
    exact ⟨by decide, rfl, fun _ => rfl, fun _ => rfl, fun _ => rfl, fun _ => rfl, fun _ => rfl, fun _ => rfl,
      fun _ => rfl, fun _ => rfl⟩

/-! ### When the checks hold -/

/-- The source, the associated data and the destination are in range (rule R44). -/
abbrev State.AeadInRange (s : State) : Prop :=
  Fits s s.src.toNat s.len.toNat ∧ Fits s s.ad.toNat s.adlen.toNat ∧ Fits s s.dst.toNat s.dcap.toNat

/-- The overlap rule for a command that writes `m` bytes at `DST` (rule R45). -/
abbrev State.AeadClear (s : State) (m : Nat) : Prop :=
  (s.src = s.dst ∨ Apart s.src.toNat s.len.toNat s.dst.toNat m) ∧ Apart s.ad.toNat s.adlen.toNat s.dst.toNat m

/-- The overlap rule for the tag AEAD_SEAL_DET writes apart (rule R45). -/
abbrev State.AeadTagClear (s : State) : Prop :=
  Apart s.src.toNat s.len.toNat s.tag.toNat 16 ∧ Apart s.ad.toNat s.adlen.toNat s.tag.toNat 16
    ∧ Apart s.dst.toNat s.len.toNat s.tag.toNat 16

/-- The range check of AEAD_SEAL and AEAD_OPEN. -/
theorem aead_range_holds (s : State) :
    (checkRange [srcRegion s, adRegion s, dstRegion s] s).holds = true ↔ s.AeadInRange := by
  simp

theorem sealDet_range_holds (s : State) :
    (checkRange [srcRegion s, adRegion s, dstRegion s, tagRegion s] s).holds = true
      ↔ s.AeadInRange ∧ Fits s s.tag.toNat 16 := by
  simp [and_assoc]

theorem openDet_range_holds (s : State) :
    (checkRange [srcRegion s, adRegion s, tagRegion s, dstRegion s] s).holds = true
      ↔ s.AeadInRange ∧ Fits s s.tag.toNat 16 := by
  simpa [and_assoc] using fun _ _ => and_comm

/-- The overlap check of AEAD_SEAL and AEAD_OPEN, by the number of bytes they write. -/
theorem aead_overlap_holds (s : State) (m : Nat) :
    (checkOverlap ⟨srcRegion s, [adRegion s], dstExtent m s, []⟩).holds = true ↔ s.AeadClear m := by
  simp [Extents.allowed_iff, BitVec.toNat_inj]

theorem sealDet_overlap_holds (s : State) :
    (checkOverlap ⟨srcRegion s, [adRegion s], dstExtent s.len.toNat s, [tagRegion s]⟩).holds = true
      ↔ s.AeadClear s.len.toNat ∧ s.AeadTagClear := by
  simp only [checkOverlap_holds, Extents.allowed_iff, List.forall_mem_singleton, srcRegion_off, srcRegion_len,
    adRegion_off, adRegion_len, dstExtent_off, dstExtent_len, tagRegion_off, tagRegion_len, BitVec.toNat_inj]
  constructor
  · rintro ⟨hsrc, ⟨hsrcTag, hdstTag⟩, had, hadTag⟩
    exact ⟨⟨hsrc, had⟩, hsrcTag, hadTag, hdstTag⟩
  · rintro ⟨⟨hsrc, had⟩, hsrcTag, hadTag, hdstTag⟩
    exact ⟨hsrc, ⟨hsrcTag, hdstTag⟩, had, hadTag⟩

theorem openDet_overlap_holds (s : State) :
    (checkOverlap ⟨srcRegion s, [adRegion s, tagRegion s], dstExtent s.len.toNat s, []⟩).holds = true
      ↔ s.AeadClear s.len.toNat ∧ Apart s.tag.toNat 16 s.dst.toNat s.len.toNat := by
  simp [Extents.allowed_iff, BitVec.toNat_inj, and_assoc]

theorem sealChecks_hold (alg : Alg) (s : State) :
    (∀ c ∈ sealChecks alg s, c.holds = true)
      ↔ s.klen.toNat = 32 ∧ s.nlen.toNat = alg.nonceBytes ∧ s.len.toNat + 16 ≤ s.dcap.toNat ∧ s.AeadInRange
        ∧ s.AeadClear (s.len.toNat + 16) := by
  simp only [sealChecks, List.forall_mem_cons, checkKeyLength_holds, checkNonceLength_holds, checkCapacity_holds,
    aead_range_holds, aead_overlap_holds, tagBytes, List.not_mem_nil, false_imp_iff, implies_true, and_true]

theorem sealDetChecks_hold (alg : Alg) (s : State) :
    (∀ c ∈ sealDetChecks alg s, c.holds = true)
      ↔ s.klen.toNat = 32 ∧ s.nlen.toNat = alg.nonceBytes ∧ s.len.toNat ≤ s.dcap.toNat
        ∧ (s.AeadInRange ∧ Fits s s.tag.toNat 16) ∧ s.AeadClear s.len.toNat ∧ s.AeadTagClear := by
  simp only [sealDetChecks, List.forall_mem_cons, checkKeyLength_holds, checkNonceLength_holds, checkCapacity_holds,
    sealDet_range_holds, sealDet_overlap_holds, List.not_mem_nil, false_imp_iff, implies_true, and_true]

theorem openChecks_hold (alg : Alg) (s : State) :
    (∀ c ∈ openChecks alg s, c.holds = true)
      ↔ s.klen.toNat = 32 ∧ s.nlen.toNat = alg.nonceBytes ∧ 16 ≤ s.len.toNat ∧ s.len.toNat - 16 ≤ s.dcap.toNat
        ∧ s.AeadInRange ∧ s.AeadClear (s.len.toNat - 16) := by
  simp only [openChecks, List.forall_mem_cons, checkKeyLength_holds, checkNonceLength_holds, checkCipherLength_holds,
    checkCapacity_holds, aead_range_holds, aead_overlap_holds, tagBytes, List.not_mem_nil, false_imp_iff, implies_true,
    and_true]

theorem openDetChecks_hold (alg : Alg) (s : State) :
    (∀ c ∈ openDetChecks alg s, c.holds = true)
      ↔ s.klen.toNat = 32 ∧ s.nlen.toNat = alg.nonceBytes ∧ s.len.toNat ≤ s.dcap.toNat
        ∧ (s.AeadInRange ∧ Fits s s.tag.toNat 16) ∧ s.AeadClear s.len.toNat
        ∧ Apart s.tag.toNat 16 s.dst.toNat s.len.toNat := by
  simp only [openDetChecks, List.forall_mem_cons, checkKeyLength_holds, checkNonceLength_holds, checkCapacity_holds,
    openDet_range_holds, openDet_overlap_holds, List.not_mem_nil, false_imp_iff, implies_true, and_true]

/-! ### Which check reports (rule R211) -/

/-- The two checks every AEAD command makes first. -/
theorem AeadRow.checks_begin {f : AeadForm} (hrow : AeadRow f) {i : Instr}
    (hi : i ∈ [f.2.2.1, f.2.2.2.1, f.2.2.2.2.1, f.2.2.2.2.2]) (s : State) :
    ∃ ds, checksOf i s = [checkKeyLength s] ++ checkNonceLength f.1 s :: ds := by
  simp only [List.mem_cons, List.not_mem_nil, or_false] at hi
  rcases hi with rfl | rfl | rfl | rfl
  · exact ⟨_, hrow.checks_seal s⟩
  · exact ⟨_, hrow.checks_sealDet s⟩
  · exact ⟨_, hrow.checks_open s⟩
  · exact ⟨_, hrow.checks_openDet s⟩

/-- The three checks every AEAD command makes last: capacity, range and overlap. -/
theorem exec_operandEvents {i : Instr} {s : State} {pre : List Check} {m : Nat} {rs : List Region} {e : Extents}
    {inRange clear : Prop} (hf : s.fatal = false)
    (hchecks : checksOf i s = pre ++ [checkCapacity m s, checkRange rs s, checkOverlap e])
    (hpre : ∀ c ∈ pre, c.holds = true) (hrange : (checkRange rs s).holds = true ↔ inRange)
    (hclear : (checkOverlap e).holds = true ↔ clear) :
    (s.dcap.toNat < m → exec i s = .next (raiseError .bufferTooShort s))
      ∧ (m ≤ s.dcap.toNat → ¬ inRange → exec i s = .next (raiseError .dmemRange s))
      ∧ (m ≤ s.dcap.toNat → inRange → ¬ clear → exec i s = .next (raiseError .overlap s)) := by
  have hcap := checkCapacity_holds m s
  refine ⟨fun hshort => ?_, fun hm hout => ?_, fun hm hin hlap => ?_⟩
  · exact exec_firstFailing pre (checkCapacity m s) hf hchecks hpre (mt hcap.1 (by omega))
  · refine exec_firstFailing (pre ++ [checkCapacity m s]) (checkRange rs s) (ds := [checkOverlap e]) hf
      (by simp [hchecks]) ?_ (mt hrange.1 hout)
    exact List.forall_mem_append.2 ⟨hpre, by simpa using hm⟩
  · refine exec_firstFailing (pre ++ [checkCapacity m s, checkRange rs s]) (checkOverlap e) (ds := []) hf
      (by simp [hchecks]) ?_ (mt hclear.1 hlap)
    exact List.forall_mem_append.2 ⟨hpre, List.forall_mem_cons.2 ⟨hcap.2 hm, List.forall_mem_singleton.2 (hrange.2 hin)⟩⟩

/-- Settles O51: each event is that of its check, the checks before it holding. -/
theorem aeadCommandsCheckTheirOperandsInOrder : Obligations.AeadCommandsCheckTheirOperandsInOrder := by
  intro f hform s hf
  have hrow := aeadRow_of_mem hform
  refine ⟨fun i hi => ?_, fun hk hn => ?_⟩
  · obtain ⟨ds, hchecks⟩ := hrow.checks_begin hi s
    refine ⟨fun hk => ?_, fun hk hn => ?_⟩
    · exact exec_firstFailing [] (checkKeyLength s) hf hchecks (by simp) (by simpa using hk)
    · exact exec_firstFailing [checkKeyLength s] (checkNonceLength f.1 s) hf hchecks (by simpa using hk)
        (by simpa [hrow.nonceBytes] using hn)
  · intro n inRange clear tagClear reports
    have hpre : ∀ c ∈ [checkKeyLength s, checkNonceLength f.1 s], c.holds = true := by simp [hk, hn, hrow.nonceBytes]
    have hpreOpen : 16 ≤ n → ∀ c ∈ [checkKeyLength s, checkNonceLength f.1 s, checkCipherLength s], c.holds = true :=
      fun hlen => by simpa [hk, hn, hrow.nonceBytes] using hlen
    obtain ⟨sealShort, sealRange, sealLap⟩ :=
      exec_operandEvents hf (hrow.checks_seal s) hpre (aead_range_holds s) (aead_overlap_holds s (n + 16))
    obtain ⟨detShort, detRange, detLap⟩ :=
      exec_operandEvents hf (hrow.checks_sealDet s) hpre (sealDet_range_holds s) (sealDet_overlap_holds s)
    have hopen := fun hlen => exec_operandEvents hf (hrow.checks_open s) (hpreOpen hlen) (aead_range_holds s)
      (aead_overlap_holds s (n - 16))
    obtain ⟨openDetShort, openDetRange, openDetLap⟩ :=
      exec_operandEvents hf (hrow.checks_openDet s) hpre (openDet_range_holds s) (openDet_overlap_holds s)
    refine ⟨sealShort, sealRange, sealLap, detShort, detRange, fun hm hin htag => detLap hm ⟨hin, htag⟩, fun hlen => ?_,
      fun hlen => (hopen hlen).1, fun hlen => (hopen hlen).2.1, fun hlen => (hopen hlen).2.2, openDetShort, openDetRange,
      fun hm hin htag => openDetLap hm ⟨hin, htag⟩⟩
    exact exec_firstFailing [checkKeyLength s, checkNonceLength f.1 s] (checkCipherLength s) hf (hrow.checks_open s) hpre
      (mt (checkCipherLength_holds s).1 (by omega))

end Sys2Proof.Machine
end

section
/-! PROOFS. What an admitted AEAD command does (44_aead.md rules R150, R152, R158 to R161), and the agreements between the
commands (rule R163). -/

namespace Sys2Proof.Machine

section
variable {f : AeadForm} (hform : f ∈ aeadForms)
include hform

/-! ### Admitted commands -/

theorem exec_seal_admitted {s : State} (hf : s.fatal = false) (hc : ∀ c ∈ sealChecks f.1 s, c.holds = true) :
    exec f.2.2.1 s = .next (sealEffect f.1 s) := by
  rw [exec_admitted hf (by rwa [(aeadRow_of_mem hform).checks_seal]), (aeadRow_of_mem hform).effect_seal]

theorem exec_sealDet_admitted {s : State} (hf : s.fatal = false) (hc : ∀ c ∈ sealDetChecks f.1 s, c.holds = true) :
    exec f.2.2.2.1 s = .next (sealDetEffect f.1 s) := by
  rw [exec_admitted hf (by rwa [(aeadRow_of_mem hform).checks_sealDet]), (aeadRow_of_mem hform).effect_sealDet]

theorem exec_open_admitted {s : State} (hf : s.fatal = false) (hc : ∀ c ∈ openChecks f.1 s, c.holds = true) :
    exec f.2.2.2.2.1 s = .next (finishOpen (opened f.1 s) s) := by
  rw [exec_admitted hf (by rwa [(aeadRow_of_mem hform).checks_open]), (aeadRow_of_mem hform).effect_open]

theorem exec_openDet_admitted {s : State} (hf : s.fatal = false) (hc : ∀ c ∈ openDetChecks f.1 s, c.holds = true) :
    exec f.2.2.2.2.2 s = .next (finishOpen (openedDet f.1 s) s) := by
  rw [exec_admitted hf (by rwa [(aeadRow_of_mem hform).checks_openDet]), (aeadRow_of_mem hform).effect_openDet]

end

/-! ### The seal commands (rules R158, R159) -/

/-- AEAD_SEAL writes ciphertext and tag as one byte string. -/
theorem sealEffect_dmem_append (alg : Alg) (s : State) :
    (sealEffect alg s).dmem = s.dmem.writeBytes s.dst.toNat ((sealed alg s).1 ++ (sealed alg s).2) := by
  rw [sealEffect_dmem, Memory.writeBytes_append, sealed_ct_length]

/-- Settles O47: the sound operands pass the checks, and the effect writes what the units compute. -/
theorem aeadSealWritesCiphertextAndTag : Obligations.AeadSealWritesCiphertextAndTag := by
  intro f hform s hf _ hm hk hn hcap hsrc had hdst hsrcDst hadDst pt ad ct
  have hrow := aeadRow_of_mem hform
  have hchecks := (sealChecks_hold f.1 s).2
    ⟨hk, hrow.nonceBytes ▸ hn, hcap, ⟨hsrc, had, hdst⟩, hsrcDst, hadDst⟩
  refine ⟨sealEffect f.1 s, exec_seal_admitted hform hf hchecks, sealEffect_frame f.1 s, by simp [ct, pt],
    aeadTagOf_length .., writesExactly_writeBytes hm ?_⟩
  rw [sealEffect_dmem_append, sealed_eq hrow.notSalsa20]

/-- What AEAD_SEAL_DET leaves in DMEM when its two outputs are apart: the ciphertext, the tag, and the rest as it was. -/
theorem sealDetEffect_bytes (alg : Alg) {s : State} (hm : s.MemOk)
    (hapart : Apart s.dst.toNat s.len.toNat s.tag.toNat 16) :
    (∀ i, i < s.len.toNat → byteAt (sealDetEffect alg s) (s.dst.toNat + i) = (sealed alg s).1.getD i 0)
      ∧ (∀ i, i < 16 → byteAt (sealDetEffect alg s) (s.tag.toNat + i) = (sealed alg s).2.getD i 0)
      ∧ ∀ b, (b < s.dst.toNat ∨ s.dst.toNat + s.len.toNat ≤ b) → (b < s.tag.toNat ∨ s.tag.toNat + 16 ≤ b) →
          byteAt (sealDetEffect alg s) b = byteAt s b := by
  have hread : ∀ b, byteAt (sealDetEffect alg s) b
      = if s.tag.toNat ≤ b ∧ b < s.tag.toNat + 16 then (sealed alg s).2.getD (b - s.tag.toNat) 0
        else if s.dst.toNat ≤ b ∧ b < s.dst.toNat + s.len.toNat then (sealed alg s).1.getD (b - s.dst.toNat) 0
        else byteAt s b := fun b => by
    have hsorted := Memory.wf_sorted hm
    rw [byteAt, sealDetEffect_dmem, Memory.read_writeBytes _ _ _ (Memory.sorted_writeBytes _ _ hsorted),
      Memory.read_writeBytes _ _ _ hsorted, sealed_ct_length, sealed_tag_length]
    rfl
  refine ⟨fun i hi => ?_, fun i hi => ?_, fun b hdst htag => ?_⟩
  · rw [hread, if_neg (by simp only [Apart] at hapart; omega), if_pos (by omega), Nat.add_sub_cancel_left]
  · rw [hread, if_pos (by omega), Nat.add_sub_cancel_left]
  · rw [hread, if_neg (by omega), if_neg (by omega)]

/-- Settles O48: as for AEAD_SEAL, the tag written apart. -/
theorem aeadSealDetWritesCiphertextAndTagApart : Obligations.AeadSealDetWritesCiphertextAndTagApart := by
  intro f hform s hf _ hm hk hn hcap hsrc had hdst htag hsrcDst hadDst hsrcTag hadTag hdstTag pt ad ct tag
  have hrow := aeadRow_of_mem hform
  have hchecks := (sealDetChecks_hold f.1 s).2
    ⟨hk, hrow.nonceBytes ▸ hn, hcap, ⟨⟨hsrc, had, hdst⟩, htag⟩, ⟨hsrcDst, hadDst⟩, hsrcTag, hadTag, hdstTag⟩
  have hbytes := sealDetEffect_bytes f.1 hm hdstTag
  rw [sealed_eq hrow.notSalsa20] at hbytes
  exact ⟨sealDetEffect f.1 s, exec_sealDet_admitted hform hf hchecks, sealDetEffect_frame f.1 s, by simp [ct, pt],
    aeadTagOf_length .., hbytes⟩

/-! ### The open commands (rules R160, R161, R207) -/

/-- The two ends of an open command that compares `given` with the tag of `ct`. -/
theorem finishOpen_openStaged {alg : Alg} (halg : alg ≠ .salsa20) {s : State} (hm : s.MemOk) (ad given : List Byte)
    {ct : List Byte} (hct : ct.length < 2 ^ 32) :
    let t := finishOpen (openStaged alg s ad ct given) s
    (given = aeadTagOf s.cfg alg s.key (nonceB s) ad ct →
        t = { s.UnitsWiped with dmem := t.dmem, err := .ok, vok := true }
          ∧ WritesExactly s t s.dst.toNat (aeadCipherOf alg s.key (nonceB s) ct))
      ∧ (given ≠ aeadTagOf s.cfg alg s.key (nonceB s) ad ct →
          t = { s.UnitsWiped with err := .forgedOrCorrupted, vok := false }) := by
  rw [openStaged_eq halg s ad given hct]
  refine ⟨fun hsame => ?_, fun hforged => ?_⟩
  · rw [if_pos hsame]
    generalize aeadCipherOf alg s.key (nonceB s) ct = pt
    exact ⟨rfl, writesExactly_writeBytes hm rfl⟩
  · rw [if_neg hforged]
    rfl

/-- AEAD_OPEN takes its last 16 bytes for the tag. -/
theorem opened_eq (alg : Alg) {s : State} (hlen : 16 ≤ s.len.toNat) :
    opened alg s
      = openStaged alg s (s.dmem.readBytes s.ad.toNat s.adlen.toNat)
          (s.dmem.readBytes s.src.toNat (s.len.toNat - 16))
          (s.dmem.readBytes (s.src.toNat + (s.len.toNat - 16)) 16) := by
  have hrest : s.len.toNat - (s.len.toNat - 16) = 16 := by omega
  rw [opened, readRegion, readRegion, srcRegion_off, srcRegion_len, tagBytes, Memory.readBytes_take _ _ _ _ (by omega),
    Memory.readBytes_drop _ _ _ _ (by omega), hrest]
  rfl

/-- Settles O49: the sound operands pass the checks, and the comparison decides between the two ends. -/
theorem aeadOpenVerifiesThenDecrypts : Obligations.AeadOpenVerifiesThenDecrypts := by
  intro f hform s hf _ hm hk hn hlen hcap hsrc had hdst hsrcDst hadDst ct given ad
  have hrow := aeadRow_of_mem hform
  have hchecks := (openChecks_hold f.1 s).2
    ⟨hk, hrow.nonceBytes ▸ hn, hlen, hcap, ⟨hsrc, had, hdst⟩, hsrcDst, hadDst⟩
  have hct : ct.length = s.len.toNat - 16 := Memory.readBytes_length ..
  obtain ⟨hok, hforged⟩ := finishOpen_openStaged hrow.notSalsa20 hm ad given (ct := ct) (by omega)
  rw [exec_open_admitted hform hf hchecks, opened_eq f.1 hlen]
  refine ⟨fun hsame => ?_, fun hdiff => congrArg _ (hforged hdiff)⟩
  obtain ⟨hframe, hwrites⟩ := hok hsame
  exact ⟨_, rfl, hframe, by rw [aeadCipherOf_length, hct], hwrites⟩

/-- Settles O50: as for AEAD_OPEN, the given tag apart. -/
theorem aeadOpenDetVerifiesThenDecrypts : Obligations.AeadOpenDetVerifiesThenDecrypts := by
  intro f hform s hf _ hm hk hn hcap hsrc had htag hdst hsrcDst hadDst htagDst ct given ad
  have hrow := aeadRow_of_mem hform
  have hchecks := (openDetChecks_hold f.1 s).2
    ⟨hk, hrow.nonceBytes ▸ hn, hcap, ⟨⟨hsrc, had, hdst⟩, htag⟩, ⟨hsrcDst, hadDst⟩, htagDst⟩
  have hct : ct.length = s.len.toNat := Memory.readBytes_length ..
  obtain ⟨hok, hforged⟩ := finishOpen_openStaged hrow.notSalsa20 hm ad given (ct := ct) (by omega)
  rw [exec_openDet_admitted hform hf hchecks]
  refine ⟨fun hsame => ?_, fun hdiff => congrArg _ (hforged hdiff)⟩
  obtain ⟨hframe, hwrites⟩ := hok hsame
  exact ⟨_, rfl, hframe, by rw [aeadCipherOf_length, hct], hwrites⟩

/-! ### No use of earlier unit state (rule R150) -/

/-- The state with other units. -/
abbrev State.withUnits (s : State) (ks : KsState) (mac : MacState) : State := { s with ks := ks, mac := mac }

theorem sealEffect_withUnits (alg : Alg) (s : State) (ks : KsState) (mac : MacState) :
    sealEffect alg (s.withUnits ks mac) = sealEffect alg s := by
  have hsealed : sealed alg (s.withUnits ks mac) = sealed alg s := rfl
  rw [sealEffect, sealEffect, hsealed]
  rfl

theorem sealDetEffect_withUnits (alg : Alg) (s : State) (ks : KsState) (mac : MacState) :
    sealDetEffect alg (s.withUnits ks mac) = sealDetEffect alg s := by
  have hsealed : sealed alg (s.withUnits ks mac) = sealed alg s := rfl
  rw [sealDetEffect, sealDetEffect, hsealed]
  rfl

theorem finishOpen_withUnits (pt : Option (List Byte)) (s : State) (ks : KsState) (mac : MacState) :
    finishOpen pt (s.withUnits ks mac) = finishOpen pt s := by
  cases pt <;> rfl

/-- A command that ends without an event, or with a forgery, was admitted. -/
theorem admitted_of_end {i : Instr} {s t : State} (hf : s.fatal = false) (hexec : exec i s = .next t)
    (hend : t.err = .ok ∨ t.err = .forgedOrCorrupted) :
    (∀ c ∈ checksOf i s, c.holds = true) ∧ t = effectOf i s := by
  rcases hend with hok | hforged
  · exact admitted_of_ok hf hexec hok
  · rcases exec_cases hexec with ⟨hfatal, -⟩ | ⟨-, e, he, rfl⟩ | ⟨-, hc, ht⟩
    · simp [hf] at hfatal
    · obtain ⟨-, hnotForged⟩ := checksOf_event he
      cases e with
      | error c => exact absurd (congrArg Event.error hforged) hnotForged
      | fatal c => simp at hforged
    · exact ⟨(firstFailure_none_iff _).1 hc, ht⟩

/-- Settles O54: neither the checks nor the effects look at the units. -/
theorem aeadCommandsIgnoreEarlierUnitState : Obligations.AeadCommandsIgnoreEarlierUnitState := by
  intro f hform i hi s t ks mac hf hexec hend
  have hrow := aeadRow_of_mem hform
  obtain ⟨hchecks, rfl⟩ := admitted_of_end hf hexec hend
  obtain ⟨hsameChecks, hsameEffect⟩ : checksOf i (s.withUnits ks mac) = checksOf i s
      ∧ effectOf i (s.withUnits ks mac) = effectOf i s := by
    simp only [List.mem_cons, List.not_mem_nil, or_false] at hi
    rcases hi with rfl | rfl | rfl | rfl
    · rw [hrow.checks_seal, hrow.checks_seal, hrow.effect_seal, hrow.effect_seal]
      exact ⟨rfl, sealEffect_withUnits ..⟩
    · rw [hrow.checks_sealDet, hrow.checks_sealDet, hrow.effect_sealDet, hrow.effect_sealDet]
      exact ⟨rfl, sealDetEffect_withUnits ..⟩
    · rw [hrow.checks_open, hrow.checks_open, hrow.effect_open, hrow.effect_open]
      exact ⟨rfl, finishOpen_withUnits ..⟩
    · rw [hrow.checks_openDet, hrow.checks_openDet, hrow.effect_openDet, hrow.effect_openDet]
      exact ⟨rfl, finishOpen_withUnits ..⟩
  rw [← hsameEffect]
  exact exec_admitted hf (hsameChecks ▸ hchecks)

/-! ### Agreements between the commands (rule R163) -/

/-- Settles O53: both commands write the bytes of one computation. -/
theorem detachedSealIsCombinedSealSplit : Obligations.DetachedSealIsCombinedSealSplit := by
  intro f hform s t u hf hm hseal hsealOk hdet hdetOk
  have hrow := aeadRow_of_mem hform
  obtain ⟨-, rfl⟩ := admitted_of_ok hf hseal hsealOk
  obtain ⟨hdetChecks, rfl⟩ := admitted_of_ok hf hdet hdetOk
  rw [hrow.checks_sealDet, sealDetChecks_hold] at hdetChecks
  obtain ⟨-, -, -, -, -, -, -, hdstTag⟩ := hdetChecks
  rw [hrow.effect_seal, hrow.effect_sealDet]
  obtain ⟨hct, htag, -⟩ := sealDetEffect_bytes f.1 hm hdstTag
  obtain ⟨hcombined, -⟩ := writesExactly_writeBytes hm (sealEffect_dmem_append f.1 s)
  have hlen := sealed_ct_length f.1 s
  simp only [List.length_append, sealed_ct_length, sealed_tag_length] at hcombined
  refine ⟨fun i hi => ?_, fun i hi => ?_⟩
  · rw [hct i hi, hcombined i (by omega), List.getD_append _ _ _ _ (by omega)]
  · rw [htag i hi, Nat.add_assoc, hcombined (s.len.toNat + i) (by omega),
      List.getD_append_right _ _ _ _ (by omega), hlen, Nat.add_sub_cancel_left]

/-- The state AEAD_SEAL on `s` leaves with DMEM `m`, and the operands with which AEAD_OPEN takes what it wrote at `DST`. -/
abbrev State.reopening (s : State) (m : Memory) (d c : Word) : State :=
  { s.UnitsWiped with dmem := m, err := .ok, vok := false, src := s.dst, len := s.len + 16, dst := d, dcap := c }

/-- What AEAD_SEAL left at `DST` opens to the plaintext: the associated data lies apart from it. -/
theorem opened_reopening (alg : Alg) {s : State} {m : Memory} (hm : s.MemOk)
    (hwritten : m = s.dmem.writeBytes s.dst.toNat ((sealed alg s).1 ++ (sealed alg s).2))
    (hcap : s.len.toNat + 16 ≤ s.dcap.toNat) (hadDst : Apart s.ad.toNat s.adlen.toNat s.dst.toNat (s.len.toNat + 16))
    (d c : Word) : opened alg (s.reopening m d c) = some (readRegion (srcRegion s) s) := by
  have hsorted := Memory.wf_sorted hm
  have hct := sealed_ct_length alg s
  have hbytes : ((sealed alg s).1 ++ (sealed alg s).2).length = s.len.toNat + 16 := by simp
  have hinput : m.readBytes s.dst.toNat (s.len.toNat + 16) = (sealed alg s).1 ++ (sealed alg s).2 := by
    rw [hwritten, ← hbytes, Memory.readBytes_writeBytes_same _ _ hsorted]
  have had : m.readBytes s.ad.toNat s.adlen.toNat = readRegion (adRegion s) s := by
    simp only [Apart] at hadDst
    rw [hwritten, Memory.readBytes_writeBytes_apart _ _ _ _ hsorted (by omega)]
    rfl
  have hlen : (s.len + 16).toNat = s.len.toNat + 16 := by bv_omega
  calc opened alg (s.reopening m d c)
      = aeadOpenBytes s.cfg alg s.key (nonceB s) (m.readBytes s.ad.toNat s.adlen.toNat)
          ((m.readBytes s.dst.toNat (s.len + 16).toNat).take ((s.len + 16).toNat - 16))
          ((m.readBytes s.dst.toNat (s.len + 16).toNat).drop ((s.len + 16).toNat - 16)) := rfl
    _ = aeadOpenBytes s.cfg alg s.key (nonceB s) (readRegion (adRegion s) s) (sealed alg s).1 (sealed alg s).2 := by
        rw [had, hlen, Nat.add_sub_cancel, hinput, List.take_left' hct, List.drop_left' hct]
    _ = some (readRegion (srcRegion s) s) := aeadOpenBytes_aeadSealBytes ..

/-- Settles O52: the open command reads back the sealed bytes, and writes the plaintext they open to. -/
theorem openOfSealGivesThePlaintextBack : Obligations.OpenOfSealGivesThePlaintextBack := by
  intro f hform s t v d c hf _ hm hseal hsealOk hopen hend
  have hrow := aeadRow_of_mem hform
  obtain ⟨hsealChecks, rfl⟩ := admitted_of_ok hf hseal hsealOk
  rw [hrow.checks_seal] at hsealChecks
  obtain ⟨-, -, hcap, -, -, hadDst⟩ := (sealChecks_hold f.1 s).1 hsealChecks
  have hwf := sealEffect_wf hm hsealChecks
  have hwritten := sealEffect_dmem_append f.1 s
  rw [hrow.effect_seal, sealEffect_frame] at hopen
  generalize (sealEffect f.1 s).dmem = m at hopen hwf hwritten
  obtain ⟨-, rfl⟩ := admitted_of_end (s := s.reopening m d c) hf hopen hend
  rw [hrow.effect_open, opened_reopening f.1 hm hwritten hcap hadDst]
  obtain ⟨hplain, -⟩ := writesExactly_writeBytes (s := s.reopening m d c) hwf
    (finishOpen_dmem (some (readRegion (srcRegion s) s)) _)
  refine ⟨rfl, rfl, fun i hi => ?_⟩
  rw [hplain i (by simpa using hi)]
  exact Memory.readBytes_getD _ _ _ _ hi

end Sys2Proof.Machine
end

section
/-! PROOFS. What SecretStream computes (45_secretstream.md rules R177 to R182, R187): when Push and Pull succeed and with what, and
the chunk counter. -/

namespace Sys2Proof.Machine

/-! ### Push and Pull (rules R179, R180) -/

/-- Ciphertext and tag of a chunk sealed under a record (rule R179 (3)). -/
abbrev ssSealed (cfg : Config) (ss : SsState) (ad pt : List Byte) : List Byte × List Byte :=
  aeadSealBytes cfg .chacha20Ietf (keyWords ss.k.toList) (ssNonce ss) ad pt

/-- What a chunk opens to under a record, its last 16 bytes being the tag (rule R180 (3)). -/
abbrev ssOpened (cfg : Config) (ss : SsState) (ad chunk : List Byte) : Option (List Byte) :=
  aeadOpenBytes cfg .chacha20Ietf (keyWords ss.k.toList) (ssNonce ss) ad (chunk.take (chunk.length - 16))
    (chunk.drop (chunk.length - 16))

theorem ssSealed_length (cfg : Config) (ss : SsState) (ad pt : List Byte) :
    (ssSealed cfg ss ad pt).1.length = pt.length ∧ (ssSealed cfg ss ad pt).2.length = 16 := by
  simp [aeadSealBytes_eq]

/-- Push succeeds in phase Ready with a tag byte of rule R176, and then with the sealed chunk and the record after it. -/
theorem ssPush_eq_ok_iff {cfg : Config} {pt ad chunk : List Byte} {t : Byte} {ss ss' : SsState} :
    ssPush cfg pt ad t ss = .ok (chunk, ss')
      ↔ ss.phase = .ready ∧ t.toNat ≤ 3
        ∧ chunk = (ssSealed cfg ss ad (t :: pt)).1 ++ (ssSealed cfg ss ad (t :: pt)).2
        ∧ ss' = ssSettle t (ssChainUpdate (ssSealed cfg ss ad (t :: pt)).2 t ss) := by
  rw [ssPush]
  split
  next hphase => simp [hphase]
  next hphase =>
    split
    next htag => simp [htag]
    next htag =>
      have hready : ss.phase = .ready := by simpa using hphase
      simp only [hready, Except.ok.injEq, Prod.mk.injEq, true_and, show t.toNat ≤ 3 by omega]
      exact and_congr eq_comm eq_comm

/-- Pull succeeds in phase Ready on a chunk of at least 17 bytes that opens, and then with what it opens to and the record after
it. -/
theorem ssPull_eq_ok_iff {cfg : Config} {chunk ad pt : List Byte} {t : Byte} {ss ss' : SsState} :
    ssPull cfg chunk ad ss = .ok ((pt, t), ss')
      ↔ ss.phase = .ready ∧ 17 ≤ chunk.length ∧ ssOpened cfg ss ad chunk = some (t :: pt)
        ∧ ss' = ssSettle t (ssChainUpdate (chunk.drop (chunk.length - 16)) t ss) := by
  rw [ssPull]
  split
  next hphase => simp [hphase]
  next hphase =>
    have hready : ss.phase = .ready := by simpa using hphase
    split
    next hlen => simp [hlen]
    next hlen =>
      simp only [hready, true_and, show 17 ≤ chunk.length by omega]
      split
      next u us hopen =>
        simp only [ssOpened, hopen, Except.ok.injEq, Prod.mk.injEq, Option.some.injEq, List.cons.injEq]
        constructor <;> rintro ⟨⟨rfl, rfl⟩, rfl⟩ <;> exact ⟨⟨rfl, rfl⟩, rfl⟩
      next hopen => simp [ssOpened, hopen]
      next hopen => simp [ssOpened, hopen]

/-- Settles O55: the chunk splits into the sealed ciphertext and its tag, which open to the message. -/
theorem pullUndoesPush : Obligations.PullUndoesPush := by
  intro cfg pt ad chunk t ss ss' hpush
  obtain ⟨hready, -, rfl, rfl⟩ := ssPush_eq_ok_iff.1 hpush
  obtain ⟨hct, htag⟩ := ssSealed_length cfg ss ad (t :: pt)
  rw [List.length_cons] at hct
  have hlen : ((ssSealed cfg ss ad (t :: pt)).1 ++ (ssSealed cfg ss ad (t :: pt)).2).length = pt.length + 17 := by
    rw [List.length_append, hct, htag]
  have hsplit : pt.length + 17 - 16 = pt.length + 1 := by omega
  refine ⟨hlen, ssPull_eq_ok_iff.2 ⟨hready, by omega, ?_, ?_⟩⟩
  · rw [ssOpened, hlen, hsplit, List.take_left' hct, List.drop_left' hct]
    exact aeadOpenBytes_aeadSealBytes ..
  · rw [hlen, hsplit, List.drop_left' hct]

/-! ### The chunk counter (rules R181, R182) -/

theorem ssSettle_ctr (t : Byte) (ss : SsState) : (ssSettle t ss).ctr = ss.ctr := by
  rw [ssSettle]
  split <;> rfl

theorem ssSettle_epoch (t : Byte) (ss : SsState) : (ssSettle t ss).epoch = ss.epoch := by
  rw [ssSettle]
  split <;> rfl

/-- The counter after a chunk: one further and not 0, or 1 after a ReKey. -/
theorem ssChainUpdate_ctr (mac : List Byte) (t : Byte) (ss : SsState) :
    (ssChainUpdate mac t ss).ctr ≠ 0
      ∧ ((ssChainUpdate mac t ss).ctr = ss.ctr + 1
        ∨ ((ssChainUpdate mac t ss).ctr = 1 ∧ (ssChainUpdate mac t ss).epoch = ss.epoch + 1)) := by
  rw [ssChainUpdate]
  split
  next => exact ⟨by simp [ssReKeyWith], .inr ⟨rfl, rfl⟩⟩
  next hneeds =>
    have hctr : (ssChain mac ss).ctr ≠ 0 := by
      intro hzero
      simp [ssNeedsReKey, hzero] at hneeds
    exact ⟨hctr, .inl rfl⟩

/-- Settles O56: both operations end in `ChainUpdate`, and the phase has no part in the counter. -/
theorem chunkCounterIsNeverLeftAtZero : Obligations.ChunkCounterIsNeverLeftAtZero := by
  refine ⟨fun key header ss hinit => ?_, fun cfg pt ad t ss chunk ss' _ hpush => ?_,
    fun cfg chunk ad ss out ss' _ hpull => ?_⟩
  · rw [ssInit] at hinit
    split at hinit
    · cases hinit
      rfl
    · cases hinit
  · obtain ⟨-, -, -, rfl⟩ := ssPush_eq_ok_iff.1 hpush
    rw [ssSettle_ctr, ssSettle_epoch]
    exact ssChainUpdate_ctr _ t ss
  · obtain ⟨pt, t⟩ := out
    obtain ⟨-, -, -, rfl⟩ := ssPull_eq_ok_iff.1 hpull
    rw [ssSettle_ctr, ssSettle_epoch]
    exact ssChainUpdate_ctr _ t ss

end Sys2Proof.Machine
end

section
/-! PROOFS. SecretStream's sequences on LGC, the common part: scripts keep the invariant, the fields of `STATUS` the host looks at,
the sizes that fit a register, and the state after the `KEY` and `NONCE` lines (30_encoding.md rule R70). -/

namespace Sys2Proof.Machine

/-! ### Scripts -/

theorem runScript_inv {ops : List HostOp} {s t : State} (h : s.Inv) (hrun : runScript ops s = .next t) : t.Inv := by
  induction ops generalizing s with
  | nil => exact (Host.Outcome.next.inj hrun) ▸ h
  | cons op ops ih =>
    obtain ⟨u, hop, hrest⟩ := runScript_cons_next hrun
    exact ih (transact_inv h hop) hrest

theorem Serves.inv {ops : List HostOp} {s t : State} {ws : List Word} (h : Serves ops s t ws) (hs : s.Inv) : t.Inv :=
  runScript_inv hs h.1

/-! ### `STATUS` (rule R17) -/

theorem statusWord_vok (s : State) : (statusWord s).getLsbD 6 = s.vok := by
  obtain ⟨-, -, -, -, -, -, hvok, -⟩ := statusWordHasTheLayoutOfR17 s
  exact hvok

theorem statusWord_err (s : State) : ((statusWord s).extractLsb' 8 8).toNat = s.err.code.toNat := by
  have hflags := (statusFlags s).isLt
  have herr := s.err.code.isLt
  rw [BitVec.extractLsb'_toNat, Nat.shiftRight_eq_div_pow, statusWord_toNat]
  omega

/-! ### Sizes (rule R6) -/

theorem Config.legal_bounds {cfg : Config} (h : cfg.legal = true) : cfg.dmemBytes % 4 = 0 ∧ cfg.dmemBytes ≤ 2 ^ 24 := by
  simp only [Config.legal, Bool.and_eq_true, decide_eq_true_eq] at h
  omega

/-- An offset or a length inside DMEM fits a register. -/
theorem State.Inv.toNat_ofNat {s : State} (h : s.Inv) {a : Nat} (ha : a ≤ s.cfg.dmemBytes) :
    (BitVec.ofNat 32 a).toNat = a := by
  obtain ⟨hlegal, -⟩ := h
  obtain ⟨-, hmax⟩ := Config.legal_bounds hlegal
  rw [BitVec.toNat_ofNat]
  omega

/-! ### DMEM -/

/-- What was written exactly is read back. -/
theorem WritesExactly.readBytes {s t : State} {a : Nat} {v : List Byte} (h : WritesExactly s t a v) :
    t.dmem.readBytes a v.length = v := by
  obtain ⟨hwritten, -⟩ := h
  refine List.ext_getElem (by simp) fun i _ hi => ?_
  rw [Memory.readBytes_getElem]
  simpa [byteAt, List.getD, hi] using hwritten i hi

theorem zeros_getD (n i : Nat) : (zeros n).getD i 0 = 0 := by
  rw [zeros, List.getD_eq_getElem?_getD, List.getElem?_replicate]
  split <;> rfl

/-- Of two writes to one region the second is what is left. -/
theorem WritesExactly.overwrite {s t u : State} {a : Nat} {v w : List Byte} (h : WritesExactly s t a v)
    (h' : WritesExactly t u a w) (hlen : w.length = v.length) : WritesExactly s u a w := by
  obtain ⟨-, hrest⟩ := h
  obtain ⟨hwritten, hrest'⟩ := h'
  exact ⟨hwritten, fun b hb => (hrest' b hb).trans (hrest b (hlen ▸ hb))⟩

/-! ### The staged key and nonce -/

/-- The state after a `KEY` and a `NONCE` line. -/
def State.staged (s : State) (key n : List Byte) : State :=
  { s with
    key := keyWords key
    klen := 32
    nonce := #v[wordAt n 0, wordAt n 1, wordAt n 2, wordAt n 3, wordAt n 4, wordAt n 5]
    nlen := BitVec.ofNat 32 n.length }

theorem serves_staging {s : State} (hf : s.fatal = false) (key n : List Byte) :
    Serves (lineKey key ++ lineNonce n) s (s.staged key n) [] :=
  (serves_lineKey hf key).append (serves_lineNonce (s := { s with key := keyWords key, klen := 32 }) hf n)

/-- The state after a `DST` line. -/
abbrev State.withDst (s : State) (a n : Nat) : State := { s with dst := BitVec.ofNat 32 a, dcap := BitVec.ofNat 32 n }

theorem keyB_staged (s : State) {key : List Byte} (h : key.length = 32) (n : List Byte) : keyB (s.staged key n) = key :=
  bytesOfWords_keyWords key h

theorem nonceB_staged (s : State) (key : List Byte) {n : List Byte} (h : n.length ≤ 24) :
    nonceB (s.staged key n) = n ++ zeros (24 - n.length) :=
  bytesOfWords_nonceWords n h

@[simp] theorem ssNonce_length (ss : SsState) : (ssNonce ss).length = 12 := by simp [ssNonce]

/-- An IETF unit is loaded with the first 12 bytes of a nonce. -/
theorem ksLoad_chacha20Ietf_append (key : Vector Word 8) {n : List Byte} (h : n.length = 12) (pad : List Byte) :
    ksLoad .chacha20Ietf key (n ++ pad) = ksLoad .chacha20Ietf key n := by
  simp only [ksLoad, List.take_left' h, List.take_of_length_le h.le]

/-- The unit IETF commands load under a staged record. -/
theorem ksLoad_staged (s : State) (ss : SsState) :
    ksLoad .chacha20Ietf (keyWords ss.k.toList) (nonceB (s.staged ss.k.toList (ssNonce ss)))
      = ksLoad .chacha20Ietf (keyWords ss.k.toList) (ssNonce ss) := by
  rw [nonceB_staged s _ (by simp), ksLoad_chacha20Ietf_append _ (ssNonce_length ss)]

end Sys2Proof.Machine
end

section
/-! PROOFS. InitPush, InitPull and ReKey on LGC (45_secretstream.md rules R177, R182, R187 (d)). -/

namespace Sys2Proof.Machine

/-! ### Fetching an output -/

/-- `EXPECT` and `GET` after a sequence: the host has `STATUS` and the bytes. -/
theorem Serves.fetch {ops : List HostOp} {s t : State} (h : Serves ops s t []) (hinv : t.Inv) {a n : Nat}
    (hfit : a + n ≤ t.cfg.dmemBytes) :
    ∃ ans vs, Serves (ops ++ lineExpect ++ lineGet a n) s { t with answers := ans } (statusWord t :: vs)
      ∧ bytesOfGet a n vs = t.dmem.readBytes a n := by
  obtain ⟨hlegal, -⟩ := hinv
  obtain ⟨hwords, -⟩ := Config.legal_bounds hlegal
  obtain ⟨vs, hget, hbytes⟩ := (h.append (serves_lineExpect t)).get a n hwords hfit
  exact ⟨_, vs, hget, hbytes⟩

/-- The same with a BUF_WIPE of the bytes fetched, which are those of `(DST, DCAP)`. -/
theorem Serves.fetchAndWipe {ops : List HostOp} {s t : State} (h : Serves ops s t []) (hs : s.Inv) (hf : t.fatal = false)
    {a n : Nat} (hdst : t.dst.toNat = a) (hdcap : t.dcap.toNat = n) (hfit : a + n ≤ t.cfg.dmemBytes) :
    ∃ u vs, Serves (ops ++ lineExpect ++ lineGet a n ++ lineCmd .bufWipe) s u (statusWord t :: vs)
      ∧ u = { t with dmem := u.dmem, answers := u.answers, err := .ok, vok := false }
      ∧ bytesOfGet a n vs = t.dmem.readBytes a n ∧ WritesExactly t u a (zeros n) := by
  subst hdst hdcap
  obtain ⟨ans, vs, hfetch, hbytes⟩ := h.fetch (h.inv hs) hfit
  obtain ⟨-, hmem, -⟩ := hfetch.inv hs
  obtain ⟨-, hwipe⟩ := bufWipeZeroesExactlyItsRegion
  obtain ⟨-, hwipe⟩ := hwipe { t with answers := ans } hf hmem
  obtain ⟨u, hexec, hframe, hzeros⟩ := hwipe (.inr hfit)
  have hserves := hfetch.append (serves_lineCmd hexec)
  rw [List.append_nil] at hserves
  have hans : u.answers = ans := exec_answers hexec
  exact ⟨u, vs, hserves, by rwa [hans], hbytes, hzeros⟩

/-! ### InitPush and InitPull (rule R177) -/

/-- The sequence of rule R177: `STATUS` without an error, the subkey fetched, and zeros left where it stood. -/
theorem serves_ssInitScript (lay : SsLayout) {key header : List Byte} {s : State} (hinv : s.Inv) (hf : s.fatal = false)
    (hconst : s.const = sigmaWords) (hkey : key.length = 32) (hheader : header.length = 24)
    (hfit : lay.scratch + 32 ≤ s.cfg.dmemBytes) :
    ∃ t status ws, Serves (ssInitScript lay key header) s t (status :: ws)
      ∧ (status.extractLsb' 8 8).toNat = 0
      ∧ bytesOfGet lay.scratch 32 ws = hchacha20 key (header.take 16) sigma
      ∧ t.fatal = false ∧ ∀ i, i < 32 → byteAt t (lay.scratch + i) = 0 := by
  let u := (s.staged key header).withDst lay.scratch 32
  have hstage : Serves (lineKey key ++ lineNonce header ++ lineDst lay.scratch 32) s u [] :=
    (serves_staging hf key header).append (serves_lineDst (s := s.staged key header) hf lay.scratch 32)
  obtain ⟨-, hmem, -⟩ := hstage.inv hinv
  have hdst : u.dst.toNat = lay.scratch := hinv.toNat_ofNat (by omega)
  have hdcap : u.dcap.toNat = 32 := rfl
  -- DERIVE writes the subkey
  obtain ⟨-, -, hderive⟩ := deriveWritesTheSubkey
  obtain ⟨-, -, -, -, -, hderive⟩ := hderive u hf hmem (.deriveXchacha20, hchacha20) (by simp)
  obtain ⟨t, hexec, hframe, -, hsub⟩ :=
    hderive rfl (by simp [u, State.staged, hheader]) hconst le_rfl (.inr (by rw [hdst, hdcap]; exact hfit))
  have hread := hsub.readBytes
  have hkeyB : keyB u = key := keyB_staged s hkey header
  have hnonceB : (nonceB u).take 16 = header.take 16 := by
    have hn : nonceB u = header ++ zeros (24 - header.length) := nonceB_staged s key hheader.le
    rw [hn, List.take_append_of_le_length (by omega)]
  simp only [hchacha20_length, hdst, hkeyB, hnonceB] at hread
  -- `EXPECT`, the fetch and BUF_WIPE
  obtain ⟨v, ws, hserves, hend, hbytes, hzeros, -⟩ := (hstage.append (serves_lineCmd hexec)).fetchAndWipe hinv
    (a := lay.scratch) (n := 32) (by rw [hframe]; exact hf) (by rw [hframe]; exact hdst) (by rw [hframe]; exact hdcap)
    (by rw [hframe]; exact hfit)
  refine ⟨v, _, ws, hserves, ?_, hbytes.trans hread, ?_, fun i hi => ?_⟩
  · rw [statusWord_err, hframe]; rfl
  · rw [hend, hframe]; exact hf
  · rw [hzeros i (by simpa using hi), zeros_getD]

/-- Settles O57: the host's record is built from the subkey fetched. -/
theorem initOnLgcComputesTheProtocolState : Obligations.InitOnLgcComputesTheProtocolState := by
  intro lay key header ss s hinv hf hconst hkey hheader hfit
  obtain ⟨t, status, ws, hserves, hstatus, hsub, hfatal, hzeros⟩ :=
    serves_ssInitScript lay hinv hf hconst hkey hheader hfit
  have hrun : ssInitOn lay key header ss s
      = ⟨.ok (), ssInitWith (hchacha20 key (header.take 16) sigma) header, t⟩ := by
    simp only [ssInitOn, hkey, hheader, and_self, if_true, hserves.hostRun, hstatus, hsub]
  rw [hrun]
  exact ⟨rfl, by simp only [ssInit, hkey, hheader, and_self, if_true], hfatal, hzeros⟩

/-! ### ReKey (rules R182, R187 (d)) -/

/-- A unit just loaded is at the start of its stream. -/
theorem ksAt_ksLoad {alg : Alg} (halg : alg ≠ .salsa20) (key : Vector Word 8) (n : List Byte) :
    KsAt (ksLoad alg key n) (ksLoad alg key n) 0 0 := by
  obtain ⟨-, hload, hoff, hwrap, -, hctr⟩ := ksLoad_fresh alg key n
  have hmax : 0 < (ksLoad alg key n).alg.ctrMax := by rw [hload]; cases alg <;> decide
  exact ⟨rfl, rfl, rfl, rfl, hmax, .inl ⟨hmax, by rw [hctr halg]; rfl, hwrap⟩, .inl ⟨rfl, hoff⟩⟩

theorem ksLoad_chacha20Ietf_ctrMax (key : Vector Word 8) (n : List Byte) :
    (ksLoad .chacha20Ietf key n).alg.ctrMax = 2 ^ 32 := rfl

/-- ReKey's keystream is that of rule R20, from block 0. -/
theorem ssReKeyStream_eq (ss : SsState) :
    ssReKeyStream ss = streamBytes (ksLoad .chacha20Ietf (keyWords ss.k.toList) (ssNonce ss)) 0 40 := by
  obtain ⟨hbytes, -⟩ := consumeReturnsTheNextStreamBytes _ _ 0 0 40
    (ksAt_ksLoad (alg := .chacha20Ietf) (by decide) (keyWords ss.k.toList) (ssNonce ss))
    (by rw [ksLoad_chacha20Ietf_ctrMax]; decide)
  simp only [Nat.zero_add] at hbytes
  exact hbytes

/-- The state in which ReKey's KS_STREAM is issued. -/
def State.keyedForReKey (s : State) (lay : SsLayout) (ss : SsState) : State :=
  { (s.staged ss.k.toList (ssNonce ss)).withDst lay.scratch 40 with
    ks := ksLoad .chacha20Ietf (keyWords ss.k.toList) (ssNonce ss)
    err := .ok
    vok := false }

theorem serves_keyedForReKey {s : State} (hf : s.fatal = false) (lay : SsLayout) (ss : SsState) :
    Serves (lineKey ss.k.toList ++ lineNonce (ssNonce ss) ++ lineCmd .ksInitChacha20Ietf ++ lineDst lay.scratch 40) s
      (s.keyedForReKey lay ss) [] := by
  have hinit := exec_ksInit (s := s.staged ss.k.toList (ssNonce ss)) (alg := .chacha20Ietf) hf rfl
    (by simp [State.staged, Alg.nonceBytes])
  have hload : ksLoad .chacha20Ietf (s.staged ss.k.toList (ssNonce ss)).key (nonceB (s.staged ss.k.toList (ssNonce ss)))
      = ksLoad .chacha20Ietf (keyWords ss.k.toList) (ssNonce ss) := ksLoad_staged s ss
  rw [hload] at hinit
  exact ((serves_staging hf _ _).append (serves_lineCmd hinit)).append (serves_lineDst (by exact hf) lay.scratch 40)

/-- The state ReKey leaves, but for DMEM and the host's answers. -/
def State.afterReKey (s : State) (lay : SsLayout) (ss : SsState) (m : Memory) (ans : List Word) : State :=
  { s with
    key := Vector.replicate 8 0
    klen := 32
    nonce := (s.staged ss.k.toList (ssNonce ss)).nonce
    nlen := 12
    dst := BitVec.ofNat 32 lay.scratch
    dcap := 40
    ks := KsState.wiped
    err := .ok
    vok := false
    dmem := m
    answers := ans }

/-- The sequence of rule R182: `STATUS` without an error, the keystream fetched, and zeros left where it stood. -/
theorem serves_ssReKeyScript (lay : SsLayout) (ss : SsState) {s : State} (hinv : s.Inv) (hf : s.fatal = false)
    (hfit : lay.scratch + 40 ≤ s.cfg.dmemBytes) :
    ∃ m ans status ws, Serves (ssReKeyScript lay ss) s (s.afterReKey lay ss m ans) (status :: ws)
      ∧ (status.extractLsb' 8 8).toNat = 0
      ∧ bytesOfGet lay.scratch 40 ws = ssReKeyStream ss
      ∧ WritesExactly s (s.afterReKey lay ss m ans) lay.scratch (zeros 40) := by
  let u := s.keyedForReKey lay ss
  have hkeyed : Serves _ s u [] := serves_keyedForReKey hf lay ss
  obtain ⟨-, hmem, -⟩ := hkeyed.inv hinv
  have hdst : u.dst.toNat = lay.scratch := hinv.toNat_ofNat (by omega)
  have hdcap : u.dcap.toNat = 40 := rfl
  -- KS_STREAM writes the keystream
  have hroom : blocksNeeded u.ks u.dcap.toNat ≤ blocksLeft u.ks :=
    (exhaustionCheckCountsTheBlocksLeft u.ks u.ks 0 0 40 (ksAt_ksLoad (by decide) _ _)).2 (Nat.le_of_ble_eq_true rfl)
  obtain ⟨-, hstream⟩ := ksStreamWritesKeystream
  obtain ⟨-, -, -, hstream⟩ := hstream u hf hmem
  obtain ⟨t, hexec, hframe, -, hwrites⟩ := hstream rfl (.inr (by rw [hdst, hdcap]; exact hfit)) hroom
  rw [hdst, hdcap] at hwrites
  -- `EXPECT`, the fetch and BUF_WIPE
  obtain ⟨v, ws, hserves, hend, hbytes, hzeros⟩ := (hkeyed.append (serves_lineCmd hexec)).fetchAndWipe hinv
    (a := lay.scratch) (n := 40) (by rw [hframe]; exact hf) (by rw [hframe]; exact hdst) (by rw [hframe]; exact hdcap)
    (by rw [hframe]; exact hfit)
  -- KS_WIPE, and the zeroing of the staged key
  have hfv : v.fatal = false := by rw [hend, hframe]; exact hf
  have hwipe : exec .ksWipe v = .next { v with ks := KsState.wiped, err := .ok, vok := false } := exec_pass hfv rfl
  have hall := (hserves.append (serves_lineCmd hwipe)).append (serves_lineZeroKey (by exact hfv))
  have hlast : { v with ks := KsState.wiped, err := .ok, vok := false, key := Vector.replicate 8 0 }
      = s.afterReKey lay ss v.dmem v.answers := by
    rw [hend, hframe]
    simp [u, State.keyedForReKey, State.staged, State.afterReKey]
  simp only [hlast, List.append_nil] at hall
  refine ⟨v.dmem, v.answers, _, ws, hall, ?_, hbytes.trans ?_, ?_⟩
  · rw [statusWord_err, hframe]; rfl
  · have hread := hwrites.readBytes
    rw [consume_length] at hread
    exact hread
  · have hlen : (zeros 40).length = (consume 40 u.ks).1.length := by rw [zeros_length, consume_length]
    exact hwrites.overwrite hzeros hlen

/-- ReKey on LGC ratchets the record, and clears what it put into LGC. -/
theorem ssReKeyOn_eq (lay : SsLayout) (ss : SsState) {s : State} (hinv : s.Inv) (hf : s.fatal = false)
    (hfit : lay.scratch + 40 ≤ s.cfg.dmemBytes) :
    ∃ m ans, ssReKeyOn lay ss s = ⟨.ok (), ssReKeyWith (ssReKeyStream ss) ss, s.afterReKey lay ss m ans⟩
      ∧ WritesExactly s (s.afterReKey lay ss m ans) lay.scratch (zeros 40) := by
  obtain ⟨m, ans, status, ws, hserves, hstatus, hstream, hzeros⟩ := serves_ssReKeyScript lay ss hinv hf hfit
  exact ⟨m, ans, by simp only [ssReKeyOn, hserves.hostRun, hstatus, if_true, hstream], hzeros⟩

/-- The record after ReKey (rule R182), from the keystream of rule R20. -/
theorem ssReKeyWith_ssReKeyStream (ss : SsState) :
    let stream := streamBytes (ksLoad .chacha20Ietf (keyWords ss.k.toList) (ssNonce ss)) 0 40
    (ssReKeyWith (ssReKeyStream ss) ss).k.toList = stream.take 32
      ∧ (ssReKeyWith (ssReKeyStream ss) ss).inonce.toList = xorBytes ss.inonce.toList (stream.drop 32) := by
  intro stream
  rw [ssReKeyStream_eq]
  have hkey : (stream.take 32).length = 32 := by simp [stream]
  have hdrop : (stream.drop 32).length = 8 := by simp [stream]
  have hinner : (xorBytes ss.inonce.toList (stream.drop 32)).length = 8 := by simp [hdrop]
  simp only [ssReKeyWith]
  constructor
  · rw [vecOfList_toList _ _ _ hkey.le, hkey]
    exact List.append_nil _
  · rw [List.take_of_length_le hdrop.le, vecOfList_toList _ _ _ hinner.le, hinner]
    exact List.append_nil _

/-- Settles O60: the record is the protocol's, and the last state is written out in `State.afterReKey`. -/
theorem reKeyOnLgcRatchetsAndClearsTheOldKey : Obligations.ReKeyOnLgcRatchetsAndClearsTheOldKey := by
  intro lay ss s hinv hf hfit
  obtain ⟨m, ans, hrun, hzeros⟩ := ssReKeyOn_eq lay ss hinv hf hfit
  obtain ⟨hkey, hinner⟩ := ssReKeyWith_ssReKeyStream ss
  have hnonce : nonceB (s.staged ss.k.toList (ssNonce ss)) = ssNonce ss ++ zeros 12 :=
    (nonceB_staged s _ (by simp)).trans (by rw [ssNonce_length])
  rw [hrun]
  exact ⟨rfl, hkey, hinner, ⟨rfl, rfl, rfl⟩, rfl, hnonce, hzeros⟩

end Sys2Proof.Machine
end

section
/-! PROOFS. The inputs of Push and Pull on LGC (45_secretstream.md rules R179, R180): the state the host loads them in, and that a
sound layout (20_memory.md rules R44, R45) gives the command the protocol's own bytes. -/

namespace Sys2Proof.Machine

/-! ### The two `PUT`s -/

/-- What a `PUT` of `bs` stores: the bytes, filled up with zeros to whole words (rule R70). -/
def putBytes (bs : List Byte) : List Byte := bs ++ zeros (4 * ((bs.length + 3) / 4) - bs.length)

theorem putBytes_length (bs : List Byte) : (putBytes bs).length = 4 * ((bs.length + 3) / 4) := by
  simp [putBytes]
  omega

/-- DMEM after the message and the associated data were `PUT`. -/
def Memory.withInputs (m : Memory) (lay : SsLayout) (msg ad : List Byte) : Memory :=
  (m.writeBytes lay.msg (putBytes msg)).writeBytes lay.ad (putBytes ad)

theorem Memory.readBytes_writeBytes_putBytes {m : Memory} (a : Nat) (bs : List Byte)
    (hm : m.Pairwise (fun p q => p.1 < q.1)) : (m.writeBytes a (putBytes bs)).readBytes a bs.length = bs := by
  have hread := Memory.readBytes_writeBytes_same a (putBytes bs) hm
  have hlen : bs.length ≤ (putBytes bs).length := by simp [putBytes]
  rw [← Memory.readBytes_take _ _ _ _ hlen, hread]
  exact List.take_left

/-- The state Push's seal and Pull's open are issued in: key and nonce staged, the inputs in DMEM, the operands set. -/
def State.loaded (s : State) (lay : SsLayout) (ss : SsState) (msg ad : List Byte) (k : Nat) : State :=
  { (s.staged ss.k.toList (ssNonce ss)).withDst lay.out k with
    dmem := s.dmem.withInputs lay msg ad
    src := BitVec.ofNat 32 lay.msg
    len := BitVec.ofNat 32 msg.length
    ad := BitVec.ofNat 32 lay.ad
    adlen := BitVec.ofNat 32 ad.length }

/-- The setup of the staged record (rule R153). -/
theorem aeadSetup_loaded (s : State) (lay : SsLayout) (ss : SsState) (msg ad : List Byte) (k : Nat) :
    aeadSetup .chacha20Ietf (s.loaded lay ss msg ad k).key
        (nonceB (s.loaded lay ss msg ad k))
      = aeadSetup .chacha20Ietf (keyWords ss.k.toList) (ssNonce ss) := by
  have hload : ksLoad .chacha20Ietf (s.loaded lay ss msg ad k).key
      (nonceB (s.loaded lay ss msg ad k))
        = ksLoad .chacha20Ietf (keyWords ss.k.toList) (ssNonce ss) := ksLoad_staged s ss
  rw [aeadSetup_eq, aeadSetup_eq, hload]

section
variable {lay : SsLayout} {s : State} {msg ad : List Byte} {k : Nat} (hinv : s.Inv)
  (hsound : lay.Sound s msg.length ad.length k)
include hinv hsound

/-- Both `PUT`s stand at word offsets inside DMEM, the padding too. -/
theorem puts_fit :
    (lay.msg % 4 = 0 ∧ lay.msg + 4 * ((msg.length + 3) / 4) ≤ s.cfg.dmemBytes)
      ∧ (ad = [] ∨ lay.ad % 4 = 0 ∧ lay.ad + 4 * ((ad.length + 3) / 4) ≤ s.cfg.dmemBytes) := by
  obtain ⟨hlegal, -⟩ := hinv
  obtain ⟨hwords, -⟩ := Config.legal_bounds hlegal
  obtain ⟨hmsg, hmsgFit, had, -⟩ := hsound
  refine ⟨⟨hmsg, by omega⟩, had.imp List.eq_nil_of_length_eq_zero fun ⟨hadWord, hadFit⟩ => ⟨hadWord, by omega⟩⟩

theorem serves_puts (hf : s.fatal = false) :
    Serves (linePut lay.msg msg ++ linePut lay.ad ad) s { s with dmem := s.dmem.withInputs lay msg ad } [] := by
  obtain ⟨hmsg, had⟩ := puts_fit hinv hsound
  exact (serves_linePut hf lay.msg msg (.inr hmsg)).append (serves_linePut (by exact hf) lay.ad ad had)

theorem withInputs_wf : Memory.wf s.cfg.dmemBytes (s.dmem.withInputs lay msg ad) = true := by
  obtain ⟨⟨-, hmsg⟩, had⟩ := puts_fit hinv hsound
  obtain ⟨-, hmem, -⟩ := hinv
  have hfirst := Memory.wf_writeBytes (v := putBytes msg) (.inr (by rwa [putBytes_length])) hmem
  refine Memory.wf_writeBytes (had.imp ?_ fun ⟨_, hfit⟩ => by rwa [putBytes_length]) hfirst
  rintro rfl
  rfl

/-- Both inputs are read back: the words of the associated data stand off the message. -/
theorem readBytes_withInputs :
    (s.dmem.withInputs lay msg ad).readBytes lay.msg msg.length = msg
      ∧ (s.dmem.withInputs lay msg ad).readBytes lay.ad ad.length = ad := by
  obtain ⟨-, hmem, -⟩ := hinv
  obtain ⟨-, -, -, hapart, -⟩ := hsound
  have hsorted := Memory.wf_sorted hmem
  have hfirst := Memory.sorted_writeBytes lay.msg (putBytes msg) hsorted
  constructor
  · rw [Memory.withInputs, Memory.readBytes_writeBytes_apart _ _ _ _ hfirst (by rw [putBytes_length]; exact hapart)]
    exact Memory.readBytes_writeBytes_putBytes lay.msg msg hsorted
  · exact Memory.readBytes_writeBytes_putBytes lay.ad ad hfirst

/-- The operands of the loaded state are the layout's numbers. -/
theorem loaded_operands (ss : SsState) :
    (s.loaded lay ss msg ad k).src.toNat = lay.msg ∧ (s.loaded lay ss msg ad k).len.toNat = msg.length
      ∧ (ad = [] ∨ (s.loaded lay ss msg ad k).ad.toNat = lay.ad)
      ∧ (s.loaded lay ss msg ad k).adlen.toNat = ad.length
      ∧ (s.loaded lay ss msg ad k).dst.toNat = lay.out ∧ (s.loaded lay ss msg ad k).dcap.toNat = k := by
  obtain ⟨-, hmsg, had, -, hout, -⟩ := hsound
  have hnum : ∀ a, a ≤ s.cfg.dmemBytes → (BitVec.ofNat 32 a).toNat = a := fun a => hinv.toNat_ofNat
  exact ⟨hnum _ (by omega), hnum _ (by omega),
    had.imp List.eq_nil_of_length_eq_zero fun ⟨_, hfit⟩ => hnum _ (by omega), hnum _ (by omega), hnum _ (by omega),
    hnum _ (by omega)⟩

theorem readRegion_loaded (ss : SsState) :
    readRegion (srcRegion (s.loaded lay ss msg ad k)) (s.loaded lay ss msg ad k) = msg
      ∧ readRegion (adRegion (s.loaded lay ss msg ad k)) (s.loaded lay ss msg ad k) = ad := by
  obtain ⟨hsrc, hlen, had, hadlen, -, -⟩ := loaded_operands hinv hsound ss
  obtain ⟨hmsgRead, hadRead⟩ := readBytes_withInputs hinv hsound
  simp only [readRegion, srcRegion_off, srcRegion_len, adRegion_off, adRegion_len, hsrc, hlen, hadlen]
  refine ⟨hmsgRead, ?_⟩
  rcases had with rfl | had
  · rfl
  · rw [had]
    exact hadRead

/-- Range and overlap rules hold for the loaded operands. -/
theorem loaded_regions (ss : SsState) :
    (s.loaded lay ss msg ad k).AeadInRange ∧ (s.loaded lay ss msg ad k).AeadClear k := by
  obtain ⟨hsrc, hlen, had, hadlen, hdst, hdcap⟩ := loaded_operands hinv hsound ss
  obtain ⟨-, hmsgFit, hadFit, -, houtFit, hmsgOut, hadOut, -⟩ := hsound
  simp only [State.AeadInRange, State.AeadClear, ← BitVec.toNat_inj, hsrc, hlen, hadlen, hdst, hdcap]
  refine ⟨⟨.inr hmsgFit, ?_, .inr houtFit⟩, hmsgOut, ?_⟩
  · rcases had with rfl | had
    · exact .inl rfl
    · rw [had]
      exact hadFit.imp_right And.right
  · rcases had with rfl | had
    · exact .inl rfl
    · rwa [had]

/-- What the seal command computes in a loaded state is what Push computes. -/
theorem sealed_loaded (ss : SsState) :
    sealed .chacha20Ietf (s.loaded lay ss msg ad k) = ssSealed s.cfg ss ad msg := by
  obtain ⟨hmsgRead, hadRead⟩ := readRegion_loaded hinv hsound ss
  rw [sealed, hmsgRead, hadRead, sealStaged, aeadSealBytes_eq, ssSealed, aeadSealBytes_eq, aeadSetup_loaded]
  rfl

/-- What the open command computes in a loaded state is what Pull computes. -/
theorem opened_loaded (ss : SsState) :
    opened .chacha20Ietf (s.loaded lay ss msg ad k) = ssOpened s.cfg ss ad msg := by
  obtain ⟨hmsgRead, hadRead⟩ := readRegion_loaded hinv hsound ss
  obtain ⟨-, hlen, -⟩ := loaded_operands hinv hsound ss
  rw [opened, hmsgRead, hadRead, hlen, openStaged, aeadOpenBytes_eq, ssOpened, aeadOpenBytes_eq, aeadSetup_loaded]
  rfl

/-- The lines of Push and Pull before the command. -/
theorem serves_loading (hf : s.fatal = false) (ss : SsState) :
    Serves (lineKey ss.k.toList ++ lineNonce (ssNonce ss) ++ linePut lay.msg msg ++ linePut lay.ad ad
      ++ lineSrc lay.msg msg.length ++ lineAd lay.ad ad.length ++ lineDst lay.out k) s (s.loaded lay ss msg ad k) [] := by
  have hstage := serves_staging hf ss.k.toList (ssNonce ss)
  have hputs : Serves (linePut lay.msg msg ++ linePut lay.ad ad) (s.staged ss.k.toList (ssNonce ss)) _ [] :=
    serves_puts (hstage.inv hinv) hsound hf
  have h := (((hstage.append hputs).append (serves_lineSrc (by exact hf) lay.msg msg.length)).append
    (serves_lineAd (by exact hf) lay.ad ad.length)).append (serves_lineDst (by exact hf) lay.out k)
  rw [← List.append_assoc] at h
  exact h

end

end Sys2Proof.Machine
end

section
/-! PROOFS. Push and Pull on LGC (45_secretstream.md rules R179 to R181, R183, R185, R186, R188): the seal or open command on the
loaded state, the chaining of the record, and what the host is left with. -/

namespace Sys2Proof.Machine

/-! ### The two commands (rules R179, R180) -/

theorem mem_aeadForms_chacha20Ietf :
    (Alg.chacha20Ietf, 12, Instr.aeadSealChacha20Ietf, Instr.aeadSealDetChacha20Ietf, Instr.aeadOpenChacha20Ietf,
      Instr.aeadOpenDetChacha20Ietf) ∈ aeadForms := by
  decide

/-- A state with both units wiped, outside the fatal state (rule R188). -/
abbrev State.Idle (s : State) : Prop := s.fatal = false ∧ s.ks = KsState.wiped ∧ s.mac = MacState.wiped

/-- Push's seal is admitted, and the chunk stands at the output. -/
theorem exec_seal_loaded {lay : SsLayout} {s : State} {msg ad : List Byte} (hinv : s.Inv) (hf : s.fatal = false)
    (hsound : lay.Sound s msg.length ad.length (msg.length + 16)) (ss : SsState) :
    ∃ t, exec .aeadSealChacha20Ietf (s.loaded lay ss msg ad (msg.length + 16)) = .next t
      ∧ t.Idle ∧ t.cfg = s.cfg ∧ t.err = .ok
      ∧ t.dmem.readBytes lay.out (msg.length + 16) = (ssSealed s.cfg ss ad msg).1 ++ (ssSealed s.cfg ss ad msg).2 := by
  obtain ⟨-, hlen, -, -, hdst, hdcap⟩ := loaded_operands hinv hsound ss
  obtain ⟨hrange, hclear⟩ := loaded_regions hinv hsound ss
  have hchecks := (sealChecks_hold .chacha20Ietf _).2
    ⟨rfl, by simp [State.loaded, State.staged, Alg.nonceBytes], by rw [hlen, hdcap], hrange, by rwa [hlen]⟩
  have hframe := sealEffect_frame .chacha20Ietf (s.loaded lay ss msg ad (msg.length + 16))
  have hbytes : ((ssSealed s.cfg ss ad msg).1 ++ (ssSealed s.cfg ss ad msg).2).length = msg.length + 16 := by
    obtain ⟨hct, htag⟩ := ssSealed_length s.cfg ss ad msg
    rw [List.length_append, hct, htag]
  refine ⟨_, exec_seal_admitted mem_aeadForms_chacha20Ietf hf hchecks, ?_, ?_, ?_, ?_⟩
  · rw [hframe]; exact ⟨hf, rfl, rfl⟩
  · rw [hframe]; rfl
  · rw [hframe]
  · rw [sealEffect_dmem_append, sealed_loaded hinv hsound ss, hdst, ← hbytes]
    exact Memory.readBytes_writeBytes_same _ _ (Memory.wf_sorted (withInputs_wf hinv hsound))

/-- Pull's open is admitted, and ends as what Pull computes opens or not. -/
theorem exec_open_loaded {lay : SsLayout} {s : State} {chunk ad : List Byte} (hinv : s.Inv) (hf : s.fatal = false)
    (hlen : 17 ≤ chunk.length) (hsound : lay.Sound s chunk.length ad.length (chunk.length - 16)) (ss : SsState) :
    exec .aeadOpenChacha20Ietf (s.loaded lay ss chunk ad (chunk.length - 16))
      = .next (finishOpen (ssOpened s.cfg ss ad chunk) (s.loaded lay ss chunk ad (chunk.length - 16))) := by
  rw [← opened_loaded hinv hsound ss]
  obtain ⟨-, hlenU, -, -, -, hdcap⟩ := loaded_operands hinv hsound ss
  obtain ⟨hrange, hclear⟩ := loaded_regions hinv hsound ss
  have hchecks := (openChecks_hold .chacha20Ietf _).2
    ⟨rfl, by simp [State.loaded, State.staged, Alg.nonceBytes], by omega, by rw [hlenU, hdcap], hrange, by rwa [hlenU]⟩
  exact exec_open_admitted mem_aeadForms_chacha20Ietf hf hchecks

/-! ### The record after a chunk (rule R181) -/

/-- Chaining on LGC is the protocol's, and leaves the units wiped. -/
theorem ssChainUpdateOn_eq (lay : SsLayout) (mac : List Byte) (t : Byte) (ss : SsState) {s : State} (hinv : s.Inv)
    (hidle : s.Idle) (hfit : lay.scratch + 40 ≤ s.cfg.dmemBytes) :
    ∃ s' : State, ssChainUpdateOn lay mac t ss s = ⟨.ok (), ssSettle t (ssChainUpdate mac t ss), s'⟩ ∧ s'.Idle := by
  obtain ⟨hf, hks, hmac⟩ := hidle
  simp only [ssChainUpdateOn, ssChainUpdate]
  split
  · obtain ⟨m, ans, hrekey, -⟩ := ssReKeyOn_eq lay (ssChain mac ss) hinv hf hfit
    rw [hrekey]
    exact ⟨_, rfl, hf, rfl, hmac⟩
  · exact ⟨s, rfl, hf, hks, hmac⟩

/-! ### Push (rule R179) -/

/-- Push's sequence: `STATUS` without an error, and the chunk fetched. -/
theorem serves_ssPushScript {lay : SsLayout} {s : State} {pt ad : List Byte} (hinv : s.Inv) (hf : s.fatal = false)
    (hsound : lay.Sound s (1 + pt.length) ad.length (pt.length + 17)) (t : Byte) (ss : SsState) :
    ∃ (u : State) (status : Word) (ws : List Word), Serves (ssPushScript lay pt ad t ss) s u (status :: ws)
      ∧ u.Idle ∧ u.cfg = s.cfg ∧ (status.extractLsb' 8 8).toNat = 0
      ∧ bytesOfGet lay.out (pt.length + 17) ws
        = (ssSealed s.cfg ss ad (t :: pt)).1 ++ (ssSealed s.cfg ss ad (t :: pt)).2 := by
  have hmsg : 1 + pt.length = (t :: pt).length := Nat.add_comm ..
  rw [hmsg] at hsound
  obtain ⟨u, hexec, hidle, hcfg, herr, hchunk⟩ := exec_seal_loaded hinv hf hsound ss
  have hcmd := (serves_loading hinv hsound hf ss).append (serves_lineCmd hexec)
  obtain ⟨-, -, -, -, hout, -⟩ := hsound
  obtain ⟨ans, ws, hserves, hbytes⟩ := hcmd.fetch (hcmd.inv hinv) (a := lay.out) (n := pt.length + 17) (hcfg ▸ hout)
  rw [← hmsg] at hserves
  exact ⟨{ u with answers := ans }, _, ws, hserves, hidle, hcfg, by rw [statusWord_err, herr]; rfl, hbytes.trans hchunk⟩

/-- A Push that the protocol admits, on LGC. -/
theorem ssPushOn_eq {lay : SsLayout} {s : State} {pt ad chunk : List Byte} {t : Byte} {ss ss' : SsState} (hinv : s.Inv)
    (hf : s.fatal = false) (hsound : lay.Sound s (1 + pt.length) ad.length (pt.length + 17))
    (hpush : ssPush s.cfg pt ad t ss = .ok (chunk, ss')) :
    ∃ u : State, ssPushOn lay pt ad t ss s = ⟨.ok chunk, ss', u⟩ ∧ u.Idle := by
  obtain ⟨hready, htag, rfl, rfl⟩ := ssPush_eq_ok_iff.1 hpush
  obtain ⟨hct, -⟩ := ssSealed_length s.cfg ss ad (t :: pt)
  rw [List.length_cons] at hct
  obtain ⟨u, status, ws, hserves, hidle, hcfg, hstatus, hchunk⟩ := serves_ssPushScript hinv hf hsound t ss
  obtain ⟨-, -, -, -, -, -, -, hscratch⟩ := hsound
  obtain ⟨u', hchain, hidle'⟩ := ssChainUpdateOn_eq lay (ssSealed s.cfg ss ad (t :: pt)).2 t ss (hserves.inv hinv) hidle
    (hcfg ▸ hscratch)
  refine ⟨u', ?_, hidle'⟩
  simp only [ssPushOn, hready, ne_eq, not_true_eq_false, if_false, Nat.not_lt.2 htag, hserves.hostRun, hstatus, if_true,
    hchunk]
  rw [List.drop_left' hct, hchain]

/-- What the host refuses by itself never reaches LGC (rules R183, R186). -/
theorem ssPushOn_error {cfg : Config} {pt ad : List Byte} {t : Byte} {ss : SsState} {e : SsError}
    (h : ssPush cfg pt ad t ss = .error e) (lay : SsLayout) (s : State) :
    ssPushOn lay pt ad t ss s = ⟨.error e, ss, s⟩ := by
  rw [ssPush] at h
  rw [ssPushOn]
  split at h
  next hphase => rw [if_pos hphase, Except.error.inj h]
  next hphase =>
    split at h
    next htag => rw [if_neg hphase, if_pos htag, Except.error.inj h]
    next => cases h

/-! ### Pull (rules R180, R185) -/

/-- Pull's sequence up to the `STATUS` read ends as the open of the chunk does. -/
theorem serves_ssPullScript {lay : SsLayout} {s : State} {chunk ad : List Byte} (hinv : s.Inv) (hf : s.fatal = false)
    (hlen : 17 ≤ chunk.length) (hsound : lay.Sound s chunk.length ad.length (chunk.length - 16)) (ss : SsState) :
    ∃ v : State, Serves (ssPullScript lay chunk ad ss) s v [statusWord v]
      ∧ v = { finishOpen (ssOpened s.cfg ss ad chunk) (s.loaded lay ss chunk ad (chunk.length - 16)) with
          answers := v.answers } :=
  ⟨_, ((serves_loading hinv hsound hf ss).append (serves_lineCmd (exec_open_loaded hinv hf hlen hsound ss))).append
    (serves_lineExpect _), rfl⟩

/-- What an open releases is as long as the ciphertext. -/
theorem ssOpened_length {cfg : Config} {ss : SsState} {ad chunk p : List Byte} (h : ssOpened cfg ss ad chunk = some p) :
    p.length = chunk.length - 16 := by
  rw [ssOpened, aeadOpenBytes_eq] at h
  split at h
  · rw [← Option.some.inj h, aeadCrypt_length, List.length_take]
    omega
  · cases h

/-- After a chunk that opens, `VOK` is set and the host fetches the plaintext. -/
theorem serves_ssPullScript_opened {lay : SsLayout} {s : State} {chunk ad p : List Byte} {ss : SsState} (hinv : s.Inv)
    (hf : s.fatal = false) (hlen : 17 ≤ chunk.length)
    (hsound : lay.Sound s chunk.length ad.length (chunk.length - 16)) (hopen : ssOpened s.cfg ss ad chunk = some p) :
    ∃ (v : State) (ans ws : List Word), Serves (ssPullScript lay chunk ad ss) s v [statusWord v]
      ∧ v.vok = true ∧ v.Idle ∧ v.cfg = s.cfg
      ∧ Serves (lineGet lay.out (chunk.length - 16)) v { v with answers := ans } ws
      ∧ bytesOfGet lay.out (chunk.length - 16) ws = p := by
  obtain ⟨v, hserves, hend⟩ := serves_ssPullScript hinv hf hlen hsound ss
  rw [hopen] at hend
  have hcfg : v.cfg = s.cfg := by rw [hend]; rfl
  have hread : v.dmem.readBytes lay.out (chunk.length - 16) = p := by
    obtain ⟨-, -, -, -, hdst, -⟩ := loaded_operands hinv hsound ss
    rw [hend, ← hdst, ← ssOpened_length hopen]
    exact Memory.readBytes_writeBytes_same _ _ (Memory.wf_sorted (withInputs_wf hinv hsound))
  obtain ⟨hlegal, -⟩ := hinv
  obtain ⟨hwords, -⟩ := Config.legal_bounds hlegal
  obtain ⟨-, -, -, -, hout, -⟩ := hsound
  obtain ⟨ws, hget, hbytes⟩ := serves_lineGet v lay.out (chunk.length - 16) (hcfg ▸ hwords) (hcfg ▸ hout)
  exact ⟨v, _, ws, hserves, by rw [hend]; rfl, by rw [hend]; exact ⟨hf, rfl, rfl⟩, hcfg, hget, hbytes.trans hread⟩

/-- A Pull that the protocol admits, on LGC. -/
theorem ssPullOn_eq {lay : SsLayout} {s : State} {chunk ad pt : List Byte} {t : Byte} {ss ss' : SsState} (hinv : s.Inv)
    (hf : s.fatal = false) (hsound : lay.Sound s chunk.length ad.length (chunk.length - 16))
    (hpull : ssPull s.cfg chunk ad ss = .ok ((pt, t), ss')) :
    ∃ u : State, ssPullOn lay chunk ad ss s = ⟨.ok (pt, t), ss', u⟩ ∧ u.Idle := by
  obtain ⟨hready, hlen, hopen, rfl⟩ := ssPull_eq_ok_iff.1 hpull
  obtain ⟨v, ans, ws, hserves, hvok, hidle, hcfg, hget, hbytes⟩ := serves_ssPullScript_opened hinv hf hlen hsound hopen
  obtain ⟨-, -, -, -, -, -, -, hscratch⟩ := hsound
  obtain ⟨u, hchain, hidle'⟩ := ssChainUpdateOn_eq lay (chunk.drop (chunk.length - 16)) t ss
    (hget.inv (hserves.inv hinv)) hidle (hcfg ▸ hscratch)
  have hbit : (statusWord v).getLsbD 6 = true := (statusWord_vok v).trans hvok
  refine ⟨u, ?_, hidle'⟩
  simp only [ssPullOn, hready, ne_eq, not_true_eq_false, if_false, Nat.not_lt.2 hlen, hserves.hostRun, hbit, if_true,
    hget.hostRun, hbytes, hchain]

/-- What the host refuses by itself never reaches LGC (rules R183, R185 (a)). -/
theorem ssPullOn_error {cfg : Config} {chunk ad : List Byte} {ss : SsState} {e : SsError}
    (hown : ss.phase ≠ .ready ∨ chunk.length < 17) (h : ssPull cfg chunk ad ss = .error e) (lay : SsLayout) (s : State) :
    ssPullOn lay chunk ad ss s = ⟨.error e, ss, s⟩ := by
  rw [ssPull] at h
  rw [ssPullOn]
  split at h
  next hphase => rw [if_pos hphase, Except.error.inj h]
  next hphase =>
    have hshort := hown.resolve_left hphase
    rw [if_pos hshort] at h
    rw [if_neg hphase, if_pos hshort, Except.error.inj h]

/-- Settles O59: the four cases, admitted or refused, of the two operations. -/
theorem pushAndPullOnLgcComputeTheProtocol : Obligations.PushAndPullOnLgcComputeTheProtocol := by
  intro lay ss s hinv hf
  refine ⟨fun pt ad t => ⟨fun e h => ssPushOn_error h lay s, fun chunk ss' hsound hpush => ?_⟩,
    fun chunk ad => ⟨fun e hown h => ssPullOn_error hown h lay s, fun pt t ss' hsound hpull => ?_⟩⟩
  · obtain ⟨u, hrun, hidle⟩ := ssPushOn_eq hinv hf hsound hpush
    rw [hrun]
    exact ⟨rfl, rfl, hidle⟩
  · obtain ⟨u, hrun, hidle⟩ := ssPullOn_eq hinv hf hsound hpull
    rw [hrun]
    exact ⟨rfl, rfl, hidle⟩

/-! ### A forged chunk (rules R180, R185 (b)) -/

/-- ReKey reports LGC's status or a refused transaction, never a forgery. -/
theorem ssReKeyOn_ne_forged (lay : SsLayout) (ss : SsState) (s : State) :
    (ssReKeyOn lay ss s).result ≠ .error .forgedOrCorrupted := by
  rw [ssReKeyOn]
  split
  · simp
  · split <;> simp
  · simp

/-- Chaining fails only where ReKey does. -/
theorem ssChainUpdateOn_ne_forged (lay : SsLayout) (mac : List Byte) (t : Byte) (ss : SsState) (s : State) :
    (ssChainUpdateOn lay mac t ss s).result ≠ .error .forgedOrCorrupted := by
  simp only [ssChainUpdateOn]
  split
  · exact ssReKeyOn_ne_forged lay (ssChain mac ss) s
  · simp

/-- A Pull that ends in a forgery has not chained the record. -/
theorem ssPullOn_forged_ss {lay : SsLayout} {chunk ad : List Byte} {ss : SsState} {s : State}
    (h : (ssPullOn lay chunk ad ss s).result = .error .forgedOrCorrupted) : (ssPullOn lay chunk ad ss s).ss = ss := by
  generalize hrun : ssPullOn lay chunk ad ss s = run at h
  simp only [ssPullOn] at hrun
  -- the host refuses by itself, or LGC refuses a line
  split at hrun
  · exact hrun ▸ rfl
  split at hrun
  · exact hrun ▸ rfl
  split at hrun
  · exact hrun ▸ rfl
  · exact hrun ▸ rfl
  -- `VOK` decides whether the plaintext is fetched
  split at hrun
  case isFalse => split at hrun <;> exact hrun ▸ rfl
  split at hrun
  · exact hrun ▸ rfl
  split at hrun
  · exact hrun ▸ rfl
  -- the record is chained: the error, if any, is ReKey's
  split at hrun
  · simp [← hrun] at h
  next hchain =>
    subst hrun
    cases h
    exact (ssChainUpdateOn_ne_forged _ _ _ _ _ (congrArg SsRun.result hchain)).elim

/-- A chunk whose last 16 bytes are not the tag of the rest does not open. -/
theorem ssOpened_eq_none {cfg : Config} {ss : SsState} {ad chunk : List Byte}
    (h : chunk.drop (chunk.length - 16)
      ≠ aeadTagOf cfg .chacha20Ietf (keyWords ss.k.toList) (ssNonce ss) ad (chunk.take (chunk.length - 16))) :
    ssOpened cfg ss ad chunk = none := by
  rw [ssOpened, aeadOpenBytes_eq, aeadTag_aeadSetup (by decide), if_neg h]

/-- Settles O58: only a chained record differs; and the open of a forged chunk writes nothing after the two `PUT`s. -/
theorem forgedPullLeavesTheRecord : Obligations.ForgedPullLeavesTheRecord := by
  refine ⟨fun lay chunk ad ss s h => ssPullOn_forged_ss h, fun lay chunk ad ss s hinv hf hready hlen hsound htag => ?_⟩
  obtain ⟨v, hserves, hend⟩ := serves_ssPullScript hinv hf hlen hsound ss
  rw [ssOpened_eq_none htag] at hend
  have hvok : (statusWord v).getLsbD 6 = false := (statusWord_vok v).trans (by rw [hend]; rfl)
  have herr : ((statusWord v).extractLsb' 8 8).toNat = 1 := (statusWord_err v).trans (by rw [hend]; rfl)
  have hrun : ssPullOn lay chunk ad ss s = ⟨.error .forgedOrCorrupted, ss, v⟩ := by
    simp only [ssPullOn, hready, ne_eq, not_true_eq_false, if_false, Nat.not_lt.2 hlen, hserves.hostRun, hvok, herr,
      Bool.false_eq_true, if_true]
  obtain ⟨hputs, -⟩ := serves_puts hinv hsound hf
  rw [hrun]
  exact ⟨rfl, rfl, by rw [hend]; exact ⟨rfl, rfl, hf⟩, _, hputs, fun a => by rw [hend]; rfl⟩

end Sys2Proof.Machine
end

section
/-! PROOFS. Events and the fatal state (60_exceptions.md sections 3 and 4): the four ways a command ends outside the fatal state
and what each leaves (rules R206 to R208, R212), and what a step does inside it (rule R209). -/

namespace Sys2Proof.Machine

/-! ### The ends of a command (rules R206 to R208, R212) -/

/-- Every open command can report a forgery. -/
theorem forgedOrCorrupted_mem_eventsOf {i : Instr} (h : isOpen i = true) : Event.error .forgedOrCorrupted ∈ eventsOf i := by
  cases i <;> simp_all [isOpen, eventsOf]

/-- How a command ends outside the fatal state, with the state it leaves: a non-fatal error of a check, a fatal error of a check,
`OK`, or the forgery of an open command. -/
theorem exec_ends {i : Instr} {s t : State} (hf : s.fatal = false) (hexec : exec i s = .next t) :
    (∃ c, Event.error c ∈ eventsOf i ∧ c ≠ .forgedOrCorrupted ∧ t = raiseError c s)
      ∨ (∃ f, Event.fatal f ∈ eventsOf i ∧ t = raiseFatal f s)
      ∨ (t.err = .ok ∧ t.fatal = false)
      ∨ (isOpen i = true ∧ t = { s.UnitsWiped with err := .forgedOrCorrupted, vok := false }) := by
  rcases exec_cases hexec with ⟨h, -⟩ | ⟨-, e, he, rfl⟩ | ⟨-, -, rfl⟩
  · simp [hf] at h
  · obtain ⟨hmem, hforged⟩ := checksOf_event he
    cases e with
    | error c => exact .inl ⟨c, hmem, by simpa using hforged, rfl⟩
    | fatal f => exact .inr (.inl ⟨f, hmem, rfl⟩)
  · obtain ⟨-, -, hfatal, -⟩ := effectOf_frame i s
    rcases effectOf_result i s with ⟨hok, -⟩ | hforged
    · exact .inr (.inr (.inl ⟨hok, hfatal.trans hf⟩))
    · exact .inr (.inr (.inr hforged))

/-- After fatal entry `FATAL` is the one flag set. -/
theorem statusFlags_raiseFatal (f : FatalCode) (s : State) : statusFlags (raiseFatal f s) = 1 := by
  simp only [statusFlags, raiseFatal_vok, raiseFatal_mac, raiseFatal_ks, raiseFatal_fatal]
  decide

/-- `STATUS` after fatal entry (rule R208). -/
theorem statusWord_raiseFatal (f : FatalCode) (s : State) :
    (statusWord (raiseFatal f s)).toNat = 0x0000FF01 + 2 ^ 16 * f.code.toNat := by
  have hmark : (ErrCode.fatalMarker.code).toNat = 0xFF := rfl
  have hflags : (1 : Byte).toNat = 1 := rfl
  rw [statusWord_toNat, statusFlags_raiseFatal, raiseFatal_err, raiseFatal_fcode, hmark, hflags]
  omega

/-- Settles O16: of the four ends only the fatal error of a check is in the fatal state, and its code is one of R212's table. -/
theorem fatalEntryZeroesSecretsAndKeepsMemory : Obligations.FatalEntryZeroesSecretsAndKeepsMemory := by
  intro i s t hf hexec hfatal
  rcases exec_ends hf hexec with ⟨c, -, -, rfl⟩ | ⟨f, hmem, rfl⟩ | ⟨-, h⟩ | ⟨-, rfl⟩
  · simp [hf] at hfatal
  · obtain ⟨-, -, -, hnone⟩ := eventsOf_codes (i := i)
    refine ⟨?_, rfl, statusWord_raiseFatal f s⟩
    rintro rfl
    exact hnone hmem
  · simp [h] at hfatal
  · simp [hf] at hfatal

/-- Settles O17: of the four ends only the non-fatal error of a check has such a code. -/
theorem nonFatalErrorsChangeOnlyErrAndVok : Obligations.NonFatalErrorsChangeOnlyErrAndVok := by
  intro i s t hf hexec hfatal hok hforged
  rcases exec_ends hf hexec with ⟨c, -, -, rfl⟩ | ⟨f, -, rfl⟩ | ⟨h, -⟩ | ⟨-, rfl⟩
  · rfl
  · simp at hfatal
  · exact absurd h hok
  · exact absurd rfl hforged

/-- Settles O18: no check reports a forgery, so it is the end of an open command. -/
theorem forgeryChangesNothingButTheUnits : Obligations.ForgeryChangesNothingButTheUnits := by
  intro i s t hf hexec hforged
  rcases exec_ends hf hexec with ⟨c, -, hc, rfl⟩ | ⟨f, -, rfl⟩ | ⟨h, -⟩ | ⟨hopen, rfl⟩
  · exact absurd hforged hc
  · simp at hforged
  · simp [h] at hforged
  · exact ⟨rfl, (isOpen_iff i).1 hopen⟩

/-- Settles O19: the code each of the four ends leaves is `OK` or stands in the table. -/
theorem commandsRaiseOnlyTheEventsOfTheTable : Obligations.CommandsRaiseOnlyTheEventsOfTheTable := by
  intro i s t hf hexec
  rcases exec_ends hf hexec with ⟨c, hmem, -, rfl⟩ | ⟨f, hmem, rfl⟩ | hok | ⟨hopen, rfl⟩
  · exact .inr (.inl ⟨hmem, hf⟩)
  · exact .inr (.inr ⟨hmem, rfl⟩)
  · exact .inl hok
  · exact .inr (.inl ⟨forgedOrCorrupted_mem_eventsOf hopen, hf⟩)

/-! ### Inside the fatal state (rule R209) -/

/-- In the fatal state a write at any port does nothing, but for the reset value at `RESET`. -/
theorem writePort_of_fatal {s : State} (hf : s.fatal = true) {p : Port} {v : Word} (h : ¬ (p = .reset ∧ v = 0x52535421)) :
    writePort p v s = .next s := by
  rcases writePort_cases p v s with ⟨-, ⟨i, -, hw⟩ | ⟨-, hw⟩⟩ | ⟨hp, hw⟩ | ⟨-, -, hw⟩
  · rw [hw, exec_fatal hf]
  · rw [hw, if_pos hf]
  · rw [hw, if_neg fun hv => h ⟨hp, hv⟩]
  · rw [hw, if_pos hf]

/-- Settles O14: only the offset of `RESET` holds the port where a write does something. -/
theorem fatalStateIgnoresEveryWriteButReset : Obligations.FatalStateIgnoresEveryWriteButReset := by
  intro s off v rest hf ho h
  obtain ⟨-, hreset, -⟩ := portAt_cases s.cfg off
  rw [step_write32 s off v rest ho]
  exact writePort_of_fatal (s := { s with host := rest }) hf fun ⟨hp, hv⟩ => h ⟨hreset hp, hv⟩

/-- What a transaction does in the fatal state: nothing to LGC, or reset. -/
theorem transact_of_fatal {op : HostOp} {s t : State} (hf : s.fatal = true) (ht : transact op s = .next t) :
    t = { s with answers := t.answers } ∨ (op = .reset ∨ op = .write32 0x00C 0x52535421) ∧ t = resetBlock s := by
  rcases transact_cases op s with ⟨off, -, -, h⟩ | ⟨off, v, rfl, -, h⟩ | ⟨rfl, h⟩ | ⟨off, -, -, h⟩ | ⟨off, n, -, h⟩ <;>
    rw [h] at ht
  · cases ht
    exact .inl rfl
  · by_cases hr : portAt s.cfg off = .reset ∧ v = 0x52535421
    · obtain ⟨hp, rfl⟩ := hr
      obtain ⟨-, hreset, -⟩ := portAt_cases s.cfg off
      obtain rfl := hreset hp
      cases ht
      exact .inr ⟨.inr rfl, rfl⟩
    · rw [writePort_of_fatal hf hr] at ht
      cases ht
      exact .inl rfl
  · cases ht
    exact .inr ⟨.inl rfl, rfl⟩
  · cases ht
  · cases ht

/-- Settles O15: a step is idle or serves one transaction. -/
theorem onlyResetLeavesTheFatalState : Obligations.OnlyResetLeavesTheFatalState := by
  intro s t hf hstep
  cases hhost : s.host with
  | nil =>
    rw [step_idle hhost] at hstep
    cases hstep
    exact .inl rfl
  | cons op rest =>
    rw [step_of_host hhost] at hstep
    rcases transact_of_fatal (s := { s with host := rest }) hf hstep with h | ⟨hop, rfl⟩
    · have hrest : t.host = rest := by rw [h]
      exact .inl (by rw [hrest]; exact h)
    · exact .inr ⟨rest, hop.imp (by rintro rfl; rfl) (by rintro rfl; rfl), rfl⟩

end Sys2Proof.Machine
end
